-- ==== Sys2Proof/Word.lean ====
section
/-! DEFINITION. The data of HCP-PCE: bytes, byte strings and 32-bit words (00_scope.md rules R13, R14;
10_state.md rule R42: every datum is a byte, a byte string, a 32-bit unsigned word, an element of GF(2^8) or a
length). Their arithmetic stands in the files of Machine/ that use it. -/

namespace Sys2Proof

/-- R13: a byte is 8 bits, bit 0 the least significant. -/
abbrev Byte := BitVec 8

/-- R14: a byte string. `s.length` is `len(s)`, `s ++ t` is `s ‖ t`, `[]` is `empty`; text is bytes. -/
abbrev Bytes := List Byte

/-- R72: a step word of the sequence ROM is 16 bits. -/
abbrev StepWord := BitVec 16

/-- R31, R99: a register of the host window and a word of the digest core are 32 bits. -/
abbrev Word32 := BitVec 32

end Sys2Proof
end

