-- ==== Sys2Proof/Syntax.lean ====
section
/-! DEFINITION. The instructions of HCP-PCE: the fourteen unit operations of the step level and the two commands of
the host level (30_encoding.md rules R70 to R74; one constructor per row of spec/opcode_table.json), over the twelve
numbered buffers (10_state.md rule R20). -/

namespace Sys2Proof

/-- R20, R73: the twelve buffers, in the order of their numbers 0 to 11. Numbers 12 to 15 are reserved and name no
buffer. -/
inductive Buf where
  /-- 0 `IN`: the host's input. -/
  | inp
  /-- 1 `OUT`: the result. -/
  | out
  /-- 2 `BLOB`: the hex blob. -/
  | blob
  /-- 3 `TAGHEX`. -/
  | tagHex
  /-- 4 `CTHEX`. -/
  | ctHex
  /-- 5 `KEYHEX`. -/
  | keyHex
  /-- 6 `CT`: the ciphertext. -/
  | ct
  /-- 7 `PT`: the recovered plaintext. -/
  | pt
  /-- 8 `SEED`. -/
  | seed
  /-- 9 `KEY`. -/
  | key
  /-- 10 `TAG`. -/
  | tag
  /-- 11 `XTAG`: the tag computed on decode. -/
  | xtag
deriving DecidableEq, Repr

/-- R70: the two instruction levels in one type. The first fourteen constructors are step operations (R74), an
explicit-operand one written destination first as in the assembly notation of R79; `encode` and `decode` are the
commands written to `CMD` (R71). -/
inductive Instr where
  /-- `DONE`, op 0x01 (R211). -/
  | done
  /-- `MOVE dst, src`, op 0x02 (R210). -/
  | move (dst src : Buf)
  /-- `NEWSEED`, op 0x10 (R110). -/
  | newseed
  /-- `DERIVEKEY`, op 0x11 (R112). -/
  | derivekey
  /-- `ENCRYPT dst, src`, op 0x20 (R145). -/
  | encrypt (dst src : Buf)
  /-- `DECRYPT dst, src`, op 0x21 (R149). -/
  | decrypt (dst src : Buf)
  /-- `DIGEST dst, src`, op 0x30 (R100). -/
  | digest (dst src : Buf)
  /-- `TAGCMP`, op 0x31 (R103). -/
  | tagcmp
  /-- `HEXENC dst, src`, op 0x40 (R162). -/
  | hexenc (dst src : Buf)
  /-- `HEXDEC dst, src`, op 0x41 (R165). -/
  | hexdec (dst src : Buf)
  /-- `B64ENC dst, src`, op 0x50 (R174). -/
  | b64enc (dst src : Buf)
  /-- `B64DEC dst, src`, op 0x51 (R178). -/
  | b64dec (dst src : Buf)
  /-- `JOIN`, op 0x60 (R190). -/
  | join
  /-- `SPLIT`, op 0x61 (R192). -/
  | split
  /-- `ENCODE`, command code 1 (R206). -/
  | encode
  /-- `DECODE`, command code 2 (R207). -/
  | decode
deriving DecidableEq, Repr

end Sys2Proof
end

