-- ==== Sys2Proof/WellFormed.lean ====
section
/-! DEFINITION. Operand legality, 30_encoding.md rule R75. The checks of R78 that stand before it (a reserved `op`, a
reserved buffer number, a non-zero field of an implied-operand word) are the decoder's: no term of `Instr` breaks
them. -/

namespace Sys2Proof

/-- R75: `dst` is in 1 to 11, never `IN`, which only the host writes. -/
def dstLegal (dst : Buf) : Bool := decide (dst ≠ .inp)

/-- R75: `src` is 0 or in 2 to 11, never `OUT`, which only the host reads. -/
def srcLegal (src : Buf) : Bool := decide (src ≠ .out)

/-- R75: the operand pair of an explicit-operand operation: a legal destination, a legal source, and two different
buffers. -/
def pairLegal (dst src : Buf) : Bool := dstLegal dst && srcLegal src && decide (dst ≠ src)

/-- R75: for `DIGEST` the destination is `TAG` or `XTAG`. -/
def digestDstLegal (dst : Buf) : Bool := decide (dst = .tag ∨ dst = .xtag)

/-- R75: the well-formedness of an instruction. Implied-operand operations and commands have no operand to check. -/
def Instr.wf : Instr → Bool
  | .done => true
  | .move dst src => pairLegal dst src
  | .newseed => true
  | .derivekey => true
  | .encrypt dst src => pairLegal dst src
  | .decrypt dst src => pairLegal dst src
  | .digest dst src => pairLegal dst src && digestDstLegal dst
  | .tagcmp => true
  | .hexenc dst src => pairLegal dst src
  | .hexdec dst src => pairLegal dst src
  | .b64enc dst src => pairLegal dst src
  | .b64dec dst src => pairLegal dst src
  | .join => true
  | .split => true
  | .encode => true
  | .decode => true

end Sys2Proof
end

