-- ==== Sys2Proof/Decode.lean ====
section
/-! DEFINITION. Encodings, 30_encoding.md rules R70 to R74, R77, R78: from a step word or a command code to an
instruction, rejecting by name, and the encoder after it. -/

namespace Sys2Proof

/-- R70: what holds an instruction: a 16-bit step word of the sequence ROM, or a 32-bit code written to `CMD`. -/
inductive CodeWord where
  | step (word : StepWord)
  | cmd (code : Word32)
deriving DecidableEq, Repr

/-- R78: why a word names no instruction. -/
inductive DecodeError where
  /-- R74: a reserved value of `op`. -/
  | reservedOp (op : BitVec 8)
  /-- R73: buffer number 12 to 15. -/
  | reservedBuffer (number : BitVec 4)
  /-- R74: an implied-operand word with a non-zero `dst` or `src`. -/
  | operandNotZero (dst src : BitVec 4)
  /-- R71: a command code other than 1 and 2. -/
  | reservedCommand (code : Word32)
deriving DecidableEq, Repr

/-- R72: bits 15:8. -/
def opField (w : StepWord) : BitVec 8 := w.extractLsb' 8 8

/-- R72: bits 7:4. -/
def dstField (w : StepWord) : BitVec 4 := w.extractLsb' 4 4

/-- R72: bits 3:0. -/
def srcField (w : StepWord) : BitVec 4 := w.extractLsb' 0 4

/-- R73: the buffer a number names; 12 to 15 are reserved. -/
def bufOfNumber (n : BitVec 4) : Except DecodeError Buf :=
  match n.toNat with
  | 0 => .ok .inp
  | 1 => .ok .out
  | 2 => .ok .blob
  | 3 => .ok .tagHex
  | 4 => .ok .ctHex
  | 5 => .ok .keyHex
  | 6 => .ok .ct
  | 7 => .ok .pt
  | 8 => .ok .seed
  | 9 => .ok .key
  | 10 => .ok .tag
  | 11 => .ok .xtag
  | _ => .error (.reservedBuffer n)

/-- R74: an implied-operand operation; the word must have `dst = 0` and `src = 0`. -/
def decodeImplied (w : StepWord) (i : Instr) : Except DecodeError Instr :=
  if dstField w = 0 ∧ srcField w = 0 then .ok i else .error (.operandNotZero (dstField w) (srcField w))

/-- R73, R74: an explicit-operand operation takes its buffers from `dst` and `src`. -/
def decodeExplicit (w : StepWord) (mk : Buf → Buf → Instr) : Except DecodeError Instr :=
  match bufOfNumber (dstField w), bufOfNumber (srcField w) with
  | .ok dst, .ok src => .ok (mk dst src)
  | .error e, _ => .error e
  | .ok _, .error e => .error e

/-- R72, R74: the decoding of a step word. Operand legality (R75) is `Instr.wf`; the meaning of an instruction that
breaks it is the sequencer fault of R238. -/
def decodeStep (w : StepWord) : Except DecodeError Instr :=
  match (opField w).toNat with
  | 0x01 => decodeImplied w .done
  | 0x02 => decodeExplicit w .move
  | 0x10 => decodeImplied w .newseed
  | 0x11 => decodeImplied w .derivekey
  | 0x20 => decodeExplicit w .encrypt
  | 0x21 => decodeExplicit w .decrypt
  | 0x30 => decodeExplicit w .digest
  | 0x31 => decodeImplied w .tagcmp
  | 0x40 => decodeExplicit w .hexenc
  | 0x41 => decodeExplicit w .hexdec
  | 0x50 => decodeExplicit w .b64enc
  | 0x51 => decodeExplicit w .b64dec
  | 0x60 => decodeImplied w .join
  | 0x61 => decodeImplied w .split
  | _ => .error (.reservedOp (opField w))

/-- R71: the decoding of a value written to `CMD`, compared whole. -/
def decodeCmd (code : Word32) : Except DecodeError Instr :=
  if code = 0x00000001#32 then .ok .encode
  else if code = 0x00000002#32 then .ok .decode
  else .error (.reservedCommand code)

/-- R70: the two levels together. -/
def decode : CodeWord → Except DecodeError Instr
  | .step w => decodeStep w
  | .cmd c => decodeCmd c

/-- R73: the number of a buffer. -/
def bufNumber : Buf → BitVec 4
  | .inp => 0
  | .out => 1
  | .blob => 2
  | .tagHex => 3
  | .ctHex => 4
  | .keyHex => 5
  | .ct => 6
  | .pt => 7
  | .seed => 8
  | .key => 9
  | .tag => 10
  | .xtag => 11

/-- R72: `op` in bits 15:8, `dst` in 7:4, `src` in 3:0. -/
def stepWord (op : BitVec 8) (dst src : BitVec 4) : StepWord := op ++ dst ++ src

/-- R71 to R74, the other way: the word of an instruction. -/
def encode : Instr → CodeWord
  | .done => .step (stepWord 0x01 0 0)
  | .move dst src => .step (stepWord 0x02 (bufNumber dst) (bufNumber src))
  | .newseed => .step (stepWord 0x10 0 0)
  | .derivekey => .step (stepWord 0x11 0 0)
  | .encrypt dst src => .step (stepWord 0x20 (bufNumber dst) (bufNumber src))
  | .decrypt dst src => .step (stepWord 0x21 (bufNumber dst) (bufNumber src))
  | .digest dst src => .step (stepWord 0x30 (bufNumber dst) (bufNumber src))
  | .tagcmp => .step (stepWord 0x31 0 0)
  | .hexenc dst src => .step (stepWord 0x40 (bufNumber dst) (bufNumber src))
  | .hexdec dst src => .step (stepWord 0x41 (bufNumber dst) (bufNumber src))
  | .b64enc dst src => .step (stepWord 0x50 (bufNumber dst) (bufNumber src))
  | .b64dec dst src => .step (stepWord 0x51 (bufNumber dst) (bufNumber src))
  | .join => .step (stepWord 0x60 0 0)
  | .split => .step (stepWord 0x61 0 0)
  | .encode => .cmd 0x00000001#32
  | .decode => .cmd 0x00000002#32

/-- The decoder on a word numbered as spec/opcode_table.json numbers it: a 16-bit row is a step word, a 32-bit row a
command code. Neither level has an instruction of another width (R71, R72). -/
def decodeTableWord (nbits w : Nat) : Option Instr :=
  if nbits = 16 then (decodeStep (BitVec.ofNat 16 w)).toOption
  else if nbits = 32 then (decodeCmd (BitVec.ofNat 32 w)).toOption
  else none

end Sys2Proof
end

