-- ==== Sys2Proof/Config.lean ====
section
/-! DEFINITION. What an instance of the engine fixes and no step changes (00_scope.md rules R8 to R12, the table
"Parameters left open" of 92_eei_decisions.md), and the one free value of the model. A State carries its instance's
`Config`, so that a statement about every State is a statement about every instance. -/

namespace Sys2Proof

/-- R11: the two values of `CFG_MODE`. -/
inductive CipherMode where
  /-- The pinned value. -/
  | cbc
  /-- The alternative of R144. -/
  | ecb
deriving DecidableEq, Repr

/-- R10 to R12: the parameters of an instance. `LENW` is 32 in this version (`lenw`). -/
structure Config where
  /-- `MAX_PT` (R10): the longest plaintext `ENCODE` accepts, in bytes. -/
  maxPt : Nat
  /-- `CFG_MODE` (R11). -/
  mode : CipherMode
  /-- `CFG_IV` (R11): the CBC initial chaining value. -/
  iv : Vector Byte 16
  /-- `CFG_HEX_UPPER` (R11). -/
  hexUpper : Bool
  /-- `IN_BASE` (R12): the offset of the input window. -/
  inBase : Nat
  /-- `OUT_BASE` (R12): the offset of the output window. -/
  outBase : Nat
deriving DecidableEq, Repr

/-- The pinned values and defaults of R10, R11, R12. -/
def Config.pinned : Config where
  maxPt := 4096
  mode := .cbc
  iv := Vector.replicate 16 0x00#8
  hexUpper := false
  inBase := 0x10000
  outBase := 0x20000

/-- The ranges of R10 and of the parameter table of 92_eei_decisions.md: `0 <= MAX_PT <= 24511`; the two bases are
distinct multiples of 0x10000 and not 0. -/
abbrev Config.Wf (c : Config) : Prop :=
  c.maxPt ≤ 24511 ∧ c.inBase % 0x10000 = 0 ∧ c.outBase % 0x10000 = 0 ∧
    c.inBase ≠ c.outBase ∧ c.inBase ≠ 0 ∧ c.outBase ≠ 0

/-- R8. -/
def seedLen : Nat := 32
/-- R8. -/
def keyLen : Nat := 32
/-- R8. -/
def tagLen : Nat := 20
/-- R8. -/
def tagHexLen : Nat := 40
/-- R8. -/
def keyHexLen : Nat := 64
/-- R8: "Packets shorter than 104 hex characters are malformed". -/
def minBlob : Nat := 104
/-- R9. -/
def blockLen : Nat := 16
/-- R12: `LENW`, the width of the length registers; 32 only in this version. -/
def lenw : Nat := 32

/-- FREE VALUE (assumption 3). R236 names the result of a cipher failure when `CMDREG` is `DECODE` and when it is
`ENCODE`; it names none for `CMDREG = none`, a state no run reaches with a step to execute. Which of the two results
of R231 the engine then writes is unconstrained: `true` stands for the `ENCODE` line, the argument is the number of
times such a value was asked for. -/
opaque Config.cipherFailureAsEncode : Nat → Bool

end Sys2Proof
end

