-- ==== Sys2Proof/Machine/Rom.lean ====
section
/-! DEFINITION. The contents of the sequence ROM, 30_encoding.md rule R76. -/

namespace Sys2Proof.Machine

/-- R76: addresses 0x00 to 0x0F, the `ENCODE` sequence; 0x0B to 0x0F are reserved words. -/
def romEncodeHalf : List StepWord :=
  [ 0x1000#16,   -- 0x00: NEWSEED
    0x1100#16,   -- 0x01: DERIVEKEY
    0x2060#16,   -- 0x02: ENCRYPT CT, IN
    0x2176#16,   -- 0x03: DECRYPT PT, CT
    0x30A7#16,   -- 0x04: DIGEST TAG, PT
    0x403A#16,   -- 0x05: HEXENC TAGHEX, TAG
    0x4046#16,   -- 0x06: HEXENC CTHEX, CT
    0x4058#16,   -- 0x07: HEXENC KEYHEX, SEED
    0x6000#16,   -- 0x08: JOIN
    0x5012#16,   -- 0x09: B64ENC OUT, BLOB
    0x0100#16,   -- 0x0A: DONE
    0x0000#16, 0x0000#16, 0x0000#16, 0x0000#16, 0x0000#16 ]

/-- R76: addresses 0x10 to 0x1F, the `DECODE` sequence; 0x1B to 0x1F are reserved words. -/
def romDecodeHalf : List StepWord :=
  [ 0x5120#16,   -- 0x10: B64DEC BLOB, IN
    0x6100#16,   -- 0x11: SPLIT
    0x41A3#16,   -- 0x12: HEXDEC TAG, TAGHEX
    0x4185#16,   -- 0x13: HEXDEC SEED, KEYHEX
    0x4164#16,   -- 0x14: HEXDEC CT, CTHEX
    0x1100#16,   -- 0x15: DERIVEKEY
    0x2176#16,   -- 0x16: DECRYPT PT, CT
    0x30B7#16,   -- 0x17: DIGEST XTAG, PT
    0x3100#16,   -- 0x18: TAGCMP
    0x0217#16,   -- 0x19: MOVE OUT, PT
    0x0100#16,   -- 0x1A: DONE
    0x0000#16, 0x0000#16, 0x0000#16, 0x0000#16, 0x0000#16 ]

/-- R76: the ROM has 32 words of 16 bits. -/
def sequenceRom : Vector StepWord 32 := ⟨(romEncodeHalf ++ romDecodeHalf).toArray, rfl⟩

end Sys2Proof.Machine
end

