-- ==== Sys2Proof/Machine/State.lean ====
section
/-! DEFINITION. The state of HCP-PCE as plain data: 10_state.md rules R20 to R41, the input window of 20_memory.md,
and the inputs of the block's ports (the host's accesses, the random source, the initialisation checks) as the data a
step reads. Reset values: R39. -/

namespace Sys2Proof.Machine

/-- R28: `CMDREG`, 2 bits: 0 none, 1 `ENCODE`, 2 `DECODE`; R201 writes no other value. -/
inductive CmdReg where
  | none
  | encode
  | decode
deriving DecidableEq, Repr

/-- R230: the values of `RESULT.CODE`; 8 to 255 are never written. -/
inductive ResultCode where
  | none
  | ok
  | malformed
  | tampered
  | badCipherText
  | capacity
  | illegalCmd
  | seqFault
deriving DecidableEq, Repr

/-- R231: the values of `RESULT.CAUSE`; 14 to 255 are never written. -/
inductive Cause where
  | none
  | b64Length
  | b64Char
  | b64Trailing
  | blobShort
  | hexLength
  | hexChar
  | ctLength
  | ctPadding
  | tagMismatch
  | inTooLong
  | cmdReserved
  | stepReserved
  | stepPrecond
deriving DecidableEq, Repr

/-- R16, R230: the failure kinds of the unit operations. -/
inductive FailKind where
  | malformed
  | tampered
  | badCipherText
deriving DecidableEq, Repr

/-- R16: a unit function fails with one kind and one cause. -/
structure Failure where
  kind : FailKind
  cause : Cause
deriving DecidableEq, Repr

/-- R20: the buffer file, one byte string per buffer. -/
structure Buffers where
  /-- 0 `IN`: the input fixed at acceptance (R21, R201). -/
  inp : Bytes
  /-- 1 `OUT`: its bytes are the output window, its length is `OLEN` (R22, R34). -/
  out : Bytes
  /-- 2 `BLOB`. -/
  blob : Bytes
  /-- 3 `TAGHEX`. -/
  tagHex : Bytes
  /-- 4 `CTHEX`. -/
  ctHex : Bytes
  /-- 5 `KEYHEX`. -/
  keyHex : Bytes
  /-- 6 `CT`. -/
  ct : Bytes
  /-- 7 `PT`. -/
  pt : Bytes
  /-- 8 `SEED`. -/
  seed : Bytes
  /-- 9 `KEY`. -/
  key : Bytes
  /-- 10 `TAG`. -/
  tag : Bytes
  /-- 11 `XTAG`. -/
  xtag : Bytes
deriving DecidableEq, Repr

/-- R39: all buffers empty. -/
def Buffers.empty : Buffers where
  inp := []
  out := []
  blob := []
  tagHex := []
  ctHex := []
  keyHex := []
  ct := []
  pt := []
  seed := []
  key := []
  tag := []
  xtag := []

/-- R35, R130: a round-key word, 4 bytes, byte 0 first. -/
structure RoundWord where
  b0 : Byte
  b1 : Byte
  b2 : Byte
  b3 : Byte
deriving DecidableEq, Repr

/-- R35: the working registers of the cipher engine. -/
structure CipherRegs where
  /-- The round-key words `W[0..59]`. -/
  w : Vector RoundWord 60
  /-- The state block `S`. -/
  s : Vector Byte 16
  /-- The chaining value `CV`. -/
  cv : Vector Byte 16
deriving DecidableEq, Repr

/-- R39: `W`, `S`, `CV` are 0. -/
def CipherRegs.zero : CipherRegs where
  w := Vector.replicate 60 ⟨0, 0, 0, 0⟩
  s := Vector.replicate 16 0
  cv := Vector.replicate 16 0

/-- R36, R93: the chaining words `H[0..4]`. -/
structure Chain where
  h0 : Word32
  h1 : Word32
  h2 : Word32
  h3 : Word32
  h4 : Word32
deriving DecidableEq, Repr

/-- R36, R96: the working words `a` to `e`. -/
structure Working where
  a : Word32
  b : Word32
  c : Word32
  d : Word32
  e : Word32
deriving DecidableEq, Repr

/-- R36: the working registers of the digest core. -/
structure DigestRegs where
  /-- `H[0..4]`. -/
  h : Chain
  /-- `a, b, c, d, e`. -/
  v : Working
  /-- The schedule `Wt[0..79]`. -/
  wt : Vector Word32 80
  /-- The message length in bits, 64 bits. -/
  bitLen : BitVec 64
deriving DecidableEq, Repr

/-- R39: `H`, `a` to `e`, `Wt` and the length counter are 0. -/
def DigestRegs.zero : DigestRegs where
  h := ⟨0, 0, 0, 0, 0⟩
  v := ⟨0, 0, 0, 0, 0⟩
  wt := Vector.replicate 80 0
  bitLen := 0

/-- R15, R55: one access of the host to the host window: a byte offset, a width in bytes, and for a write the value. -/
inductive HostAccess where
  /-- `MemRead`. -/
  | read (offset width : Nat)
  /-- `MemWrite`. -/
  | write (offset width : Nat) (value : Word32)
deriving DecidableEq, Repr

/-- R7: what the agents outside the sequencer do, one event at a time; a list of them is the order in which they do
it (assumption 5). -/
inductive Event where
  /-- The sequencer is given one turn (R203). -/
  | engine
  /-- The host performs one access (R55 to R62). -/
  | access (a : HostAccess)
  /-- The reset input is asserted (R260, R261). -/
  | reset
  /-- The random source has these further bytes to give, in order (R111). -/
  | deliver (bytes : Bytes)
  /-- The signals sampled by initialisation take these values (R262). -/
  | signals (rngOk cipherOk digestOk : Bool)
deriving DecidableEq, Repr

/-- R50: the input window, byte addressed, as the list of its non-zero bytes in rising order of index. An unlisted
index reads 0x00, the reset value of R39 (assumption 10). -/
abbrev Memory := List Host.Cell

/-- The state of one instance and of the inputs at its ports. -/
structure State where
  /-- The instance's parameters (R38: constants; no step changes them; assumption 1). -/
  cfg : Config
  /-- The sequence ROM (R50 e, R76; R67: nothing writes it; assumption 2). -/
  rom : Vector StepWord 32
  /-- The twelve buffers (R20). -/
  bufs : Buffers
  /-- `INW` (R50 b). -/
  inw : Memory
  /-- `ILEN` (R33). -/
  ilen : Word32
  /-- `UPC` (R27). -/
  upc : BitVec 5
  /-- `CMDREG` (R28). -/
  cmdreg : CmdReg
  /-- `STATUS.BUSY` (R29). -/
  busy : Bool
  /-- `STATUS.DONE` (R29). -/
  done : Bool
  /-- `STATUS.FATAL` (R29). -/
  fatal : Bool
  /-- `STATUS.OVR` (R29). -/
  ovr : Bool
  /-- `RESULT.CODE` (R32, R230). -/
  resultCode : ResultCode
  /-- `RESULT.CAUSE` (R32, R231). -/
  resultCause : Cause
  /-- `CTRL.IE` (R31). -/
  ie : Bool
  /-- `DIFF` (R30). -/
  diff : Byte
  /-- The cipher engine's working registers (R35). -/
  cipher : CipherRegs
  /-- The digest core's working registers (R36). -/
  digest : DigestRegs
  /-- The check of R262 is still to be made: reset has been released and no command can be accepted yet
  (the model's own field, assumption 7). -/
  initPending : Bool
  /-- The signal `rng_ok` of the random-source port (R111). -/
  rngOk : Bool
  /-- The signal `cipher_ok` (R262). -/
  cipherOk : Bool
  /-- The signal `digest_ok` (R262). -/
  digestOk : Bool
  /-- The bytes the random source has to give, first to be drawn first (R111): an input, under no law
  (assumption 14). -/
  rng : Bytes
  /-- The events at the ports still to come, first to come first (assumption 5). -/
  env : List Event
  /-- The value the host's latest access returned, if it returned one (R55, R62): the model's own record
  (assumption 8). -/
  reply : Option Word32
  /-- How many free values have been taken (assumption 3): the model's own counter. -/
  freeCount : Nat
deriving DecidableEq, Repr

/-- R39, R260: the machine right after reset is released, before the check of R262, with the pinned parameters,
the three sampled signals at 1 and no event at its ports (assumptions 1, 7, 14). -/
def State.reset : State where
  cfg := Config.pinned
  rom := sequenceRom
  bufs := Buffers.empty
  inw := []
  ilen := 0
  upc := 0
  cmdreg := .none
  busy := false
  done := false
  fatal := false
  ovr := false
  resultCode := .none
  resultCause := .none
  ie := false
  diff := 0
  cipher := CipherRegs.zero
  digest := DigestRegs.zero
  initPending := true
  rngOk := true
  cipherOk := true
  digestOk := true
  rng := []
  env := []
  reply := none
  freeCount := 0

/-- Why a step stops. Every failure the spec describes is a completed command, a next state (R236); this is the one
stop. -/
inductive Fault where
  /-- Raised by a host access whose offset lies in none of the three ranges of R56: no such address exists in the
  host window (assumption 9, DESIGN CHOICE). Safe: the run ends where the block itself sees no access. -/
  | outsideWindow (offset : Nat)
deriving DecidableEq, Repr

/-- Why an instruction has no meaning. -/
inductive Refusal where
  /-- Raised by an arm of `exec` without a meaning; every arm has one, so nothing raises it. Safe. -/
  | notModelled (mnemonic : String)
deriving DecidableEq, Repr

end Sys2Proof.Machine
end

