-- ==== Sys2Proof/Machine/Flags.lean ====
section
/-! DEFINITION. The flags and the numbers the host reads: `STATUS`, `RESULT`, `CTRL`, `OLEN`, the interrupt output,
and the accumulator `DIFF` of the tag comparator (10_state.md rules R29 to R34, 60_exceptions.md rules R230, R231,
R241). -/

namespace Sys2Proof.Machine

/-- R230: the number of a result code. -/
def resultNumber : ResultCode → BitVec 8
  | .none => 0
  | .ok => 1
  | .malformed => 2
  | .tampered => 3
  | .badCipherText => 4
  | .capacity => 5
  | .illegalCmd => 6
  | .seqFault => 7

/-- R231: the number of a cause code. -/
def causeNumber : Cause → BitVec 8
  | .none => 0
  | .b64Length => 1
  | .b64Char => 2
  | .b64Trailing => 3
  | .blobShort => 4
  | .hexLength => 5
  | .hexChar => 6
  | .ctLength => 7
  | .ctPadding => 8
  | .tagMismatch => 9
  | .inTooLong => 10
  | .cmdReserved => 11
  | .stepReserved => 12
  | .stepPrecond => 13

/-- R28: the number of a latched command. -/
def cmdregNumber : CmdReg → BitVec 2
  | .none => 0
  | .encode => 1
  | .decode => 2

/-- R31: `STATUS`, bit 0 `BUSY`, bit 1 `DONE`, bit 2 `FATAL`, bit 3 `OVR`, bits 31:4 read 0. -/
def statusWord (s : State) : Word32 :=
  0#28 ++ BitVec.ofBool s.ovr ++ BitVec.ofBool s.fatal ++ BitVec.ofBool s.done ++ BitVec.ofBool s.busy

/-- R31: `RESULT`, `CODE` in bits 7:0, `CAUSE` in bits 15:8, bits 31:16 read 0. -/
def resultWord (s : State) : Word32 :=
  0#16 ++ causeNumber s.resultCause ++ resultNumber s.resultCode

/-- R31: `CTRL`, bit 0 `IE`, bits 31:1 read 0. -/
def ctrlWord (s : State) : Word32 := 0#31 ++ BitVec.ofBool s.ie

/-- R34: `OLEN` equals `len(B[OUT])` at all times. -/
def olen (s : State) : Word32 := BitVec.ofNat 32 s.bufs.out.length

/-- R241: `irq = STATUS.DONE and CTRL.IE` at all times. -/
def irq (s : State) : Bool := s.done && s.ie

/-- R30, R103: the value of `DIFF` after the comparator's loop over two tags: the OR of the XOR of every byte
pair. -/
def diffOf (xtag tag : Bytes) : Byte :=
  (List.zip xtag tag).foldl (fun diff p => diff ||| (p.1 ^^^ p.2)) 0

end Sys2Proof.Machine
end

