-- ==== Sys2Proof/Machine/Operands.lean ====
section
/-! DEFINITION. Operands: the sizes derived from `MAX_PT` (00_scope.md rule R10), and the one way to read and to
replace a buffer by its name (10_state.md rule R20, 00_scope.md rule R15). -/

namespace Sys2Proof.Machine

/-- R10: `MAX_CT`. -/
def maxCt (c : Config) : Nat := 16 * (c.maxPt / 16 + 1)

/-- R10: `MAX_BLOB`. -/
def maxBlob (c : Config) : Nat := 104 + 2 * maxCt c

/-- R10: `MAX_PKT = 4 * ceil(MAX_BLOB / 3)`. -/
def maxPkt (c : Config) : Nat := 4 * ((maxBlob c + 2) / 3)

/-- R10: `BLOB_CAP`. -/
def blobCap (c : Config) : Nat := 3 * (maxPkt c / 4)

/-- R10: `CTHEX_CAP`. -/
def ctHexCap (c : Config) : Nat := blobCap c - 104

/-- R10: `CT_CAP`. -/
def ctCap (c : Config) : Nat := ctHexCap c / 2

/-- R10: `PT_CAP`. -/
def ptCap (c : Config) : Nat := ctCap c

/-- R20: the capacity of a buffer in bytes. -/
def capacity (c : Config) : Buf → Nat
  | .inp => maxPkt c
  | .out => maxPkt c
  | .blob => blobCap c
  | .tagHex => tagHexLen
  | .ctHex => ctHexCap c
  | .keyHex => keyHexLen
  | .ct => ctCap c
  | .pt => ptCap c
  | .seed => seedLen
  | .key => keyLen
  | .tag => tagLen
  | .xtag => tagLen

/-- R15: `B[X]`. -/
def readBuf (bs : Buffers) : Buf → Bytes
  | .inp => bs.inp
  | .out => bs.out
  | .blob => bs.blob
  | .tagHex => bs.tagHex
  | .ctHex => bs.ctHex
  | .keyHex => bs.keyHex
  | .ct => bs.ct
  | .pt => bs.pt
  | .seed => bs.seed
  | .key => bs.key
  | .tag => bs.tag
  | .xtag => bs.xtag

/-- R15: `B[X] <- v`, length included. -/
def writeBuf (bs : Buffers) (b : Buf) (v : Bytes) : Buffers :=
  match b with
  | .inp => { bs with inp := v }
  | .out => { bs with out := v }
  | .blob => { bs with blob := v }
  | .tagHex => { bs with tagHex := v }
  | .ctHex => { bs with ctHex := v }
  | .keyHex => { bs with keyHex := v }
  | .ct => { bs with ct := v }
  | .pt => { bs with pt := v }
  | .seed => { bs with seed := v }
  | .key => { bs with key := v }
  | .tag => { bs with tag := v }
  | .xtag => { bs with xtag := v }

end Sys2Proof.Machine
end

