-- ==== Sys2Proof/Machine/Ops.lean ====
section
/-! DEFINITION. The shared operations of the machine: the input window's memory, completion (the one way a command
ends), abort and the sequencer fault (the engine's exceptions: 60_exceptions.md rules R236, R238; there is no return
from one, R239), the end of a step, the write of a destination, the acceptance of a command, the fetch, reset and
initialisation. -/

namespace Sys2Proof.Machine

/-! ### The input window's memory -/

/-- R39: what an unlisted index of the input window reads as. -/
def Memory.unlisted : Byte := 0x00#8

/-- The byte at an index. -/
def Memory.read : Memory → Nat → Byte
  | [], _ => Memory.unlisted
  | (b, v) :: m, a => if a = b then v else Memory.read m a

/-- The memory with one byte replaced, in the canonical form. -/
def Memory.write : Memory → Nat → Byte → Memory
  | [], a, v => if v = Memory.unlisted then [] else [(a, v)]
  | (b, w) :: m, a, v =>
    if a < b then (if v = Memory.unlisted then (b, w) :: m else (a, v) :: (b, w) :: m)
    else if a = b then (if v = Memory.unlisted then m else (a, v) :: m)
    else (b, w) :: Memory.write m a v

/-- The canonical form: indexes strictly rising, and no entry equal to what an unlisted index reads as. -/
def Memory.wf : Memory → Bool
  | [] => true
  | (a, v) :: m => decide (v ≠ Memory.unlisted) && m.all (fun c => decide (a < c.1)) && Memory.wf m

/-- R21: `INW[0 : n]`. -/
def windowPrefix (m : Memory) (n : Nat) : Bytes := (List.range n).map (Memory.read m)

/-! ### Completion, abort, sequencer fault -/

/-- R41: the clearing of every completion: buffers 0 and 2 to 11, `INW`, `ILEN`, `DIFF`, `CMDREG`, `UPC` and the
working registers. -/
def clearInternal (s : State) : State :=
  { s with
    bufs := { Buffers.empty with out := s.bufs.out }
    inw := []
    ilen := 0
    diff := 0
    cmdreg := .none
    upc := 0
    cipher := CipherRegs.zero
    digest := DigestRegs.zero }

/-- R202: `complete(code, cause)`, one transition. -/
def complete (code : ResultCode) (cause : Cause) (s : State) : State :=
  let kept : Buffers := if code = .ok then s.bufs else { s.bufs with out := [] }
  { clearInternal { s with bufs := kept } with
    resultCode := code
    resultCause := cause
    busy := false
    done := true }

/-- R238: the sequencer fault. -/
def seqFault (cause : Cause) (s : State) : State := complete .seqFault cause s

/-- R236: abort, what the engine does when the step raises a failure. A cipher failure with no command latched has
one of the two results of R231 for its cause, a free value (assumption 3). -/
def abort (f : Failure) (s : State) : State :=
  match f.kind, s.cmdreg with
  | .malformed, _ => complete .malformed f.cause s
  | .tampered, _ => complete .tampered f.cause s
  | .badCipherText, .decode => complete .malformed f.cause s
  | .badCipherText, .encode => complete .badCipherText f.cause s
  | .badCipherText, .none =>
    if Config.cipherFailureAsEncode s.freeCount then
      complete .badCipherText f.cause { s with freeCount := s.freeCount + 1 }
    else complete .malformed f.cause { s with freeCount := s.freeCount + 1 }

/-! ### The end of a step -/

/-- R27, R203: a step that completes without failing and is not `DONE` adds 1 to `UPC`; R238: a wrap is a sequencer
fault. -/
def advance (s : State) : State :=
  if s.upc = 31#5 then seqFault .stepPrecond s else { s with upc := s.upc + 1 }

/-- R69, R20: a destination is written whole, unless it would exceed the buffer's capacity (R238); then the step
ends. -/
def store (dst : Buf) (v : Bytes) (s : State) : State :=
  if v.length ≤ capacity s.cfg dst then advance { s with bufs := writeBuf s.bufs dst v }
  else seqFault .stepPrecond s

/-- R69, R234: the result of a unit function: its value is stored, its failure aborts and writes no buffer. -/
def storeResult (dst : Buf) (r : Except Failure Bytes) (s : State) : State :=
  match r with
  | .ok v => store dst v s
  | .error f => abort f s

/-- R75, R78 b: an ill-formed step is a sequencer fault; a well-formed one does what it does. -/
def whenLegal (i : Instr) (s : State) (next : State) : State :=
  if i.wf then next else seqFault .stepReserved s

/-- R238: a length precondition of a unit operation. -/
def whenHolds (precondition : Bool) (s : State) (next : State) : State :=
  if precondition then next else seqFault .stepPrecond s

/-! ### Accepting a command -/

/-- R201: the part of an acceptance every command write shares while the engine is idle. -/
def beginCommand (s : State) : State :=
  { s with
    done := false
    bufs := { s.bufs with out := [] }
    resultCode := .none
    resultCause := .none }

/-- R201: the input is fixed, the command latched, and the sequencer started. -/
def startCommand (c : CmdReg) (entry : BitVec 5) (s : State) : State :=
  { s with
    bufs := { s.bufs with inp := windowPrefix s.inw s.ilen.toNat }
    cmdreg := c
    busy := true
    upc := entry }

/-- R201: a write of `v` to `CMD`, one transition. -/
def acceptCommand (v : Word32) (s : State) : State :=
  if s.fatal then s
  else if s.busy then { s with ovr := true }
  else if v = 1#32 then
    (if s.cfg.maxPt < s.ilen.toNat then complete .capacity .inTooLong (beginCommand s)
     else startCommand .encode 0x00#5 (beginCommand s))
  else if v = 2#32 then
    (if maxPkt s.cfg < s.ilen.toNat then complete .capacity .inTooLong (beginCommand s)
     else startCommand .decode 0x10#5 (beginCommand s))
  else complete .illegalCmd .cmdReserved (beginCommand s)

/-! ### Fetch -/

/-- R203: `word <- ROM[UPC]`. -/
def fetch (s : State) : StepWord := s.rom[s.upc.toNat]'s.upc.isLt

/-! ### Reset and initialisation -/

/-- R260, R261: the reset event: all of the engine takes the values of R39 whatever it was doing; what stands outside
the block (its parameters, the inputs at its ports) stays (assumption 15, DEDUCED). -/
def resetEngine (s : State) : State :=
  { State.reset with
    cfg := s.cfg
    rom := s.rom
    rngOk := s.rngOk
    cipherOk := s.cipherOk
    digestOk := s.digestOk
    rng := s.rng
    env := s.env
    freeCount := s.freeCount }

/-- R262: the check made once when reset is released, one transition. -/
def initialise (s : State) : State :=
  { s with
    initPending := false
    fatal := !(s.rngOk && s.cipherOk && s.digestOk) }

/-! ### What takes the next step -/

/-- R7: who acts in a step, with what. -/
inductive Turn where
  /-- The initialisation check (R262). -/
  | initialise
  /-- The sequencer (R203). -/
  | engine
  /-- The host (R55 to R62). -/
  | host (a : HostAccess)
  /-- The reset input (R260). -/
  | reset
  /-- The random source has more bytes (R111). -/
  | deliver (bytes : Bytes)
  /-- The sampled signals change (R262). -/
  | signals (rngOk cipherOk digestOk : Bool)
deriving DecidableEq, Repr

/-- Whose turn it is: the initialisation check comes before everything else after a reset (R262); then the events in
their order; with no event left, the sequencer (assumption 5). -/
def turn (s : State) : Turn :=
  if s.initPending then .initialise
  else match s.env with
    | [] => .engine
    | .engine :: _ => .engine
    | .access a :: _ => .host a
    | .reset :: _ => .reset
    | .deliver bytes :: _ => .deliver bytes
    | .signals r c d :: _ => .signals r c d

/-- The state with the event of this step taken off the list. The initialisation check takes none. -/
def takeEvent (s : State) : State :=
  if s.initPending then s else { s with env := s.env.tail }

end Sys2Proof.Machine
end

