-- ==== Sys2Proof/Machine/Base64.lean ====
section
/-! DEFINITION. The base64 encoder and decoder, 44_base64.md: B64ENC (R174) and B64DEC (R177, R178). -/

namespace Sys2Proof.Machine

/-- R171: the pad character `'='`. -/
def b64PadChar : Byte := 0x3d#8

/-- R171: `B64CHAR(v)`. -/
def b64Char (v : BitVec 6) : Byte :=
  let n := v.toNat
  if n < 26 then BitVec.ofNat 8 (0x41 + n)
  else if n < 52 then BitVec.ofNat 8 (0x61 + n - 26)
  else if n < 62 then BitVec.ofNat 8 (0x30 + n - 52)
  else if n = 62 then 0x2b#8
  else 0x2f#8

/-- R172: the four 6-bit fields of a 24-bit group, `g[23:18]` first. -/
def groupFields (g : BitVec 24) : List (BitVec 6) :=
  [g.extractLsb' 18 6, g.extractLsb' 12 6, g.extractLsb' 6 6, g.extractLsb' 0 6]

/-- R172: a whole group of three bytes. -/
def b64Group (x0 x1 x2 : Byte) : Bytes := (groupFields (x0 ++ x1 ++ x2)).map b64Char

/-- R173: the final group of one byte. -/
def b64Final1 (x0 : Byte) : Bytes :=
  ((groupFields (x0 ++ 0x00#8 ++ 0x00#8)).take 2).map b64Char ++ [b64PadChar, b64PadChar]

/-- R173: the final group of two bytes. -/
def b64Final2 (x0 x1 : Byte) : Bytes :=
  ((groupFields (x0 ++ x1 ++ 0x00#8)).take 3).map b64Char ++ [b64PadChar]

/-- R174: `B64ENC(b)`. -/
def b64Enc : Bytes → Bytes
  | x0 :: x1 :: x2 :: rest => b64Group x0 x1 x2 ++ b64Enc rest
  | [x0, x1] => b64Final2 x0 x1
  | [x0] => b64Final1 x0
  | [] => []

/-- R176: `B64VAL(c)`; `'='` has no value. -/
def b64Val (c : Byte) : Option (BitVec 6) :=
  let n := c.toNat
  if 0x41 ≤ n ∧ n ≤ 0x5a then some (BitVec.ofNat 6 (n - 0x41))
  else if 0x61 ≤ n ∧ n ≤ 0x7a then some (BitVec.ofNat 6 (n - 0x61 + 26))
  else if 0x30 ≤ n ∧ n ≤ 0x39 then some (BitVec.ofNat 6 (n - 0x30 + 52))
  else if n = 0x2b then some 62#6
  else if n = 0x2f then some 63#6
  else none

/-- R177: `npad`. -/
def b64PadCount (t : Bytes) : Nat :=
  if t ≠ [] ∧ t.getD (t.length - 1) 0 = b64PadChar then
    (if t.getD (t.length - 2) 0 = b64PadChar then 2 else 1)
  else 0

/-- R177: the values of all characters; `none` if one has no value. -/
def b64Vals : Bytes → Option (List (BitVec 6))
  | [] => some []
  | c :: t =>
    match b64Val c, b64Vals t with
    | some v, some vs => some (v :: vs)
    | _, _ => none

/-- R177: the unused bits of the last character before the padding are not all zero. -/
def b64Trailing (npad : Nat) (v : List (BitVec 6)) : Bool :=
  match npad with
  | 1 => decide ((v.getLastD 0).toNat % 4 ≠ 0)
  | 2 => decide ((v.getLastD 0).toNat % 16 ≠ 0)
  | _ => false

/-- R177: the bytes of the groups. The last group has three values when `npad` is 1 and two when it is 2. -/
def b64Bytes : List (BitVec 6) → Bytes
  | c0 :: c1 :: c2 :: c3 :: rest =>
    let g : BitVec 24 := c0 ++ c1 ++ c2 ++ c3
    g.extractLsb' 16 8 :: g.extractLsb' 8 8 :: g.extractLsb' 0 8 :: b64Bytes rest
  | [c0, c1, c2] =>
    let g : BitVec 24 := c0 ++ c1 ++ c2 ++ 0#6
    [g.extractLsb' 16 8, g.extractLsb' 8 8]
  | [c0, c1] =>
    let g : BitVec 24 := c0 ++ c1 ++ 0#12
    [g.extractLsb' 16 8]
  | _ => []

/-- R177: `B64DEC(t)`: length, then characters, then trailing bits. -/
def b64Dec (t : Bytes) : Except Failure Bytes :=
  if t.length % 4 ≠ 0 then .error ⟨.malformed, .b64Length⟩
  else match b64Vals (t.take (t.length - b64PadCount t)) with
    | none => .error ⟨.malformed, .b64Char⟩
    | some v =>
      if b64Trailing (b64PadCount t) v then .error ⟨.malformed, .b64Trailing⟩ else .ok (b64Bytes v)

/-- R174: `B64ENC dst, src`. -/
def execB64enc (dst src : Buf) (s : State) : Host.Outcome State Fault Refusal :=
  .next (whenLegal (.b64enc dst src) s (store dst (b64Enc (readBuf s.bufs src)) s))

/-- R178: `B64DEC dst, src`. -/
def execB64dec (dst src : Buf) (s : State) : Host.Outcome State Fault Refusal :=
  .next (whenLegal (.b64dec dst src) s (storeResult dst (b64Dec (readBuf s.bufs src)) s))

end Sys2Proof.Machine
end

