-- ==== Sys2Proof/Machine/Cipher.lean ====
section
/-! DEFINITION. The symmetric cipher engine, 42_cipher.md: AES-256 (rules R122 to R134), PKCS#7 padding (R140, R141),
CBC and ECB (R142, R144, R147), and the unit operations ENCRYPT (R145) and DECRYPT (R149). A block is the 16-byte
string form of R122: byte `r + 4c` is row `r` of column `c`. -/

namespace Sys2Proof.Machine

/-! ### GF(2^8) and the S-boxes -/

/-- R123: multiplication by `x`. -/
def xtime (a : Byte) : Byte := if a < 0x80#8 then a <<< 1 else (a <<< 1) ^^^ 0x1b#8

/-- R123: `3 * a`. -/
def times3 (a : Byte) : Byte := xtime a ^^^ a

/-- R123: `9 * a`. -/
def times9 (a : Byte) : Byte := xtime (xtime (xtime a)) ^^^ a

/-- R123: `11 * a`. -/
def times11 (a : Byte) : Byte := xtime (xtime (xtime a)) ^^^ xtime a ^^^ a

/-- R123: `13 * a`. -/
def times13 (a : Byte) : Byte := xtime (xtime (xtime a)) ^^^ xtime (xtime a) ^^^ a

/-- R123: `14 * a`. -/
def times14 (a : Byte) : Byte := xtime (xtime (xtime a)) ^^^ xtime (xtime a) ^^^ xtime a

/-- R124: the table of `SBOX`, one number per row, its sixteen bytes written in the order of the columns x0 to xf. -/
def sboxRows : List Nat :=
  [ 0x637c777bf26b6fc53001672bfed7ab76,
    0xca82c97dfa5947f0add4a2af9ca472c0,
    0xb7fd9326363ff7cc34a5e5f171d83115,
    0x04c723c31896059a071280e2eb27b275,
    0x09832c1a1b6e5aa0523bd6b329e32f84,
    0x53d100ed20fcb15b6acbbe394a4c58cf,
    0xd0efaafb434d338545f9027f503c9fa8,
    0x51a3408f929d38f5bcb6da2110fff3d2,
    0xcd0c13ec5f974417c4a77e3d645d1973,
    0x60814fdc222a908846eeb814de5e0bdb,
    0xe0323a0a4906245cc2d3ac629195e479,
    0xe7c8376d8dd54ea96c56f4ea657aae08,
    0xba78252e1ca6b4c6e8dd741f4bbd8b8a,
    0x703eb5664803f60e613557b986c11d9e,
    0xe1f8981169d98e949b1e87e9ce5528df,
    0x8ca1890dbfe6426841992d0fb054bb16 ]

/-- R125: the table of `INV_SBOX`, written like `sboxRows`. -/
def invSboxRows : List Nat :=
  [ 0x52096ad53036a538bf40a39e81f3d7fb,
    0x7ce339829b2fff87348e4344c4dee9cb,
    0x547b9432a6c2233dee4c950b42fac34e,
    0x082ea16628d924b2765ba2496d8bd125,
    0x72f8f66486689816d4a45ccc5d65b692,
    0x6c704850fdedb9da5e154657a78d9d84,
    0x90d8ab008cbcd30af7e45805b8b34506,
    0xd02c1e8fca3f0f02c1afbd0301138a6b,
    0x3a9111414f67dcea97f2cfcef0b4e673,
    0x96ac7422e7ad3585e2f937e81c75df6e,
    0x47f11a711d29c5896fb7620eaa18be1b,
    0xfc563e4bc6d279209adbc0fe78cd5af4,
    0x1fdda8338807c731b11210592780ec5f,
    0x60517fa919b54a0d2de57a9f93c99cef,
    0xa0e03b4dae2af5b0c8ebbb3c83539961,
    0x172b047eba77d626e169146355210c7d ]

/-- The byte in row `v div 16` and column `v mod 16` of a table. -/
def tableByte (rows : List Nat) (v : Byte) : Byte :=
  BitVec.ofNat 8 (rows.getD (v.toNat / 16) 0 >>> (8 * (15 - v.toNat % 16)))

/-- R124: `SBOX[v]`. -/
def sbox (v : Byte) : Byte := tableByte sboxRows v

/-- R125: `INV_SBOX[v]`. -/
def invSbox (v : Byte) : Byte := tableByte invSboxRows v

/-! ### The layers of a round -/

/-- R126. -/
def subBytes (s : Bytes) : Bytes := s.map sbox

/-- R126. -/
def invSubBytes (s : Bytes) : Bytes := s.map invSbox

/-- R127: byte `r + 4c` of the result is `s[r][(c + r) mod 4]`. -/
def shiftRows (s : Bytes) : Bytes :=
  (List.range 16).map fun i => s.getD (i % 4 + 4 * ((i / 4 + i % 4) % 4)) 0

/-- R127: byte `r + 4c` of the result is `s[r][(c - r) mod 4]`. -/
def invShiftRows (s : Bytes) : Bytes :=
  (List.range 16).map fun i => s.getD (i % 4 + 4 * ((i / 4 + 4 - i % 4) % 4)) 0

/-- R128: one column. -/
def mixColumn (a0 a1 a2 a3 : Byte) : Bytes :=
  [ xtime a0 ^^^ times3 a1 ^^^ a2 ^^^ a3,
    a0 ^^^ xtime a1 ^^^ times3 a2 ^^^ a3,
    a0 ^^^ a1 ^^^ xtime a2 ^^^ times3 a3,
    times3 a0 ^^^ a1 ^^^ a2 ^^^ xtime a3 ]

/-- R129: one column. -/
def invMixColumn (a0 a1 a2 a3 : Byte) : Bytes :=
  [ times14 a0 ^^^ times11 a1 ^^^ times13 a2 ^^^ times9 a3,
    times9 a0 ^^^ times14 a1 ^^^ times11 a2 ^^^ times13 a3,
    times13 a0 ^^^ times9 a1 ^^^ times14 a2 ^^^ times11 a3,
    times11 a0 ^^^ times13 a1 ^^^ times9 a2 ^^^ times14 a3 ]

/-- A column map over the whole state, column by column (R122). -/
def mapColumns (f : Byte → Byte → Byte → Byte → Bytes) : Bytes → Bytes
  | a0 :: a1 :: a2 :: a3 :: rest => f a0 a1 a2 a3 ++ mapColumns f rest
  | _ => []

/-- R128. -/
def mixColumns (s : Bytes) : Bytes := mapColumns mixColumn s

/-- R129. -/
def invMixColumns (s : Bytes) : Bytes := mapColumns invMixColumn s

/-- Byte by byte `xor` of two strings of one length. -/
def xorBytes (x y : Bytes) : Bytes := List.zipWith (· ^^^ ·) x y

/-! ### The key schedule -/

/-- The word of four bytes 0. -/
def RoundWord.zero : RoundWord := ⟨0, 0, 0, 0⟩

/-- The bytes of a word, byte 0 first. -/
def RoundWord.bytes (w : RoundWord) : Bytes := [w.b0, w.b1, w.b2, w.b3]

/-- R131: `xor` byte by byte. -/
def RoundWord.xor (v w : RoundWord) : RoundWord := ⟨v.b0 ^^^ w.b0, v.b1 ^^^ w.b1, v.b2 ^^^ w.b2, v.b3 ^^^ w.b3⟩

/-- R130: `RotWord`. -/
def rotWord (w : RoundWord) : RoundWord := ⟨w.b1, w.b2, w.b3, w.b0⟩

/-- R130: `SubWord`. -/
def subWord (w : RoundWord) : RoundWord := ⟨sbox w.b0, sbox w.b1, sbox w.b2, sbox w.b3⟩

/-- R130: `Rcon[k]`, with `rc[1] = 01` and `rc[k] = xtime(rc[k-1])`. -/
def rcon (k : Nat) : RoundWord := ⟨Nat.repeat xtime (k - 1) 0x01#8, 0, 0, 0⟩

/-- R130: the words of the key, `W[i][j] = key[4i + j]`. -/
def keyWords (key : Bytes) : List RoundWord :=
  (List.range 8).map fun i =>
    ⟨key.getD (4 * i) 0, key.getD (4 * i + 1) 0, key.getD (4 * i + 2) 0, key.getD (4 * i + 3) 0⟩

/-- R131: `W[i]` from the words before it. -/
def nextRoundWord (ws : List RoundWord) (i : Nat) : RoundWord :=
  let t := ws.getD (i - 1) RoundWord.zero
  let u :=
    if i % 8 = 0 then (subWord (rotWord t)).xor (rcon (i / 8))
    else if i % 8 = 4 then subWord t
    else t
  (ws.getD (i - 8) RoundWord.zero).xor u

/-- R131: `n` further words after those there are. -/
def extendWords : Nat → List RoundWord → List RoundWord
  | 0, ws => ws
  | n + 1, ws => extendWords n (ws ++ [nextRoundWord ws ws.length])

/-- R130, R131: `KeyExpansion`, the 60 words `W[0]` to `W[59]`. -/
def keyExpansion (key : Bytes) : List RoundWord := extendWords 52 (keyWords key)

/-- R132: the sixteen bytes of round `k`: words `W[4k]` to `W[4k + 3]`. -/
def roundKey (w : List RoundWord) (k : Nat) : Bytes := ((w.drop (4 * k)).take 4).flatMap RoundWord.bytes

/-- R132. -/
def addRoundKey (w : List RoundWord) (s : Bytes) (k : Nat) : Bytes := xorBytes s (roundKey w k)

/-! ### The block function -/

/-- R133: one middle round. -/
def encRound (w : List RoundWord) (s : Bytes) (k : Nat) : Bytes :=
  addRoundKey w (mixColumns (shiftRows (subBytes s))) k

/-- R133: the rounds 1 to `n` in order. -/
def encRounds (w : List RoundWord) (s : Bytes) : Nat → Bytes
  | 0 => s
  | n + 1 => encRound w (encRounds w s n) (n + 1)

/-- R133: `AES_ENC(W, x)`. -/
def aesEnc (w : List RoundWord) (x : Bytes) : Bytes :=
  addRoundKey w (shiftRows (subBytes (encRounds w (addRoundKey w x 0) 13))) 14

/-- R134: one middle round. -/
def decRound (w : List RoundWord) (s : Bytes) (k : Nat) : Bytes :=
  invMixColumns (addRoundKey w (invSubBytes (invShiftRows s)) k)

/-- R134: the rounds `n` down to 1. -/
def decRounds (w : List RoundWord) : Nat → Bytes → Bytes
  | 0, s => s
  | n + 1, s => decRounds w n (decRound w s (n + 1))

/-- R134: `AES_DEC(W, y)`. -/
def aesDec (w : List RoundWord) (y : Bytes) : Bytes :=
  addRoundKey w (invSubBytes (invShiftRows (decRounds w 13 (addRoundKey w y 14)))) 0

/-! ### Padding and chaining -/

/-- R140: `PAD(m)`. -/
def pad (m : Bytes) : Bytes :=
  m ++ List.replicate (16 - m.length % 16) (BitVec.ofNat 8 (16 - m.length % 16))

/-- R141: `UNPAD(p)`. -/
def unpad (p : Bytes) : Except Failure Bytes :=
  let n := (p.getLastD 0).toNat
  if n = 0 ∨ 16 < n ∨ p.drop (p.length - n) ≠ List.replicate n (BitVec.ofNat 8 n) then
    .error ⟨.badCipherText, .ctPadding⟩
  else .ok (p.take (p.length - n))

/-- R142: the first `k` blocks of `size` bytes. -/
def blocksOf (size : Nat) : Nat → Bytes → List Bytes
  | 0, _ => []
  | k + 1, p => p.take size :: blocksOf size k (p.drop size)

/-- R142: `c_i = AES_ENC(W, p_i xor c_(i-1))`, from the chaining value `cv = c_0`. -/
def cbcEncBlocks (w : List RoundWord) : Bytes → List Bytes → List Bytes
  | _, [] => []
  | cv, p :: ps =>
    let c := aesEnc w (xorBytes p cv)
    c :: cbcEncBlocks w c ps

/-- R147: `p_i = AES_DEC(W, c_i) xor c_(i-1)`, from the chaining value `cv = c_0`. -/
def cbcDecBlocks (w : List RoundWord) : Bytes → List Bytes → List Bytes
  | _, [] => []
  | cv, c :: cs => xorBytes (aesDec w c) cv :: cbcDecBlocks w c cs

/-- R142, R144: the ciphertext blocks of a padded message under the pinned mode. -/
def encryptBlocks (c : Config) (w : List RoundWord) (ps : List Bytes) : List Bytes :=
  match c.mode with
  | .cbc => cbcEncBlocks w c.iv.toList ps
  | .ecb => ps.map (aesEnc w)

/-- R147, R144: the padded message's blocks under the pinned mode. -/
def decryptBlocks (c : Config) (w : List RoundWord) (cs : List Bytes) : List Bytes :=
  match c.mode with
  | .cbc => cbcDecBlocks w c.iv.toList cs
  | .ecb => cs.map (aesDec w)

/-- R145: `ENCRYPT(key, m)`, the ciphertext of a message. -/
def encryptBytes (c : Config) (key m : Bytes) : Bytes :=
  (encryptBlocks c (keyExpansion key) (blocksOf 16 ((pad m).length / 16) (pad m))).flatten

/-- R149: the padded message a ciphertext of whole blocks stands for. -/
def decryptPadded (c : Config) (key x : Bytes) : Bytes :=
  (decryptBlocks c (keyExpansion key) (blocksOf 16 (x.length / 16) x)).flatten

/-- R149, R150: the length check of a ciphertext: not empty, and whole blocks. -/
def ctLengthOk (x : Bytes) : Bool := decide (x.length ≠ 0 ∧ x.length % 16 = 0)

/-- R149: `DECRYPT(key, x)`: the length check, then the padding check. -/
def decryptBytes (c : Config) (key x : Bytes) : Except Failure Bytes :=
  if ctLengthOk x then unpad (decryptPadded c key x) else .error ⟨.badCipherText, .ctLength⟩

/-! ### The working registers -/

/-- The vector of a list: its first `n` entries, filled up with `d`. -/
def vectorOf {α : Type} (n : Nat) (d : α) (l : List α) : Vector α n :=
  ⟨((l ++ List.replicate n d).take n).toArray, by simp⟩

/-- R35 (assumption 6): what a cipher operation leaves in `W`, `S` and `CV`: the key schedule, the last value the
block function gave, and, in CBC, the last chaining value, which is the last ciphertext block. -/
def cipherRegsAfter (c : Config) (key lastState lastCipher : Bytes) (old : CipherRegs) : CipherRegs where
  w := vectorOf 60 RoundWord.zero (keyExpansion key)
  s := vectorOf 16 0 lastState
  cv := match c.mode with
    | .cbc => vectorOf 16 0 lastCipher
    | .ecb => old.cv

/-! ### ENCRYPT and DECRYPT -/

/-- R145: the well-formed step with a 32-byte key. -/
def encryptStep (dst src : Buf) (s : State) : State :=
  let x := encryptBytes s.cfg s.bufs.key (readBuf s.bufs src)
  let last := x.drop (x.length - 16)
  store dst x { s with cipher := cipherRegsAfter s.cfg s.bufs.key last last s.cipher }

/-- R145: `ENCRYPT dst, src`. -/
def execEncrypt (dst src : Buf) (s : State) : Host.Outcome State Fault Refusal :=
  .next (whenLegal (.encrypt dst src) s
    (whenHolds (decide (s.bufs.key.length = keyLen)) s (encryptStep dst src s)))

/-- R149: the step on a ciphertext that passes the length check, with a 32-byte key. -/
def decryptStep (dst src : Buf) (s : State) : State :=
  let x := readBuf s.bufs src
  let last := x.drop (x.length - 16)
  storeResult dst (decryptBytes s.cfg s.bufs.key x)
    { s with cipher := cipherRegsAfter s.cfg s.bufs.key (aesDec (keyExpansion s.bufs.key) last) last s.cipher }

/-- R149, R150: `DECRYPT dst, src`; the length check comes first and reads no key. -/
def execDecrypt (dst src : Buf) (s : State) : Host.Outcome State Fault Refusal :=
  .next (whenLegal (.decrypt dst src) s
    (if ctLengthOk (readBuf s.bufs src) then
      whenHolds (decide (s.bufs.key.length = keyLen)) s (decryptStep dst src s)
    else abort ⟨.badCipherText, .ctLength⟩ s))

end Sys2Proof.Machine
end

