-- ==== Sys2Proof/Machine/Digest.lean ====
section
/-! DEFINITION. The digest core, 40_digest.md: SHA-1 (rules R92 to R98) and the unit operations DIGEST (R100) and
TAGCMP (R103). -/

namespace Sys2Proof.Machine

/-! ### Byte order (R14, R53) -/

/-- R14: `be32`, the big-endian word of four bytes. -/
def be32 (s : Bytes) : Word32 := s.getD 0 0 ++ s.getD 1 0 ++ s.getD 2 0 ++ s.getD 3 0

/-- R14: `be32bytes`. -/
def be32bytes (v : Word32) : Bytes :=
  [v.extractLsb' 24 8, v.extractLsb' 16 8, v.extractLsb' 8 8, v.extractLsb' 0 8]

/-- R14: `be64bytes`. -/
def be64bytes (v : BitVec 64) : Bytes := be32bytes (v.extractLsb' 32 32) ++ be32bytes (v.extractLsb' 0 32)

/-! ### SHA-1 -/

/-- R92, R99: the length of a message in bits, in 64 bits. -/
def bitLength (m : Bytes) : BitVec 64 := BitVec.ofNat 64 (8 * m.length)

/-- R92: the least `z` with `(n + 1 + z) mod 64 = 56`. -/
def zeroCount (n : Nat) : Nat := (119 - n % 64) % 64

/-- R92: `pad(m)`. -/
def shaPad (m : Bytes) : Bytes :=
  m ++ [0x80#8] ++ List.replicate (zeroCount m.length) 0x00#8 ++ be64bytes (bitLength m)

/-- R93. -/
def shaInit : Chain := ⟨0x67452301#32, 0xEFCDAB89#32, 0x98BADCFE#32, 0x10325476#32, 0xC3D2E1F0#32⟩

/-- R94: `Wt[t]` for `t` in 16 to 79, from the words before it. -/
def nextScheduleWord (ws : List Word32) : Word32 :=
  let t := ws.length
  (ws.getD (t - 3) 0 ^^^ ws.getD (t - 8) 0 ^^^ ws.getD (t - 14) 0 ^^^ ws.getD (t - 16) 0).rotateLeft 1

/-- R94: `n` further words after those there are. -/
def extendSchedule : Nat → List Word32 → List Word32
  | 0, ws => ws
  | n + 1, ws => extendSchedule n (ws ++ [nextScheduleWord ws])

/-- R94: the schedule `Wt[0..79]` of one 64-byte block. -/
def schedule (block : Bytes) : List Word32 := extendSchedule 64 ((blocksOf 4 16 block).map be32)

/-- R95: `f(t, b, c, d)`. -/
def shaF (t : Nat) (b c d : Word32) : Word32 :=
  if t < 20 then (b &&& c) ||| (~~~b &&& d)
  else if t < 40 then b ^^^ c ^^^ d
  else if t < 60 then (b &&& c) ||| (b &&& d) ||| (c &&& d)
  else b ^^^ c ^^^ d

/-- R95: `K(t)`. -/
def shaK (t : Nat) : Word32 :=
  if t < 20 then 0x5A827999#32
  else if t < 40 then 0x6ED9EBA1#32
  else if t < 60 then 0x8F1BBCDC#32
  else 0xCA62C1D6#32

/-- R96: one round, with `Wt[t] = wt`. -/
def shaRound (v : Working) (t : Nat) (wt : Word32) : Working where
  a := v.a.rotateLeft 5 + shaF t v.b v.c v.d + v.e + shaK t + wt
  b := v.a
  c := v.b.rotateLeft 30
  d := v.c
  e := v.d

/-- R96: the rounds `t`, `t + 1`, … over the words of a schedule that are left. -/
def shaRounds : Nat → List Word32 → Working → Working
  | _, [], v => v
  | t, w :: ws, v => shaRounds (t + 1) ws (shaRound v t w)

/-- R96: the working words after round 79 of one block. -/
def workingAfter (h : Chain) (block : Bytes) : Working :=
  shaRounds 0 (schedule block) ⟨h.h0, h.h1, h.h2, h.h3, h.h4⟩

/-- R96: the chaining words plus the working words. -/
def chainAdd (h : Chain) (v : Working) : Chain :=
  ⟨h.h0 + v.a, h.h1 + v.b, h.h2 + v.c, h.h3 + v.d, h.h4 + v.e⟩

/-- R96: the compression of one block. -/
def compress (h : Chain) (block : Bytes) : Chain := chainAdd h (workingAfter h block)

/-- R92: the 64-byte blocks of a padded message. -/
def shaBlocks (m : Bytes) : List Bytes := blocksOf 64 ((shaPad m).length / 64) (shaPad m)

/-- R97: `H` after every block. -/
def shaChain (m : Bytes) : Chain := (shaBlocks m).foldl compress shaInit

/-- R98: the output, 20 bytes. -/
def chainBytes (h : Chain) : Bytes :=
  be32bytes h.h0 ++ be32bytes h.h1 ++ be32bytes h.h2 ++ be32bytes h.h3 ++ be32bytes h.h4

/-- R97, R98: `SHA1(m)`. -/
def sha1 (m : Bytes) : Bytes := chainBytes (shaChain m)

/-- R36 (assumption 6): what a digest leaves in the working registers: `H` after the last block, `a` to `e` after
round 79 of the last block, the last block's schedule, and the length in bits. -/
def digestRegsAfter (m : Bytes) : DigestRegs where
  h := shaChain m
  v := workingAfter ((shaBlocks m).dropLast.foldl compress shaInit) ((shaBlocks m).getLastD [])
  wt := vectorOf 80 0 (schedule ((shaBlocks m).getLastD []))
  bitLen := bitLength m

/-! ### DIGEST and TAGCMP -/

/-- R100: `DIGEST dst, src`. -/
def execDigest (dst src : Buf) (s : State) : Host.Outcome State Fault Refusal :=
  .next (whenLegal (.digest dst src) s
    (store dst (sha1 (readBuf s.bufs src)) { s with digest := digestRegsAfter (readBuf s.bufs src) }))

/-- R103: the comparison of two 20-byte tags: `DIFF`, then the failure if it is not 0. -/
def tagcmpStep (s : State) : State :=
  let d := diffOf s.bufs.xtag s.bufs.tag
  if d = 0 then advance { s with diff := d } else abort ⟨.tampered, .tagMismatch⟩ { s with diff := d }

/-- R103: `TAGCMP`. -/
def execTagcmp (s : State) : Host.Outcome State Fault Refusal :=
  .next (whenHolds (decide (s.bufs.xtag.length = tagLen ∧ s.bufs.tag.length = tagLen)) s (tagcmpStep s))

end Sys2Proof.Machine
end

