-- ==== Sys2Proof/Machine/Framer.lean ====
section
/-! DEFINITION. The packet framer, 45_framer.md: JOIN (R190) and SPLIT (R192). -/

namespace Sys2Proof.Machine

/-- R190: the blob of three fields. -/
def joinFields (tagHex ctHex keyHex : Bytes) : Bytes := tagHex ++ ctHex ++ keyHex

/-- R186, R192: `blob[0 : 40]`. -/
def tagField (x : Bytes) : Bytes := x.take tagHexLen

/-- R186, R192: `blob[40 : L - 64]`. -/
def ctField (x : Bytes) : Bytes := (x.take (x.length - keyHexLen)).drop tagHexLen

/-- R186, R192: `blob[L - 64 : L]`. -/
def keyField (x : Bytes) : Bytes := x.drop (x.length - keyHexLen)

/-- R190: `JOIN`. -/
def execJoin (s : State) : Host.Outcome State Fault Refusal :=
  .next (whenHolds (decide (s.bufs.tagHex.length = tagHexLen ∧ s.bufs.keyHex.length = keyHexLen)) s
    (store .blob (joinFields s.bufs.tagHex s.bufs.ctHex s.bufs.keyHex) s))

/-- R192: the three destinations of a blob of at least 104 characters. The tag and key fields fill their buffers
exactly; the ciphertext field is the one that could exceed a capacity (R238). -/
def splitStep (s : State) : State :=
  store .ctHex (ctField s.bufs.blob)
    { s with bufs := { s.bufs with tagHex := tagField s.bufs.blob, keyHex := keyField s.bufs.blob } }

/-- R192: `SPLIT`. -/
def execSplit (s : State) : Host.Outcome State Fault Refusal :=
  .next (if s.bufs.blob.length < minBlob then abort ⟨.malformed, .blobShort⟩ s else splitStep s)

end Sys2Proof.Machine
end

