-- ==== Sys2Proof/Machine/Hex.lean ====
section
/-! DEFINITION. The hex encoder and decoder, 43_hex.md: HEXENC (R162) and HEXDEC (R165). -/

namespace Sys2Proof.Machine

/-- R161: `HEXDIGIT(d)`, with the letter case of `CFG_HEX_UPPER`. -/
def hexDigit (upper : Bool) (d : BitVec 4) : Byte :=
  if d.toNat < 10 then BitVec.ofNat 8 (0x30 + d.toNat)
  else if upper then BitVec.ofNat 8 (0x41 + d.toNat - 10)
  else BitVec.ofNat 8 (0x61 + d.toNat - 10)

/-- R161: the two characters of a byte, high nibble first. -/
def hexPair (upper : Bool) (v : Byte) : Bytes :=
  [hexDigit upper (v.extractLsb' 4 4), hexDigit upper (v.extractLsb' 0 4)]

/-- R162: `HEXENC(b)`. -/
def hexEnc (upper : Bool) (b : Bytes) : Bytes := b.flatMap (hexPair upper)

/-- R164: `HEXVAL(c)`: the value of one of the sixteen characters the encoder emits. -/
def hexVal (upper : Bool) (c : Byte) : Option (BitVec 4) :=
  let n := c.toNat
  let letterA := if upper then 0x41 else 0x61
  if 0x30 ≤ n ∧ n ≤ 0x39 then some (BitVec.ofNat 4 (n - 0x30))
  else if letterA ≤ n ∧ n ≤ letterA + 5 then some (BitVec.ofNat 4 (n - letterA + 10))
  else none

/-- R165: the values of all characters; `none` if one has no value. -/
def hexVals (upper : Bool) : Bytes → Option (List (BitVec 4))
  | [] => some []
  | c :: t =>
    match hexVal upper c, hexVals upper t with
    | some v, some vs => some (v :: vs)
    | _, _ => none

/-- R165: the bytes of the values, two to a byte, the first the high nibble. -/
def nibblePairs : List (BitVec 4) → Bytes
  | h :: l :: rest => (h ++ l) :: nibblePairs rest
  | _ => []

/-- R165: `HEXDEC(t)`: the length check, then the characters. -/
def hexDec (upper : Bool) (t : Bytes) : Except Failure Bytes :=
  if t.length % 2 = 1 then .error ⟨.malformed, .hexLength⟩
  else match hexVals upper t with
    | some vs => .ok (nibblePairs vs)
    | none => .error ⟨.malformed, .hexChar⟩

/-- R162: `HEXENC dst, src`. -/
def execHexenc (dst src : Buf) (s : State) : Host.Outcome State Fault Refusal :=
  .next (whenLegal (.hexenc dst src) s (store dst (hexEnc s.cfg.hexUpper (readBuf s.bufs src)) s))

/-- R165: `HEXDEC dst, src`. -/
def execHexdec (dst src : Buf) (s : State) : Host.Outcome State Fault Refusal :=
  .next (whenLegal (.hexdec dst src) s (storeResult dst (hexDec s.cfg.hexUpper (readBuf s.bufs src)) s))

end Sys2Proof.Machine
end

