-- ==== Sys2Proof/Machine/KeyGen.lean ====
section
/-! DEFINITION. The key generator, 41_keygen.md: NEWSEED (R110, R111) and DERIVEKEY (R112). -/

namespace Sys2Proof.Machine

/-- R111: the random source has 32 bytes to give. -/
def drawReady (s : State) : Bool := decide (seedLen ≤ s.rng.length)

/-- R110: `NEWSEED`. The draw is the next 32 bytes of the port, any bytes; until the source has them the sequencer
waits at this step, and nothing changes (R111, R272). -/
def execNewseed (s : State) : Host.Outcome State Fault Refusal :=
  .next (if drawReady s then store .seed (s.rng.take seedLen) { s with rng := s.rng.drop seedLen } else s)

/-- R112: `DERIVEKEY`, the identity on the first 32 bytes. -/
def execDerivekey (s : State) : Host.Outcome State Fault Refusal :=
  .next (whenHolds (decide (keyLen ≤ s.bufs.seed.length)) s (store .key (s.bufs.seed.take keyLen) s))

end Sys2Proof.Machine
end

