-- ==== Sys2Proof/Machine/Orchestrator.lean ====
section
/-! DEFINITION. The orchestrator, 46_orchestrator.md: the steps MOVE (R210) and DONE (R211), and the commands ENCODE
(R206) and DECODE (R207). -/

namespace Sys2Proof.Machine

/-- R210: `MOVE dst, src`. -/
def execMove (dst src : Buf) (s : State) : Host.Outcome State Fault Refusal :=
  .next (whenLegal (.move dst src) s (store dst (readBuf s.bufs src) s))

/-- R211: `DONE`, `complete(OK, NONE)`. -/
def execDone (s : State) : Host.Outcome State Fault Refusal := .next (complete .ok .none s)

/-- R206, R201: `ENCODE`, the value 1 written to `CMD`. -/
def execEncode (s : State) : Host.Outcome State Fault Refusal := .next (acceptCommand 0x00000001#32 s)

/-- R207, R201: `DECODE`, the value 2 written to `CMD`. -/
def execDecode (s : State) : Host.Outcome State Fault Refusal := .next (acceptCommand 0x00000002#32 s)

end Sys2Proof.Machine
end

