-- ==== Sys2Proof/Machine/Dispatch.lean ====
section
/-! DEFINITION. One arm per instruction. -/

namespace Sys2Proof.Machine

/-- The meaning of each instruction. -/
def exec (i : Instr) (s : State) : Host.Outcome State Fault Refusal :=
  match i with
  | .done => Sys2Proof.Machine.execDone s
  | .move dst src => Sys2Proof.Machine.execMove dst src s
  | .newseed => Sys2Proof.Machine.execNewseed s
  | .derivekey => Sys2Proof.Machine.execDerivekey s
  | .encrypt dst src => Sys2Proof.Machine.execEncrypt dst src s
  | .decrypt dst src => Sys2Proof.Machine.execDecrypt dst src s
  | .digest dst src => Sys2Proof.Machine.execDigest dst src s
  | .tagcmp => Sys2Proof.Machine.execTagcmp s
  | .hexenc dst src => Sys2Proof.Machine.execHexenc dst src s
  | .hexdec dst src => Sys2Proof.Machine.execHexdec dst src s
  | .b64enc dst src => Sys2Proof.Machine.execB64enc dst src s
  | .b64dec dst src => Sys2Proof.Machine.execB64dec dst src s
  | .join => Sys2Proof.Machine.execJoin s
  | .split => Sys2Proof.Machine.execSplit s
  | .encode => Sys2Proof.Machine.execEncode s
  | .decode => Sys2Proof.Machine.execDecode s

end Sys2Proof.Machine
end

