-- ==== Sys2Proof/Machine/HostWindow.lean ====
section
/-! DEFINITION. The host window, 20_memory.md rules R50 to R62 with the register table of R31: where an offset lies,
which accesses are admitted, what a read returns and what a write does. A write to `CMD` is a command and goes through
`exec` or, for a reserved code, `acceptCommand`. -/

namespace Sys2Proof.Machine

/-- R50: the spaces the host reaches. -/
inductive Space where
  | reg
  | inw
  | outw
deriving DecidableEq, Repr

/-- R56: the space of an offset and the offset or index within it; `none` outside the window. -/
def locate (c : Config) (offset : Nat) : Option (Space × Nat) :=
  if offset < 0x10000 then some (.reg, offset)
  else if c.inBase ≤ offset ∧ offset < c.inBase + 0x10000 then some (.inw, offset - c.inBase)
  else if c.outBase ≤ offset ∧ offset < c.outBase + 0x10000 then some (.outw, offset - c.outBase)
  else none

/-- R55: `REG` takes aligned accesses of 4 bytes, `INW` and `OUTW` accesses of 1 byte. -/
def admitted : Space → Nat → Nat → Bool
  | .reg, k, width => decide (width = 4 ∧ k % 4 = 0)
  | .inw, _, width => decide (width = 1)
  | .outw, _, width => decide (width = 1)

/-- R31, R56, R60: the value of a register the host reads at an aligned offset of `REG` (assumption 18, DEDUCED: `ILEN`
and `CTRL` read as they are while a command runs). -/
def readReg (s : State) (k : Nat) : Word32 :=
  match k with
  | 0x00 => 0
  | 0x04 => statusWord s
  | 0x08 => if s.busy then 0 else resultWord s
  | 0x0C => ctrlWord s
  | 0x10 => s.ilen
  | 0x14 => if s.busy then 0 else olen s
  | 0x18 => BitVec.ofNat 32 s.cfg.maxPt
  | 0x1C => BitVec.ofNat 32 (maxPkt s.cfg)
  | _ => 0

/-- R58: the byte the host reads at an index of the output window. -/
def readOutw (s : State) (k : Nat) : Byte := if s.busy then 0 else s.bufs.out.getD k 0

/-- R55 to R60: what an admitted read returns; `none` for an access that is not admitted. -/
def hostRead (s : State) (space : Space) (k width : Nat) : Option Word32 :=
  if admitted space k width then
    match space with
    | .reg => some (readReg s k)
    | .inw => some 0
    | .outw => some ((readOutw s k).zeroExtend 32)
  else none

/-- R61: release, a write of 1 to `STATUS.DONE`. -/
def release (s : State) : State :=
  if s.done then { s with done := false, bufs := { s.bufs with out := [] } } else s

/-- R31, R61: a write to `STATUS`: bit 1 releases, bit 3 clears `OVR`, every other bit is ignored. -/
def writeStatus (v : Word32) (s : State) : State :=
  let s1 := if v.getLsbD 1 then release s else s
  if v.getLsbD 3 then { s1 with ovr := false } else s1

/-- R59: what a busy or dead engine makes of a write to `ILEN` or `INW`: ignored, and `OVR` set only while busy. -/
def guardedWrite (s : State) (next : State) : State :=
  if s.fatal then s else if s.busy then { s with ovr := true } else next

/-- R31, R33, R56, R59: a write to a register other than `CMD`. -/
def writeReg (k : Nat) (v : Word32) (s : State) : State :=
  match k with
  | 0x04 => writeStatus v s
  | 0x0C => { s with ie := v.getLsbD 0 }
  | 0x10 => guardedWrite s { s with ilen := v }
  | _ => s

/-- R56, R57, R59: a write of one byte to the input window (assumption 11, DEDUCED: a busy engine sets `OVR` at every
index). -/
def writeInw (k : Nat) (v : Byte) (s : State) : State :=
  guardedWrite s (if k < maxPkt s.cfg then { s with inw := Memory.write s.inw k v } else s)

/-- R55 to R59: what a write other than one to `CMD` does; one that is not admitted changes nothing. -/
def hostWrite (space : Space) (k width : Nat) (v : Word32) (s : State) : State :=
  if admitted space k width then
    match space with
    | .reg => writeReg k v s
    | .inw => writeInw k (v.extractLsb' 0 8) s
    | .outw => s
  else s

/-- R201: the value an access writes to `CMD`, if it is such a write. -/
def commandWrite (c : Config) (a : HostAccess) : Option Word32 :=
  match a with
  | .write offset width v => if locate c offset = some (.reg, 0) ∧ width = 4 then some v else none
  | .read _ _ => none

/-- R55 to R62: one access other than a write to `CMD`. The bus reply of a read is recorded; an offset outside the
window is no address of the block (assumptions 8, 9). -/
def hostAccess (a : HostAccess) (s : State) : Host.Outcome State Fault Refusal :=
  match a with
  | .read offset width =>
    match locate s.cfg offset with
    | some (space, k) => .next { s with reply := hostRead s space k width }
    | none => .fault (.outsideWindow offset)
  | .write offset width v =>
    match locate s.cfg offset with
    | some (space, k) => .next { hostWrite space k width v s with reply := none }
    | none => .fault (.outsideWindow offset)

/-- A write of a reserved code to `CMD` (R71, R237): no instruction, but an acceptance that completes at once. -/
def reservedCommand (v : Word32) (s : State) : Host.Outcome State Fault Refusal := .next (acceptCommand v s)

end Sys2Proof.Machine
end

