-- ==== Sys2Proof/Machine/Step.lean ====
section
/-! DEFINITION. One step of the machine: the agent whose turn it is acts once (00_scope.md rule R7, 20_memory.md rule
R62: an access is performed whole, between two engine steps). -/

namespace Sys2Proof.Machine

/-- R203: the sequencer's turn. A word that names no instruction is a sequencer fault; an engine that is not busy
waits for a command (R260, R256) and nothing changes. -/
def engineTurn (s : State) : Host.Outcome State Fault Refusal :=
  if s.busy then
    match decode (.step (fetch s)) with
    | .ok i => exec i s
    | .error _ => .next (seqFault .stepReserved s)
  else .next s

/-- R55 to R62, R201: the host's turn. A write to `CMD` is the instruction its code names. -/
def hostTurn (a : HostAccess) (s : State) : Host.Outcome State Fault Refusal :=
  match commandWrite s.cfg a with
  | some v =>
    match decode (.cmd v) with
    | .ok i => exec i { s with reply := none }
    | .error _ => reservedCommand v { s with reply := none }
  | none => hostAccess a s

/-- One step: the turn's agent acts on the state with its event taken off the list. -/
def step (s : State) : Host.Outcome State Fault Refusal :=
  match turn s with
  | .initialise => .next (initialise s)
  | .engine => engineTurn (takeEvent s)
  | .host a => hostTurn a (takeEvent s)
  | .reset => .next (resetEngine (takeEvent s))
  | .deliver bytes => .next { takeEvent s with rng := (takeEvent s).rng ++ bytes }
  | .signals r c d => .next { takeEvent s with rngOk := r, cipherOk := c, digestOk := d }

/-- R28: the command whose half of the ROM a step counter lies in (R76). -/
def commandOfHalf (upc : BitVec 5) : CmdReg := if upc.toNat < 16 then .encode else .decode

/-- The state whose very next step runs the instruction with the bits `w` (assumption 4). A 16-bit row is a step
word: it is put into the ROM at `UPC` and the sequencer is running, with a command latched as R28 says of a running
engine. A 32-bit row is a command code: the host's next access writes it to `CMD`. In both cases the initialisation
check is behind. -/
def State.withFetchWord (s : State) (nbits w : Nat) : State :=
  if nbits ≤ 16 then
    { s with
      rom := s.rom.set s.upc.toNat (BitVec.ofNat 16 w) s.upc.isLt
      cmdreg := if s.cmdreg = .none then commandOfHalf s.upc else s.cmdreg
      busy := true
      done := false
      fatal := false
      initPending := false
      env := .engine :: s.env }
  else
    { s with
      initPending := false
      env := .access (.write 0 4 (BitVec.ofNat 32 w)) :: s.env }

end Sys2Proof.Machine
end

