-- ==== Sys2Proof/Safety.lean ====
section
/-! DEFINITION. The terms in which claims about the engine are made: what the host can observe, the frame of a step,
the invariants of the engine (10_state.md rules R29, R40, R41; 60_exceptions.md rule R231; 46_orchestrator.md rules
R216, R217), the packet formats and the closed forms of the two commands (46_orchestrator.md rules R208, R209). -/

namespace Sys2Proof.Machine

/-! ### Whose step it is -/

/-- The sequencer takes the next step: initialisation is over and no other agent's event comes first. -/
def SequencerNext (s : State) : Prop := s.initPending = false ∧ (s.env = [] ∨ s.env.head? = some .engine)

/-- The host takes the next step, with access `a`; `rest` is what comes after it. -/
def HostNext (a : HostAccess) (rest : List Event) (s : State) : Prop :=
  s.initPending = false ∧ s.env = .access a :: rest

/-! ### Frames -/

/-- The byte the output window holds at an index (R22): what the host reads there once the engine is not busy. -/
def outwByte (s : State) (k : Nat) : Byte := s.bufs.out.getD k 0

/-- The two states agree on everything the spec gives the engine outside the buffer file, `UPC` and the working
registers of the cipher engine and the digest core. -/
def SameControl (s t : State) : Prop :=
  t.cfg = s.cfg ∧ t.rom = s.rom ∧ t.ilen = s.ilen ∧ t.cmdreg = s.cmdreg ∧ t.busy = s.busy ∧ t.done = s.done ∧
    t.fatal = s.fatal ∧ t.ovr = s.ovr ∧ t.resultCode = s.resultCode ∧ t.resultCause = s.resultCause ∧ t.ie = s.ie ∧
    t.diff = s.diff ∧ (∀ k, Memory.read t.inw k = Memory.read s.inw k) ∧ t.initPending = s.initPending ∧
    t.rngOk = s.rngOk ∧ t.cipherOk = s.cipherOk ∧ t.digestOk = s.digestOk ∧ t.env = s.env ∧ t.reply = s.reply ∧
    t.freeCount = s.freeCount

/-- The frame of a step that writes one buffer: `dst` holds `v`, `UPC` has moved on by one, every other buffer, every
byte of the output window (unless `dst` is `OUT`) and of the input window, every flag and every register stand as
before, but for the working registers. -/
def WritesOnly (dst : Buf) (v : Bytes) (s t : State) : Prop :=
  readBuf t.bufs dst = v ∧ (∀ b, b ≠ dst → readBuf t.bufs b = readBuf s.bufs b) ∧ t.upc = s.upc + 1 ∧
    SameControl s t ∧ (dst ≠ .out → ∀ k, outwByte t k = outwByte s k)

/-- The random source still has all it had. -/
def SameSource (s t : State) : Prop := t.rng = s.rng

/-- No working register has changed. -/
def SameWorking (s t : State) : Prop := t.cipher = s.cipher ∧ t.digest = s.digest

/-- A destination can take `v`, and the step is not the last address of the ROM: what a step that does not fail needs
in order not to be a sequencer fault (R238). -/
def Fits (dst : Buf) (v : Bytes) (s : State) : Prop := v.length ≤ capacity s.cfg dst ∧ s.upc ≠ 31#5

/-! ### The state a completion leaves -/

/-- R41: what every completion clears inside the engine. -/
def InternalClear (s : State) : Prop :=
  (∀ b, b ≠ .out → readBuf s.bufs b = []) ∧ s.diff = 0 ∧ s.cmdreg = .none ∧ s.upc = 0 ∧
    s.cipher = CipherRegs.zero ∧ s.digest = DigestRegs.zero

/-- R202, R213: the state right after `complete(code, cause)` from `s`, with `out` the bytes left in `OUT`. -/
def CompletedWith (code : ResultCode) (cause : Cause) (out : Bytes) (s t : State) : Prop :=
  t.resultCode = code ∧ t.resultCause = cause ∧ t.bufs.out = out ∧ t.busy = false ∧ t.done = true ∧
    InternalClear t ∧ t.ilen = 0 ∧ (∀ k, Memory.read t.inw k = 0) ∧
    t.cfg = s.cfg ∧ t.rom = s.rom ∧ t.fatal = s.fatal ∧ t.ovr = s.ovr ∧ t.ie = s.ie ∧
    t.initPending = s.initPending ∧ t.env = s.env ∧ t.reply = s.reply

/-- The instruction ends its command with a sequencer fault of this cause (R238). -/
def FaultsWith (cause : Cause) (i : Instr) (s : State) : Prop :=
  ∃ t, exec i s = .next t ∧ CompletedWith .seqFault cause [] s t

/-- The table of R39, with the host's view of it: the whole engine at its reset values. -/
def ResetValues (s : State) : Prop :=
  (∀ b, readBuf s.bufs b = []) ∧ (∀ k, Memory.read s.inw k = 0) ∧ (∀ k, outwByte s k = 0) ∧ s.ilen = 0 ∧
    olen s = 0 ∧ s.upc = 0 ∧ s.cmdreg = .none ∧ s.busy = false ∧ s.done = false ∧ s.fatal = false ∧
    s.ovr = false ∧ s.resultCode = .none ∧ s.resultCause = .none ∧ s.ie = false ∧ s.diff = 0 ∧
    s.cipher = CipherRegs.zero ∧ s.digest = DigestRegs.zero ∧ irq s = false ∧
    readReg s 0x18 = BitVec.ofNat 32 s.cfg.maxPt ∧ readReg s 0x1C = BitVec.ofNat 32 (maxPkt s.cfg)

/-! ### Invariants -/

/-- R231: the pairs of result and cause that can be written (vector V11). -/
def legalResult : ResultCode → Cause → Bool
  | .none, .none => true
  | .ok, .none => true
  | .malformed, .b64Length => true
  | .malformed, .b64Char => true
  | .malformed, .b64Trailing => true
  | .malformed, .blobShort => true
  | .malformed, .hexLength => true
  | .malformed, .hexChar => true
  | .malformed, .ctLength => true
  | .malformed, .ctPadding => true
  | .tampered, .tagMismatch => true
  | .badCipherText, .ctLength => true
  | .badCipherText, .ctPadding => true
  | .capacity, .inTooLong => true
  | .illegalCmd, .cmdReserved => true
  | .seqFault, .stepReserved => true
  | .seqFault, .stepPrecond => true
  | _, _ => false

/-- The input window lies within its `MAX_PKT` bytes and is in canonical form (R50, R56). -/
def WindowWf (s : State) : Prop := Memory.wf s.inw = true ∧ ∀ c ∈ s.inw, c.1 < maxPkt s.cfg

/-- The invariant of the engine, for every parameter set within its ranges and every ROM. -/
structure Inv (s : State) : Prop where
  /-- R10 to R12. -/
  cfg : s.cfg.Wf
  /-- R50, R56: the input window's memory. -/
  window : WindowWf s
  /-- R20: no buffer exceeds its capacity. -/
  capacities : ∀ b, (readBuf s.bufs b).length ≤ capacity s.cfg b
  /-- R29: `BUSY` and `DONE` are never both 1. -/
  busyDone : ¬ (s.busy = true ∧ s.done = true)
  /-- R40, R256: in the dead state nothing is busy, done or reported, and nothing was ever loaded. -/
  dead : s.fatal = true → s.busy = false ∧ s.done = false ∧ s.resultCode = .none ∧ s.ilen = 0 ∧ s.inw = [] ∧
    s.bufs.out = []
  /-- R262: before the check of initialisation no command has been accepted. -/
  pending : s.initPending = true → s.busy = false ∧ s.done = false ∧ s.fatal = false ∧ s.resultCode = .none ∧
    s.ilen = 0 ∧ s.inw = [] ∧ s.bufs.out = []
  /-- R41: an engine that is not busy holds nothing of a command but its result. -/
  idle : s.busy = false → InternalClear s
  /-- R28, R32: while a command runs it is latched, and `RESULT` is still cleared. -/
  running : s.busy = true → s.cmdreg ≠ .none ∧ s.resultCode = .none
  /-- R230, R231. -/
  result : legalResult s.resultCode s.resultCause = true
  /-- R22, R61: `OUT` holds bytes only while a command runs or after a success not yet released. -/
  output : s.busy = false → s.bufs.out ≠ [] → s.done = true ∧ s.resultCode = .ok

/-- R40: the run states. -/
inductive RunState where
  | idle
  | running
  | dead
deriving DecidableEq, Repr

/-- R40: the engine's run state. -/
def runState (s : State) : RunState := if s.fatal then .dead else if s.busy then .running else .idle

/-- R216, R217 for the `ENCODE` sequence: what the buffers hold when step `upc` is about to run. The ciphertext is that
of the input, so that the recovered plaintext is the input (R151). -/
def EncodeShape (s : State) : Prop :=
  let b := s.bufs
  let n := b.inp.length
  let u := s.upc.toNat
  u ≤ 0x0A ∧ n ≤ s.cfg.maxPt ∧
    (0x01 ≤ u → b.seed.length = 32) ∧
    (0x02 ≤ u → b.key.length = 32) ∧
    (0x03 ≤ u → b.ct = encryptBytes s.cfg b.key b.inp ∧ b.ct.length = 16 * (n / 16 + 1)) ∧
    (0x04 ≤ u → b.pt = b.inp) ∧
    (0x05 ≤ u → b.tag.length = 20) ∧
    (0x06 ≤ u → b.tagHex.length = 40) ∧
    (0x07 ≤ u → b.ctHex.length = 2 * b.ct.length) ∧
    (0x08 ≤ u → b.keyHex.length = 64) ∧
    (0x09 ≤ u → b.blob.length = 104 + 2 * b.ct.length) ∧
    (0x0A ≤ u → b.out.length = 4 * ((b.blob.length + 2) / 3) ∧ b.out.length ≤ maxPkt s.cfg)

/-- R216, R217 for the `DECODE` sequence. -/
def DecodeShape (s : State) : Prop :=
  let b := s.bufs
  let n := b.inp.length
  let u := s.upc.toNat
  0x10 ≤ u ∧ u ≤ 0x1A ∧ n ≤ maxPkt s.cfg ∧
    (0x11 ≤ u → b.blob.length ≤ 3 * (n / 4)) ∧
    (0x12 ≤ u → 104 ≤ b.blob.length ∧ b.tagHex.length = 40 ∧ b.keyHex.length = 64 ∧
      b.ctHex.length = b.blob.length - 104) ∧
    (0x13 ≤ u → b.tag.length = 20) ∧
    (0x14 ≤ u → b.seed.length = 32) ∧
    (0x15 ≤ u → b.ct.length = b.ctHex.length / 2) ∧
    (0x16 ≤ u → b.key.length = 32) ∧
    (0x17 ≤ u → b.pt.length + 1 ≤ b.ct.length) ∧
    (0x18 ≤ u → b.xtag.length = 20) ∧
    (0x1A ≤ u → b.out.length = b.pt.length ∧ b.out.length ≤ maxPkt s.cfg)

/-- R216, R217: the sequencer runs one of the two sequences of R76 on the input it sampled, every buffer written so far
has the length R216 and R217 give (so that every length precondition holds), and no command has ended with a sequencer
fault or a cipher failure of `ENCODE`. -/
structure SequenceInv (s : State) : Prop where
  cfg : s.cfg.Wf
  rom : s.rom = sequenceRom
  /-- R21, R59: the input a command works on is still what the window holds, `ILEN` bytes. -/
  sampled : s.busy = true → s.bufs.inp = windowPrefix s.inw s.ilen.toNat
  shape : s.busy = true → (s.cmdreg = .encode ∧ EncodeShape s) ∨ (s.cmdreg = .decode ∧ DecodeShape s)
  /-- R216, R217: the sequencer fault is unreachable. -/
  noFault : s.resultCode ≠ .seqFault
  /-- R151, R206: so is the cipher failure of `ENCODE`. -/
  noCipherFailure : s.resultCode ≠ .badCipherText

/-! ### Observation -/

/-- The two states are of one instance and agree on what R37 leaves to the host: the flags, `RESULT`, `CTRL`, `ILEN`
and, while no command runs, `OUT` (R60). They may differ in everything else. -/
def SameToHost (s t : State) : Prop :=
  t.cfg = s.cfg ∧ t.busy = s.busy ∧ t.done = s.done ∧ t.fatal = s.fatal ∧ t.ovr = s.ovr ∧
    t.resultCode = s.resultCode ∧ t.resultCause = s.resultCause ∧ t.ie = s.ie ∧ t.ilen = s.ilen ∧
    (s.busy = false → t.bufs.out = s.bufs.out)

/-- The engine is idle, initialised, and nothing but its own turns is to come: the state a command is written in. -/
structure Quiet (s : State) : Prop where
  pending : s.initPending = false
  fatal : s.fatal = false
  busy : s.busy = false
  env : s.env = []

/-- The state with the host's next access a write of `code` to `CMD`. -/
def writingCommand (code : Word32) (s : State) : State := { s with env := [.access (.write 0 4 code)] }

/-- `s` after the write of `code` to `CMD` and eleven turns of the engine, the length of either sequence (R204). -/
def runCommand (code : Word32) (s : State) : Host.Outcome State Fault Refusal :=
  Host.Core.run Sys2Proof.core 12 (writingCommand code s)

/-! ### Texts -/

/-- R14: the bytes of a text, one byte per character, its ASCII code. -/
def asciiBytes (t : String) : Bytes := t.toList.map fun ch => BitVec.ofNat 8 ch.toNat

/-- R171: the 64 characters of the base64 alphabet, in the order of their values. -/
def b64Alphabet : Bytes := asciiBytes "ABCDEFGHIJKLMNOPQRSTUVWXYZabcdefghijklmnopqrstuvwxyz0123456789+/"

/-- R161: the sixteen hex digits, in the order of their values. -/
def hexAlphabet (upper : Bool) : Bytes := asciiBytes (if upper then "0123456789ABCDEF" else "0123456789abcdef")

/-! ### Closed forms -/

/-- R185, R208: the blob of a plaintext under a seed. -/
def encodeBlob (c : Config) (plain seed : Bytes) : Bytes :=
  joinFields (hexEnc c.hexUpper (sha1 plain)) (hexEnc c.hexUpper (encryptBytes c seed plain)) (hexEnc c.hexUpper seed)

/-- R185, R208: the Packet of a plaintext under a seed. -/
def encodePacket (c : Config) (plain seed : Bytes) : Bytes := b64Enc (encodeBlob c plain seed)

/-- R209: the outcome of `DECODE` on an input of at most `MAX_PKT` characters: the first line that applies. -/
def decodeResult (c : Config) (t : Bytes) : ResultCode × Cause × Bytes :=
  match b64Dec t with
  | .error f => (.malformed, f.cause, [])
  | .ok x =>
    if x.length < minBlob then (.malformed, .blobShort, [])
    else match hexDec c.hexUpper (tagField x), hexDec c.hexUpper (keyField x), hexDec c.hexUpper (ctField x) with
      | .error f, _, _ => (.malformed, f.cause, [])
      | .ok _, .error f, _ => (.malformed, f.cause, [])
      | .ok _, .ok _, .error f => (.malformed, f.cause, [])
      | .ok tag, .ok key, .ok ct =>
        match decryptBytes c key ct with
        | .error f => (.malformed, f.cause, [])
        | .ok plain => if sha1 plain = tag then (.ok, .none, plain) else (.tampered, .tagMismatch, [])

end Sys2Proof.Machine
end

