-- ==== Sys2Proof/Certificates/Slice0/Obligations.lean ====
section
/-! DEFINITION. The statements for the provers, family by family: encodings, the step, reset, the unit operations and
the commands (result, completion and frame; failures; sequencer faults), the host window, the invariants, the laws of
the units, and the closed forms of the two commands. -/

section

open Sys2Proof Sys2Proof.Machine

/-! ### Encodings (30_encoding.md) -/

/-- R70 to R74: no bit of an encoding is dropped, with every operand at every value (ill-formed pairs included). -/
def Obligations.DecodeOfEncode : Prop := ∀ i : Instr, decode (encode i) = .ok i

/-- R70 to R74: every word that decodes has exactly one meaning, and the encoder gives that word. -/
def Obligations.EncodeOfDecode : Prop := ∀ (w : CodeWord) (i : Instr), decode w = .ok i → encode i = w

/-- R71, R73, R74, R78: the reserved encodings, each rejected by its name. The fields are those of R72. -/
def Obligations.ReservedWordsRejected : Prop :=
  (∀ w : StepWord,
    (w.toNat / 256 ∉ [0x01, 0x02, 0x10, 0x11, 0x20, 0x21, 0x30, 0x31, 0x40, 0x41, 0x50, 0x51, 0x60, 0x61] →
      decode (.step w) = .error (.reservedOp (BitVec.ofNat 8 (w.toNat / 256)))) ∧
    (w.toNat / 256 ∈ [0x02, 0x20, 0x21, 0x30, 0x40, 0x41, 0x50, 0x51] → 12 ≤ w.toNat / 16 % 16 →
      decode (.step w) = .error (.reservedBuffer (BitVec.ofNat 4 (w.toNat / 16)))) ∧
    (w.toNat / 256 ∈ [0x02, 0x20, 0x21, 0x30, 0x40, 0x41, 0x50, 0x51] → w.toNat / 16 % 16 < 12 →
      12 ≤ w.toNat % 16 → decode (.step w) = .error (.reservedBuffer (BitVec.ofNat 4 w.toNat))) ∧
    (w.toNat / 256 ∈ [0x01, 0x10, 0x11, 0x31, 0x60, 0x61] → w.toNat % 256 ≠ 0 →
      decode (.step w) = .error (.operandNotZero (BitVec.ofNat 4 (w.toNat / 16)) (BitVec.ofNat 4 w.toNat)))) ∧
  ∀ c : Word32, c ≠ 1 → c ≠ 2 → decode (.cmd c) = .error (.reservedCommand c)

/-- R77: the words written out there, in both directions. -/
def Obligations.WordsDecode : Prop :=
  ∀ p ∈ ([(.encrypt .ct .inp, 0x2060#16), (.decrypt .pt .ct, 0x2176#16), (.digest .tag .pt, 0x30A7#16),
      (.digest .xtag .pt, 0x30B7#16), (.hexenc .tagHex .tag, 0x403A#16), (.hexenc .ctHex .ct, 0x4046#16),
      (.hexenc .keyHex .seed, 0x4058#16), (.hexdec .tag .tagHex, 0x41A3#16), (.hexdec .seed .keyHex, 0x4185#16),
      (.hexdec .ct .ctHex, 0x4164#16), (.b64enc .out .blob, 0x5012#16), (.b64dec .blob .inp, 0x5120#16),
      (.move .out .pt, 0x0217#16), (.done, 0x0100#16), (.newseed, 0x1000#16), (.derivekey, 0x1100#16),
      (.tagcmp, 0x3100#16), (.join, 0x6000#16), (.split, 0x6100#16)] : List (Instr × StepWord)),
    encode p.1 = .step p.2 ∧ decode (.step p.2) = .ok p.1

/-- R76: the assembly of the two sequences, address by address, every word of them well-formed (R75); every other
word of the ROM is 0 and names no instruction (R78). -/
def Obligations.RomContents : Prop :=
  (∀ p ∈ ([(0x00, .newseed), (0x01, .derivekey), (0x02, .encrypt .ct .inp), (0x03, .decrypt .pt .ct),
      (0x04, .digest .tag .pt), (0x05, .hexenc .tagHex .tag), (0x06, .hexenc .ctHex .ct),
      (0x07, .hexenc .keyHex .seed), (0x08, .join), (0x09, .b64enc .out .blob), (0x0A, .done),
      (0x10, .b64dec .blob .inp), (0x11, .split), (0x12, .hexdec .tag .tagHex), (0x13, .hexdec .seed .keyHex),
      (0x14, .hexdec .ct .ctHex), (0x15, .derivekey), (0x16, .decrypt .pt .ct), (0x17, .digest .xtag .pt),
      (0x18, .tagcmp), (0x19, .move .out .pt), (0x1A, .done)] : List (Fin 32 × Instr)),
    decode (.step sequenceRom[p.1]) = .ok p.2 ∧ p.2.wf = true) ∧
  ∀ a : Fin 32, (0x0B ≤ a ∧ a ≤ 0x0F) ∨ 0x1B ≤ a →
    sequenceRom[a] = 0 ∧ decode (.step sequenceRom[a]) = .error (.reservedOp 0)

/-- R75: operand legality, in the buffer numbers of R73. -/
def Obligations.OperandLegality : Prop :=
  (∀ dst src : Buf,
    let legal := (1 ≤ (bufNumber dst).toNat ∧ (bufNumber dst).toNat ≤ 11) ∧
      ((bufNumber src).toNat = 0 ∨ (2 ≤ (bufNumber src).toNat ∧ (bufNumber src).toNat ≤ 11)) ∧
      bufNumber dst ≠ bufNumber src
    (∀ i ∈ [Instr.move dst src, .encrypt dst src, .decrypt dst src, .hexenc dst src, .hexdec dst src,
      .b64enc dst src, .b64dec dst src], (i.wf = true ↔ legal)) ∧
    ((Instr.digest dst src).wf = true ↔
      legal ∧ ((bufNumber dst).toNat = 10 ∨ (bufNumber dst).toNat = 11))) ∧
  ∀ i ∈ [Instr.done, .newseed, .derivekey, .tagcmp, .join, .split], i.wf = true

/-! ### The step, reset and initialisation (46_orchestrator.md, 70_reset_and_hazards.md) -/

/-- R203: when the sequencer takes the step and the word at `UPC` is an instruction, the step is that instruction, on
the state with the event of the step taken off the list (assumption 5). -/
def Obligations.StepRunsFetchedInstruction : Prop :=
  ∀ (s : State) (i : Instr), SequencerNext s → s.busy = true → decode (.step (fetch s)) = .ok i →
    step s = exec i { s with env := s.env.tail }

/-- R203, R238: a fetched word that names no instruction ends the command with `SEQ_FAULT`, `STEP_RESERVED`. -/
def Obligations.ReservedWordFaults : Prop :=
  ∀ (s : State) (e : DecodeError), SequencerNext s → s.busy = true → decode (.step (fetch s)) = .error e →
    ∃ t, step s = .next t ∧ CompletedWith .seqFault .stepReserved [] { s with env := s.env.tail } t ∧
      SameSource s t

/-- R71, R201: a host write of 1 or 2 to `CMD` is the command of that code, on the state with the access taken off the
list; a write returns nothing. -/
def Obligations.StepRunsWrittenCommand : Prop :=
  ∀ (s : State) (rest : List Event),
    (HostNext (.write 0 4 0x00000001#32) rest s → step s = exec .encode { s with env := rest, reply := none }) ∧
    (HostNext (.write 0 4 0x00000002#32) rest s → step s = exec .decode { s with env := rest, reply := none })

/-- R260, R256: an engine that is not busy waits. That its turn is a step that changes nothing is the model's form of
waiting (assumption 5, DESIGN CHOICE). -/
def Obligations.IdleEngineWaits : Prop :=
  ∀ s : State, SequencerNext s → s.busy = false → step s = .next { s with env := s.env.tail }

/-- R262: the check of initialisation, while it is still to be made (`initPending`, the model's own field, assumption
7): it sets `FATAL` unless all three signals are 1, changes nothing else, and is then behind. That the check is taken
whatever event stands first is not R262's but the model's choice (assumption 5, DESIGN CHOICE: R262 says only that no
command is accepted before the check). -/
def Obligations.InitialisationCheck : Prop :=
  ∀ s : State, s.initPending = true →
    ∃ t, step s = .next t ∧ t = { s with initPending := false, fatal := t.fatal } ∧
      (t.fatal = false ↔ s.rngOk = true ∧ s.cipherOk = true ∧ s.digestOk = true) ∧
      (ResetValues s → statusWord t = if s.rngOk && s.cipherOk && s.digestOk then 0x00000000#32 else 0x00000004#32)

/-- R39: every value of the table, and nothing else, at reset. -/
def Obligations.ResetStateValues : Prop := ResetValues State.reset

/-- R260, R261: the reset event takes the whole engine to the values of R39, whatever it was doing; the check of R262
follows. That the parameters, the ROM, the sampled signals, the random source's bytes and the later events stay is the
model's reading (assumption 15, DEDUCED: they stand outside the engine's state), not a rule's words. A reset event that
comes while the check is pending waits for it (assumption 5, the model's choice) and is left out here. -/
def Obligations.ResetEvent : Prop :=
  ∀ s : State, s.initPending = false → s.env.head? = some .reset →
    ∃ t, step s = .next t ∧ ResetValues t ∧ t.initPending = true ∧ t.cfg = s.cfg ∧ t.rom = s.rom ∧
      t.rngOk = s.rngOk ∧ t.cipherOk = s.cipherOk ∧ t.digestOk = s.digestOk ∧ t.rng = s.rng ∧
      t.env = s.env.tail

/-! ### The unit operations: results, completion, frames -/

/-- R210: `MOVE` copies `src` to `dst`; `OLEN` follows when `dst` is `OUT`. -/
def Obligations.MoveResult : Prop :=
  ∀ (s : State) (dst src : Buf), (Instr.move dst src).wf = true → Fits dst (readBuf s.bufs src) s →
    ∃ t, exec (.move dst src) s = .next t ∧ WritesOnly dst (readBuf s.bufs src) s t ∧ SameSource s t ∧
      SameWorking s t ∧ (dst = .out → olen t = BitVec.ofNat 32 (readBuf s.bufs src).length)

/-- R162, R174: `HEXENC` and `B64ENC` write the text of `src` to `dst`, and nothing else. -/
def Obligations.TextEncodersResult : Prop :=
  ∀ (s : State) (dst src : Buf),
    ((Instr.hexenc dst src).wf = true → Fits dst (hexEnc s.cfg.hexUpper (readBuf s.bufs src)) s →
      ∃ t, exec (.hexenc dst src) s = .next t ∧ WritesOnly dst (hexEnc s.cfg.hexUpper (readBuf s.bufs src)) s t ∧
        SameSource s t ∧ SameWorking s t) ∧
    ((Instr.b64enc dst src).wf = true → Fits dst (b64Enc (readBuf s.bufs src)) s →
      ∃ t, exec (.b64enc dst src) s = .next t ∧ WritesOnly dst (b64Enc (readBuf s.bufs src)) s t ∧
        SameSource s t ∧ SameWorking s t)

/-- R100: `DIGEST` writes the SHA-1 of `src`, always 20 bytes, and the digest core's working registers. -/
def Obligations.DigestResult : Prop :=
  ∀ (s : State) (dst src : Buf), (Instr.digest dst src).wf = true → s.upc ≠ 31#5 →
    ∃ t, exec (.digest dst src) s = .next t ∧ WritesOnly dst (sha1 (readBuf s.bufs src)) s t ∧
      (readBuf t.bufs dst).length = 20 ∧ SameSource s t ∧ t.cipher = s.cipher

/-- R145, R146: `ENCRYPT` under a 32-byte key writes the ciphertext, of the length R146 gives, and the cipher engine's
working registers. -/
def Obligations.EncryptResult : Prop :=
  ∀ (s : State) (dst src : Buf), (Instr.encrypt dst src).wf = true → s.bufs.key.length = 32 →
    Fits dst (encryptBytes s.cfg s.bufs.key (readBuf s.bufs src)) s →
    ∃ t, exec (.encrypt dst src) s = .next t ∧
      WritesOnly dst (encryptBytes s.cfg s.bufs.key (readBuf s.bufs src)) s t ∧
      (readBuf t.bufs dst).length = 16 * ((readBuf s.bufs src).length / 16 + 1) ∧ SameSource s t ∧
      t.digest = s.digest

/-- R149, R148: `DECRYPT` of a ciphertext that passes both checks writes the plaintext, 1 to 16 bytes shorter, and the
cipher engine's working registers. -/
def Obligations.DecryptResult : Prop :=
  ∀ (s : State) (dst src : Buf) (m : Bytes), (Instr.decrypt dst src).wf = true → s.bufs.key.length = 32 →
    decryptBytes s.cfg s.bufs.key (readBuf s.bufs src) = .ok m → Fits dst m s →
    ∃ t, exec (.decrypt dst src) s = .next t ∧ WritesOnly dst m s t ∧
      (readBuf s.bufs src).length ≤ m.length + 16 ∧ m.length + 1 ≤ (readBuf s.bufs src).length ∧
      SameSource s t ∧ t.digest = s.digest

/-- R149, R150, R154, R236: a `DECRYPT` that fails ends the command. The length check needs no key. The result is
`MALFORMED` in a `DECODE` and `BAD_CIPHERTEXT` in an `ENCODE`; with no command latched it is one of the two
(assumption 3). -/
def Obligations.DecryptFails : Prop :=
  ∀ (s : State) (dst src : Buf) (f : Failure), (Instr.decrypt dst src).wf = true →
    (ctLengthOk (readBuf s.bufs src) = true → s.bufs.key.length = 32) →
    decryptBytes s.cfg s.bufs.key (readBuf s.bufs src) = .error f →
    ∃ t code, exec (.decrypt dst src) s = .next t ∧ CompletedWith code f.cause [] s t ∧ SameSource s t ∧
      (s.cmdreg = .decode → code = .malformed) ∧ (s.cmdreg = .encode → code = .badCipherText) ∧
      (code = .malformed ∨ code = .badCipherText) ∧
      (f.cause = if (readBuf s.bufs src).length = 0 ∨ (readBuf s.bufs src).length % 16 ≠ 0 then .ctLength
        else .ctPadding)

/-- R165, R178: `HEXDEC` and `B64DEC` of a text they accept write its bytes to `dst`, and nothing else. -/
def Obligations.TextDecodersResult : Prop :=
  ∀ (s : State) (dst src : Buf) (b : Bytes), Fits dst b s →
    ((Instr.hexdec dst src).wf = true → hexDec s.cfg.hexUpper (readBuf s.bufs src) = .ok b →
      ∃ t, exec (.hexdec dst src) s = .next t ∧ WritesOnly dst b s t ∧ SameSource s t ∧ SameWorking s t) ∧
    ((Instr.b64dec dst src).wf = true → b64Dec (readBuf s.bufs src) = .ok b →
      ∃ t, exec (.b64dec dst src) s = .next t ∧ WritesOnly dst b s t ∧ SameSource s t ∧ SameWorking s t)

/-- R165, R177, R178, R192, R236: `HEXDEC`, `B64DEC` and `SPLIT` of a text they reject end the command with
`MALFORMED` and the first cause in the order of their checks: for `B64DEC` the length, then a character before the
padding without a value, then the trailing bits. -/
def Obligations.TextUnitsFail : Prop :=
  (∀ (s : State) (dst src : Buf) (f : Failure), (Instr.hexdec dst src).wf = true →
    hexDec s.cfg.hexUpper (readBuf s.bufs src) = .error f →
    ∃ t, exec (.hexdec dst src) s = .next t ∧ CompletedWith .malformed f.cause [] s t ∧ SameSource s t ∧
      f.cause = if (readBuf s.bufs src).length % 2 = 1 then .hexLength else .hexChar) ∧
  (∀ (s : State) (dst src : Buf) (f : Failure), (Instr.b64dec dst src).wf = true →
    b64Dec (readBuf s.bufs src) = .error f →
    ∃ t, exec (.b64dec dst src) s = .next t ∧ CompletedWith .malformed f.cause [] s t ∧ SameSource s t ∧
      f.cause =
        if (readBuf s.bufs src).length % 4 ≠ 0 then .b64Length
        else if ∃ ch ∈ (readBuf s.bufs src).take ((readBuf s.bufs src).length - b64PadCount (readBuf s.bufs src)),
          b64Val ch = none then .b64Char
        else .b64Trailing) ∧
  ∀ s : State, s.bufs.blob.length < 104 →
    ∃ t, exec .split s = .next t ∧ CompletedWith .malformed .blobShort [] s t ∧ SameSource s t

/-- R190: `JOIN` writes the concatenation of the three fields, tag first, and nothing else. -/
def Obligations.JoinResult : Prop :=
  ∀ s : State, s.bufs.tagHex.length = 40 → s.bufs.keyHex.length = 64 →
    Fits .blob (s.bufs.tagHex ++ s.bufs.ctHex ++ s.bufs.keyHex) s →
    ∃ t, exec .join s = .next t ∧ WritesOnly .blob (s.bufs.tagHex ++ s.bufs.ctHex ++ s.bufs.keyHex) s t ∧
      SameSource s t ∧ SameWorking s t

/-- R192, R193: `SPLIT` of a blob of at least 104 characters within its capacity writes the first 40, the last 64 and
everything between, and nothing else. -/
def Obligations.SplitResult : Prop :=
  ∀ s : State, 104 ≤ s.bufs.blob.length → s.bufs.blob.length ≤ blobCap s.cfg → s.upc ≠ 31#5 →
    ∃ t, exec .split s = .next t ∧ t.bufs.tagHex = s.bufs.blob.take 40 ∧
      t.bufs.keyHex = s.bufs.blob.drop (s.bufs.blob.length - 64) ∧
      t.bufs.tagHex ++ t.bufs.ctHex ++ t.bufs.keyHex = s.bufs.blob ∧
      t.bufs.tagHex.length = 40 ∧ t.bufs.keyHex.length = 64 ∧ t.bufs.ctHex.length = s.bufs.blob.length - 104 ∧
      (∀ b, b ≠ .tagHex → b ≠ .ctHex → b ≠ .keyHex → readBuf t.bufs b = readBuf s.bufs b) ∧
      t.upc = s.upc + 1 ∧ SameControl s t ∧ (∀ k, outwByte t k = outwByte s k) ∧ SameSource s t ∧
      SameWorking s t

/-- R110, R111: `NEWSEED` takes the next 32 bytes of the random source, byte 0 of the seed first, whatever they are. -/
def Obligations.NewseedResult : Prop :=
  ∀ s : State, 32 ≤ s.rng.length → s.upc ≠ 31#5 →
    ∃ t, exec .newseed s = .next t ∧ WritesOnly .seed (s.rng.take 32) s t ∧ t.rng = s.rng.drop 32 ∧ SameWorking s t

/-- R111, R272: until the random source has 32 bytes `NEWSEED` waits. That the turn is a step that changes nothing, and
that no part is drawn, is the model's form of waiting (assumption 14, DESIGN CHOICE). -/
def Obligations.NewseedWaits : Prop :=
  ∀ s : State, s.rng.length < 32 → exec .newseed s = .next s

/-- R112: `DERIVEKEY` writes the first 32 bytes of the seed. -/
def Obligations.DerivekeyResult : Prop :=
  ∀ s : State, 32 ≤ s.bufs.seed.length → s.upc ≠ 31#5 →
    ∃ t, exec .derivekey s = .next t ∧ WritesOnly .key (s.bufs.seed.take 32) s t ∧ SameSource s t ∧ SameWorking s t

/-- R103: `TAGCMP` of two equal 20-byte tags leaves `DIFF` 0 and moves on; nothing else changes. -/
def Obligations.TagcmpEqual : Prop :=
  ∀ s : State, s.bufs.xtag.length = 20 → s.bufs.tag = s.bufs.xtag → s.upc ≠ 31#5 →
    exec .tagcmp s = .next { s with diff := 0, upc := s.upc + 1 }

/-- R103, R236: `TAGCMP` of two 20-byte tags that differ anywhere ends the command with `TAMPERED`, `TAG_MISMATCH`. -/
def Obligations.TagcmpMismatch : Prop :=
  ∀ s : State, s.bufs.xtag.length = 20 → s.bufs.tag.length = 20 → s.bufs.tag ≠ s.bufs.xtag →
    ∃ t, exec .tagcmp s = .next t ∧ CompletedWith .tampered .tagMismatch [] s t ∧ SameSource s t

/-- R211, R202: `DONE` completes with `OK` and keeps `OUT`. -/
def Obligations.DoneCompletes : Prop :=
  ∀ s : State, ∃ t, exec .done s = .next t ∧ CompletedWith .ok .none s.bufs.out s t ∧ SameSource s t

/-! ### The commands (R201, R206, R207) -/

/-- R201, R71: an idle engine accepts a command on an input within its capacity: the input is fixed, `OUT` and `RESULT`
are cleared, the command is latched and the sequencer started at its entry address; nothing else changes. -/
def Obligations.CommandsAccepted : Prop :=
  ∀ s : State, s.fatal = false → s.busy = false →
    (s.ilen.toNat ≤ s.cfg.maxPt →
      exec .encode s = .next { s with
        bufs := { s.bufs with inp := windowPrefix s.inw s.ilen.toNat, out := [] }
        cmdreg := .encode, busy := true, done := false, upc := 0x00#5
        resultCode := .none, resultCause := .none }) ∧
    (s.ilen.toNat ≤ maxPkt s.cfg →
      exec .decode s = .next { s with
        bufs := { s.bufs with inp := windowPrefix s.inw s.ilen.toNat, out := [] }
        cmdreg := .decode, busy := true, done := false, upc := 0x10#5
        resultCode := .none, resultCause := .none })

/-- R201, R237: an idle engine refuses an over-long input and a reserved code at once; the code is checked first. -/
def Obligations.CommandsRefused : Prop :=
  ∀ s : State, s.fatal = false → s.busy = false →
    (s.cfg.maxPt < s.ilen.toNat →
      ∃ t, exec .encode s = .next t ∧ CompletedWith .capacity .inTooLong [] s t ∧ SameSource s t) ∧
    (maxPkt s.cfg < s.ilen.toNat →
      ∃ t, exec .decode s = .next t ∧ CompletedWith .capacity .inTooLong [] s t ∧ SameSource s t) ∧
    ∀ (v : Word32) (rest : List Event), v ≠ 1 → v ≠ 2 → HostNext (.write 0 4 v) rest s →
      ∃ t, step s = .next t ∧
        CompletedWith .illegalCmd .cmdReserved [] { s with env := rest, reply := none } t ∧ SameSource s t

/-! ### Sequencer faults (R238) -/

/-- R75, R238: an instruction with illegal operands is a sequencer fault in every state; it is never given a value. -/
def Obligations.IllFormedFaults : Prop :=
  ∀ (s : State) (i : Instr), i.wf = false → FaultsWith .stepReserved i s

/-- R238: each length precondition, broken. In `DECRYPT` the length check of the ciphertext comes before the key is
read (R150). -/
def Obligations.PreconditionFaults : Prop :=
  ∀ (s : State) (dst src : Buf),
    ((Instr.encrypt dst src).wf = true → s.bufs.key.length ≠ 32 → FaultsWith .stepPrecond (.encrypt dst src) s) ∧
    ((Instr.decrypt dst src).wf = true → (readBuf s.bufs src).length ≠ 0 → (readBuf s.bufs src).length % 16 = 0 →
      s.bufs.key.length ≠ 32 → FaultsWith .stepPrecond (.decrypt dst src) s) ∧
    (s.bufs.seed.length < 32 → FaultsWith .stepPrecond .derivekey s) ∧
    (s.bufs.tagHex.length ≠ 40 ∨ s.bufs.keyHex.length ≠ 64 → FaultsWith .stepPrecond .join s) ∧
    (s.bufs.xtag.length ≠ 20 ∨ s.bufs.tag.length ≠ 20 → FaultsWith .stepPrecond .tagcmp s)

/-- R238, R20, R27: a result that exceeds its buffer's capacity, or a step at address 31, is a sequencer fault for
every unit operation that would otherwise have moved on. -/
def Obligations.CapacityFaults : Prop :=
  ∀ (s : State) (dst src : Buf),
    ((Instr.move dst src).wf = true → ¬ Fits dst (readBuf s.bufs src) s →
      FaultsWith .stepPrecond (.move dst src) s) ∧
    ((Instr.hexenc dst src).wf = true → ¬ Fits dst (hexEnc s.cfg.hexUpper (readBuf s.bufs src)) s →
      FaultsWith .stepPrecond (.hexenc dst src) s) ∧
    ((Instr.b64enc dst src).wf = true → ¬ Fits dst (b64Enc (readBuf s.bufs src)) s →
      FaultsWith .stepPrecond (.b64enc dst src) s) ∧
    ((Instr.digest dst src).wf = true → s.upc = 31#5 → FaultsWith .stepPrecond (.digest dst src) s) ∧
    ((Instr.encrypt dst src).wf = true → s.bufs.key.length = 32 →
      ¬ Fits dst (encryptBytes s.cfg s.bufs.key (readBuf s.bufs src)) s →
      FaultsWith .stepPrecond (.encrypt dst src) s) ∧
    (∀ m, (Instr.decrypt dst src).wf = true → s.bufs.key.length = 32 →
      decryptBytes s.cfg s.bufs.key (readBuf s.bufs src) = .ok m → ¬ Fits dst m s →
      FaultsWith .stepPrecond (.decrypt dst src) s) ∧
    (∀ b, (Instr.hexdec dst src).wf = true → hexDec s.cfg.hexUpper (readBuf s.bufs src) = .ok b → ¬ Fits dst b s →
      FaultsWith .stepPrecond (.hexdec dst src) s) ∧
    (∀ b, (Instr.b64dec dst src).wf = true → b64Dec (readBuf s.bufs src) = .ok b → ¬ Fits dst b s →
      FaultsWith .stepPrecond (.b64dec dst src) s) ∧
    (32 ≤ s.rng.length → s.upc = 31#5 → FaultsWith .stepPrecond .newseed s) ∧
    (32 ≤ s.bufs.seed.length → s.upc = 31#5 → FaultsWith .stepPrecond .derivekey s) ∧
    (s.bufs.tagHex.length = 40 → s.bufs.keyHex.length = 64 →
      ¬ Fits .blob (s.bufs.tagHex ++ s.bufs.ctHex ++ s.bufs.keyHex) s → FaultsWith .stepPrecond .join s) ∧
    (104 ≤ s.bufs.blob.length → ¬ Fits .ctHex (ctField s.bufs.blob) s → FaultsWith .stepPrecond .split s) ∧
    (s.bufs.xtag.length = 20 → s.bufs.tag = s.bufs.xtag → s.upc = 31#5 → FaultsWith .stepPrecond .tagcmp s)

/-! ### The host window (20_memory.md, 10_state.md) -/

/-- R57, R56: a byte write to the input window of an idle engine changes that byte alone; an index without storage
ignores it; reads of the window return 0. -/
def Obligations.InputWindowAccess : Prop :=
  ∀ (s : State) (rest : List Event) (k : Nat) (v : Word32), s.cfg.Wf → WindowWf s → k < 0x10000 →
    (HostNext (.write (s.cfg.inBase + k) 1 v) rest s → s.busy = false → s.fatal = false → k < maxPkt s.cfg →
      ∃ m, step s = .next { s with env := rest, reply := none, inw := m } ∧
        Memory.read m k = v.extractLsb' 0 8 ∧ ∀ j, j ≠ k → Memory.read m j = Memory.read s.inw j) ∧
    (HostNext (.write (s.cfg.inBase + k) 1 v) rest s → s.busy = false → s.fatal = false → maxPkt s.cfg ≤ k →
      step s = .next { s with env := rest, reply := none }) ∧
    (HostNext (.read (s.cfg.inBase + k) 1) rest s → step s = .next { s with env := rest, reply := some 0 })

/-- R58: a byte read of the output window, and a write to it. -/
def Obligations.OutputWindowAccess : Prop :=
  ∀ (s : State) (rest : List Event) (k : Nat) (v : Word32), s.cfg.Wf → k < 0x10000 →
    (HostNext (.read (s.cfg.outBase + k) 1) rest s →
      step s = .next { s with
        env := rest
        reply := some (if s.busy = false ∧ k < s.bufs.out.length then (s.bufs.out.getD k 0).zeroExtend 32 else 0) }) ∧
    (HostNext (.write (s.cfg.outBase + k) 1 v) rest s → step s = .next { s with env := rest, reply := none })

/-- R59: writes to `CMD`, `ILEN` and the input window of a busy engine set `OVR` and do nothing else, of a dead engine
do nothing; writes to `CTRL` and the write-1-to-clear bits of `STATUS` take effect at any time. That a busy engine sets
`OVR` also at an index at or above `MAX_PKT`, which has no storage (R56), is the model's reading (assumption 11,
DEDUCED). -/
def Obligations.WritesWhileBusyOrDead : Prop :=
  ∀ (s : State) (rest : List Event) (v : Word32), s.cfg.Wf →
    (∀ a, (a = .write 0x00 4 v ∨ a = .write 0x10 4 v ∨ ∃ k < 0x10000, a = .write (s.cfg.inBase + k) 1 v) →
      HostNext a rest s →
      (s.fatal = false → s.busy = true → step s = .next { s with env := rest, reply := none, ovr := true }) ∧
      (s.fatal = true → step s = .next { s with env := rest, reply := none })) ∧
    (HostNext (.write 0x0C 4 v) rest s →
      step s = .next { s with env := rest, reply := none, ie := v.getLsbD 0 }) ∧
    (HostNext (.write 0x04 4 v) rest s →
      ∃ t, step s = .next t ∧ t.done = (s.done && !v.getLsbD 1) ∧ t.ovr = (s.ovr && !v.getLsbD 3))

/-- R61: the whole effect of a write to `STATUS`: bit 1 releases a completed command, bit 3 clears `OVR`, every other
bit is ignored, `RESULT` stays. -/
def Obligations.StatusWrite : Prop :=
  ∀ (s : State) (rest : List Event) (v : Word32), HostNext (.write 0x04 4 v) rest s →
    step s = .next { s with
      env := rest, reply := none
      done := s.done && !v.getLsbD 1
      bufs := if s.done && v.getLsbD 1 then { s.bufs with out := [] } else s.bufs
      ovr := s.ovr && !v.getLsbD 3 }

/-- R31, R34, R56, R60: what every aligned offset of `REG` reads as; a read changes nothing. That `ILEN` and `CTRL` read
as they are also while a command runs is the model's reading of R60 against R64 (c) (assumption 18, DEDUCED). -/
def Obligations.RegisterReads : Prop :=
  ∀ (s : State) (rest : List Event) (k : Nat), k < 0x10000 → k % 4 = 0 → HostNext (.read k 4) rest s →
    ∃ v, step s = .next { s with env := rest, reply := some v } ∧
      (k = 0x00 → v = 0) ∧
      (k = 0x04 → v.toNat = s.busy.toNat + 2 * s.done.toNat + 4 * s.fatal.toNat + 8 * s.ovr.toNat) ∧
      (k = 0x08 → v.toNat =
        if s.busy then 0 else (resultNumber s.resultCode).toNat + 256 * (causeNumber s.resultCause).toNat) ∧
      (k = 0x0C → v.toNat = s.ie.toNat) ∧
      (k = 0x10 → v = s.ilen) ∧
      (k = 0x14 → v = if s.busy then 0 else BitVec.ofNat 32 s.bufs.out.length) ∧
      (k = 0x18 → v = BitVec.ofNat 32 s.cfg.maxPt) ∧
      (k = 0x1C → v = BitVec.ofNat 32 (maxPkt s.cfg)) ∧
      (0x20 ≤ k → v = 0)

/-- R31, R33, R56: `ILEN` takes any value while the engine is idle, `CTRL` takes bit 0, and the read-only and reserved
offsets ignore writes. -/
def Obligations.RegisterWrites : Prop :=
  ∀ (s : State) (rest : List Event) (v : Word32),
    (HostNext (.write 0x10 4 v) rest s → s.busy = false → s.fatal = false →
      step s = .next { s with env := rest, reply := none, ilen := v }) ∧
    (HostNext (.write 0x0C 4 v) rest s →
      step s = .next { s with env := rest, reply := none, ie := v.getLsbD 0 }) ∧
    ∀ k, k < 0x10000 → k % 4 = 0 → k ∉ [0x00, 0x04, 0x0C, 0x10] → HostNext (.write k 4 v) rest s →
      step s = .next { s with env := rest, reply := none }

/-- R55: an access of a width or an alignment that is not admitted changes no state and returns no value; that
such an access has a step at all is the model's choice (assumption 8). An offset outside the three ranges of R56 is no
address of the block; the stop there is the model's choice (assumption 9). -/
def Obligations.RefusedAccesses : Prop :=
  ∀ (s : State) (rest : List Event) (off width : Nat) (v : Word32), s.cfg.Wf →
    (((off < 0x10000 ∧ (width ≠ 4 ∨ off % 4 ≠ 0)) ∨
        (s.cfg.inBase ≤ off ∧ off < s.cfg.inBase + 0x10000 ∧ width ≠ 1) ∨
        (s.cfg.outBase ≤ off ∧ off < s.cfg.outBase + 0x10000 ∧ width ≠ 1)) →
      (HostNext (.read off width) rest s → step s = .next { s with env := rest, reply := none }) ∧
      (HostNext (.write off width v) rest s → step s = .next { s with env := rest, reply := none })) ∧
    (0x10000 ≤ off → ¬ (s.cfg.inBase ≤ off ∧ off < s.cfg.inBase + 0x10000) →
      ¬ (s.cfg.outBase ≤ off ∧ off < s.cfg.outBase + 0x10000) →
      (HostNext (.read off width) rest s → step s = .fault (.outsideWindow off)) ∧
      (HostNext (.write off width v) rest s → step s = .fault (.outsideWindow off)))

/-- R37, R60, R62, R254: a host read has no side effect, and returns the same value from two states that differ only
in what the host cannot see: the internal buffers, `UPC`, `CMDREG`, `DIFF`, the working registers, the input window,
and, while a command runs, `OUT`. Only a read at an offset in none of the three ranges of R56 stops, the same way in
both: the fault is the model's choice (assumption 9, DESIGN CHOICE). -/
def Obligations.HostReadsHideInternals : Prop :=
  ∀ (s t : State) (off width : Nat) (rs rt : List Event), SameToHost s t →
    HostNext (.read off width) rs s → HostNext (.read off width) rt t →
    if off < 0x10000 ∨ (s.cfg.inBase ≤ off ∧ off < s.cfg.inBase + 0x10000) ∨
        (s.cfg.outBase ≤ off ∧ off < s.cfg.outBase + 0x10000) then
      ∃ v, step s = .next { s with env := rs, reply := v } ∧ step t = .next { t with env := rt, reply := v }
    else step s = .fault (.outsideWindow off) ∧ step t = .fault (.outsideWindow off)

/-! ### Invariants -/

/-- R10 to R12, R20, R22, R28, R29, R40, R41, R230, R231, R256, R262: the engine's invariant is kept by every step of
every agent, for every parameter set and every ROM. -/
def Obligations.EngineInvKept : Prop := ∀ s t : State, Inv s → step s = .next t → Inv t

/-- R216, R217, R151: with the ROM of R76, from a state that meets the engine's invariant (`EngineInvKept`, which holds
every buffer to its capacity), every step keeps the sequencer on one of its two sequences with every buffer at the length
R216 and R217 give, and no command ever ends with `SEQ_FAULT` or `BAD_CIPHERTEXT`. -/
def Obligations.SequenceInvKept : Prop :=
  ∀ s t : State, Inv s → SequenceInv s → step s = .next t → SequenceInv t

/-- Both invariants hold at reset. -/
def Obligations.InvariantsAtReset : Prop := Inv State.reset ∧ SequenceInv State.reset

/-- R256, R240: a dead engine stays dead, silent and empty under every step but a reset. -/
def Obligations.DeadUntilReset : Prop :=
  ∀ s t : State, Inv s → s.fatal = true → step s = .next t → s.env.head? ≠ some .reset →
    t.fatal = true ∧ t.busy = false ∧ t.done = false ∧ t.resultCode = .none ∧ t.resultCause = .none ∧
      irq t = false ∧ (t.ovr = true → s.ovr = true) ∧ t.ilen = 0 ∧ (∀ k, Memory.read t.inw k = 0) ∧ t.bufs.out = []

/-- R64 b, R202, R213, R241: `DONE` rises only in a completion, which in that one step also ends `BUSY`, gives a legal
result, empties `OUT` unless the result is `OK`, and clears everything else. -/
def Obligations.CompletionIsOneTransition : Prop :=
  ∀ s t : State, step s = .next t → s.done = false → t.done = true →
    t.busy = false ∧ t.resultCode ≠ .none ∧ legalResult t.resultCode t.resultCause = true ∧
      (t.resultCode ≠ .ok → t.bufs.out = []) ∧ InternalClear t ∧ t.ilen = 0 ∧ ∀ k, Memory.read t.inw k = 0

/-! ### The laws of the units -/

/-- R163, R166, R167: the strict hex decoder accepts exactly what the encoder emits, for either letter case. -/
def Obligations.HexImage : Prop :=
  ∀ (upper : Bool) (b t : Bytes),
    (hexDec upper t = .ok b ↔ t = hexEnc upper b) ∧ (hexEnc upper b).length = 2 * b.length

/-- R175, R180, R181: the strict base64 decoder accepts exactly what the encoder emits. -/
def Obligations.Base64Image : Prop :=
  ∀ b t : Bytes,
    (b64Dec t = .ok b ↔ t = b64Enc b) ∧ (b64Enc b).length = 4 * ((b.length + 2) / 3) ∧
      (b64Dec t = .ok b → b.length = 3 * (t.length / 4) - b64PadCount t)

/-- R195: joining and splitting are inverse to each other. -/
def Obligations.FramerLaws : Prop :=
  (∀ t c k : Bytes, t.length = 40 → k.length = 64 →
    104 ≤ (joinFields t c k).length ∧ tagField (joinFields t c k) = t ∧ ctField (joinFields t c k) = c ∧
      keyField (joinFields t c k) = k) ∧
  ∀ x : Bytes, 104 ≤ x.length → joinFields (tagField x) (ctField x) (keyField x) = x

/-- R134: the inverse block function undoes the block function, and the other way round, for every schedule. -/
def Obligations.BlockInverse : Prop :=
  ∀ (w : List RoundWord) (x : Bytes), w.length = 60 → x.length = 16 →
    aesDec w (aesEnc w x) = x ∧ aesEnc w (aesDec w x) = x

/-- R151: decryption undoes encryption and does not fail, in either mode and for every `CFG_IV`. -/
def Obligations.CipherRoundTrip : Prop :=
  ∀ (c : Config) (key m : Bytes), key.length = 32 → decryptBytes c key (encryptBytes c key m) = .ok m

/-- R105, R135: the known answers of SHA-1 and of the AES-256 block function, with the states after each round that
R135 lists. R161, R164, R171, R176: the two alphabets, both ways, character by character; no other character has a
value. The worked examples of hex (vector H2, and its upper-case form), of base64 (B2 to B5, B8, B9), and of the
chaining: E1, E4 and E5 in CBC, E9 in ECB, and E4's ciphertext again, as R142 gives it for sixteen zero bytes when
`CFG_IV` is the plaintext of E4. -/
def Obligations.KnownAnswers : Prop :=
  (hexEnc false (sha1 []) = asciiBytes "da39a3ee5e6b4b0d3255bfef95601890afd80709" ∧
    hexEnc false (sha1 (asciiBytes "abc")) = asciiBytes "a9993e364706816aba3e25717850c26c9cd0d89d" ∧
    hexEnc false (sha1 (asciiBytes "hello world")) = asciiBytes "2aae6c35c94fcfb415dbe95f408b9ce91ee846ed") ∧
  (∀ upper : Bool,
    (∀ d : BitVec 4, (hexAlphabet upper)[d.toNat]? = some (hexDigit upper d)) ∧
    (∀ ch : Byte, hexVal upper ch = ((hexAlphabet upper).idxOf? ch).map (BitVec.ofNat 4)) ∧
    (∀ v : Byte, hexEnc upper [v] =
      [hexDigit upper (BitVec.ofNat 4 (v.toNat / 16)), hexDigit upper (BitVec.ofNat 4 (v.toNat % 16))])) ∧
  Config.pinned.hexUpper = false ∧
  ((∀ v : BitVec 6, b64Alphabet[v.toNat]? = some (b64Char v)) ∧
    (∀ ch : Byte, b64Val ch = (b64Alphabet.idxOf? ch).map (BitVec.ofNat 6)) ∧
    b64PadChar = 0x3d ∧ b64Val b64PadChar = none) ∧
  (hexEnc false [0x00, 0x1f, 0xa0, 0xff] = asciiBytes "001fa0ff" ∧
    hexEnc true [0x00, 0x1f, 0xa0, 0xff] = asciiBytes "001FA0FF") ∧
  (b64Enc (asciiBytes "f") = asciiBytes "Zg==" ∧ b64Enc (asciiBytes "fo") = asciiBytes "Zm8=" ∧
    b64Enc (asciiBytes "foo") = asciiBytes "Zm9v" ∧ b64Enc (asciiBytes "foob") = asciiBytes "Zm9vYg==" ∧
    b64Enc [0xff, 0xff, 0xff] = asciiBytes "////" ∧ b64Enc [0xfb, 0xf0] = asciiBytes "+/A=") ∧
  (let key : Bytes := (List.range 32).map (BitVec.ofNat 8)
    let c := Config.pinned
    let e4 := asciiBytes "e753c48bbea23420a22b1e6120c649a88127873f8ceb9cb7f15c7675b5e418ac"
    c.mode = .cbc ∧ c.iv = Vector.replicate 16 0x00#8 ∧
      hexEnc false (encryptBytes c key []) = asciiBytes "9f3b7504926f8bd36e3118e903a4cd4a" ∧
      hexEnc false (encryptBytes c key (List.replicate 16 0x61)) = e4 ∧
      hexEnc false (encryptBytes c key (List.replicate 17 0x61)) =
        asciiBytes "e753c48bbea23420a22b1e6120c649a8068f9c52206263375afd8b25f078e0a4" ∧
      hexEnc false (encryptBytes { c with mode := .ecb } key (List.replicate 32 0x61)) =
        asciiBytes ("e753c48bbea23420a22b1e6120c649a8" ++ "e753c48bbea23420a22b1e6120c649a8" ++
          "9f3b7504926f8bd36e3118e903a4cd4a") ∧
      hexEnc false (encryptBytes { c with iv := Vector.replicate 16 0x61#8 } key (List.replicate 16 0x00)) = e4) ∧
  let key : Bytes := (List.range 32).map (BitVec.ofNat 8)
  let block : Bytes := [0x00, 0x11, 0x22, 0x33, 0x44, 0x55, 0x66, 0x77, 0x88, 0x99, 0xaa, 0xbb, 0xcc, 0xdd, 0xee, 0xff]
  let answer : Bytes := [0x8e, 0xa2, 0xb7, 0xca, 0x51, 0x67, 0x45, 0xbf, 0xea, 0xfc, 0x49, 0x90, 0x4b, 0x49, 0x60, 0x89]
  let w := keyExpansion key
  let s0 := addRoundKey w block 0
  s0 = [0x00, 0x10, 0x20, 0x30, 0x40, 0x50, 0x60, 0x70, 0x80, 0x90, 0xa0, 0xb0, 0xc0, 0xd0, 0xe0, 0xf0] ∧
    encRounds w s0 1 =
      [0x4f, 0x63, 0x76, 0x06, 0x43, 0xe0, 0xaa, 0x85, 0xef, 0xa7, 0x21, 0x32, 0x01, 0xa4, 0xe7, 0x05] ∧
    encRounds w s0 2 =
      [0x18, 0x59, 0xfb, 0xc2, 0x8a, 0x1c, 0x00, 0xa0, 0x78, 0xed, 0x8a, 0xad, 0xc4, 0x2f, 0x61, 0x09] ∧
    encRounds w s0 13 =
      [0x62, 0x7b, 0xce, 0xb9, 0x99, 0x9d, 0x5a, 0xaa, 0xc9, 0x45, 0xec, 0xf4, 0x23, 0xf5, 0x6d, 0xa5] ∧
    aesEnc w block = answer ∧ aesDec w answer = block

/-! ### The commands as a whole (46_orchestrator.md) -/

/-- R208: `ENCODE` of a plaintext within the capacity, with a random source that has 32 bytes to give, ends `OK` after
the eleven steps of its sequence with the packet of the closed form. -/
def Obligations.EncodeClosedForm : Prop :=
  ∀ s : State, Quiet s → s.cfg.Wf → s.rom = sequenceRom → s.ilen.toNat ≤ s.cfg.maxPt → 32 ≤ s.rng.length →
    ∃ t, runCommand 0x00000001#32 s = .next t ∧ t.resultCode = .ok ∧ t.resultCause = .none ∧
      t.bufs.out = encodePacket s.cfg (windowPrefix s.inw s.ilen.toNat) (s.rng.take 32) ∧
      t.done = true ∧ t.busy = false ∧ InternalClear t ∧ t.rng = s.rng.drop 32

/-- R209: `DECODE` of a text within the capacity ends, after at most the eleven steps of its sequence, with the first
outcome of the table that applies. -/
def Obligations.DecodeClosedForm : Prop :=
  ∀ s : State, Quiet s → s.cfg.Wf → s.rom = sequenceRom → s.ilen.toNat ≤ maxPkt s.cfg →
    ∃ t, runCommand 0x00000002#32 s = .next t ∧
      (t.resultCode, t.resultCause, t.bufs.out) = decodeResult s.cfg (windowPrefix s.inw s.ilen.toNat) ∧
      t.done = true ∧ t.busy = false ∧ InternalClear t ∧ SameSource s t

/-- R218: whatever `ENCODE` leaves in `OUT`, `DECODE` on it, in any later state of the same instance, ends `OK` with the
plaintext. -/
def Obligations.CommandsRoundTrip : Prop :=
  ∀ s : State, Quiet s → s.cfg.Wf → s.rom = sequenceRom → s.ilen.toNat ≤ s.cfg.maxPt → 32 ≤ s.rng.length →
    ∃ t, runCommand 0x00000001#32 s = .next t ∧ t.bufs.out.length ≤ maxPkt s.cfg ∧
      ∀ u : State, Quiet u → u.cfg = s.cfg → u.rom = sequenceRom → windowPrefix u.inw u.ilen.toNat = t.bufs.out →
        ∃ v, runCommand 0x00000002#32 u = .next v ∧ v.resultCode = .ok ∧ v.resultCause = .none ∧
          v.bufs.out = windowPrefix s.inw s.ilen.toNat

/-- R220: the three malformed inputs of the source. -/
def Obligations.MalformedInputs : Prop :=
  ∀ s : State, Quiet s → s.cfg.Wf → s.rom = sequenceRom →
    (s.ilen = 0 → ∃ t, runCommand 0x00000002#32 s = .next t ∧ t.resultCode = .malformed ∧
      t.resultCause = .blobShort ∧ t.bufs.out = []) ∧
    (windowPrefix s.inw s.ilen.toNat = asciiBytes "not-hex-or-base64!!" →
      ∃ t, runCommand 0x00000002#32 s = .next t ∧ t.resultCode = .malformed ∧ t.resultCause = .b64Length ∧
        t.bufs.out = []) ∧
    ∀ x : Bytes, x.length < 104 → windowPrefix s.inw s.ilen.toNat = b64Enc x →
      ∃ t, runCommand 0x00000002#32 s = .next t ∧ t.resultCode = .malformed ∧ t.resultCause = .blobShort ∧
        t.bufs.out = []

/-- R222: a text that `DECODE` accepts is the one packet of its plaintext under the key it carries, and the ciphertext
and the key it stands for are unique. (`decodeResult` is the outcome of the command by `DecodeClosedForm`.) -/
def Obligations.CanonicalParse : Prop :=
  ∀ (c : Config) (t x : Bytes), decodeResult c t = (.ok, .none, x) →
    ∃ ct k : Bytes, k.length = 32 ∧ ct = encryptBytes c k x ∧
      t = b64Enc (joinFields (hexEnc c.hexUpper (sha1 x)) (hexEnc c.hexUpper ct) (hexEnc c.hexUpper k)) ∧
      ∀ ct' k' : Bytes, k'.length = 32 →
        t = b64Enc (joinFields (hexEnc c.hexUpper (sha1 x)) (hexEnc c.hexUpper ct') (hexEnc c.hexUpper k')) →
        ct' = ct ∧ k' = k

/-- R221: two different draws give two different packets of one plaintext, and both decode to it. -/
def Obligations.DifferentDraws : Prop :=
  ∀ (c : Config) (x s1 s2 : Bytes), s1.length = 32 → s2.length = 32 → s1 ≠ s2 →
    encodePacket c x s1 ≠ encodePacket c x s2 ∧
      decodeResult c (encodePacket c x s1) = (.ok, .none, x) ∧
      decodeResult c (encodePacket c x s2) = (.ok, .none, x)

/-- R219, its last sentence: a packet whose tag field alone was changed to another tag gives `TAMPERED`. -/
def Obligations.ChangedTagDetected : Prop :=
  ∀ (c : Config) (x seed tag : Bytes), seed.length = 32 → tag.length = 20 → tag ≠ sha1 x →
    decodeResult c (b64Enc (joinFields (hexEnc c.hexUpper tag) (hexEnc c.hexUpper (encryptBytes c seed x))
      (hexEnc c.hexUpper seed))) = (.tampered, .tagMismatch, [])

end
end

