-- ==== Sys2Proof/Laws/State.lean ====
section
/-! SUPPORT. What each shared update of the state does to each field, so that no later proof unfolds a record
update. -/

namespace Sys2Proof.Machine

/-! ### `clearInternal` (R41) -/

@[simp] theorem clearInternal_cfg (s : State) : (clearInternal s).cfg = s.cfg := rfl
@[simp] theorem clearInternal_rom (s : State) : (clearInternal s).rom = s.rom := rfl
@[simp] theorem clearInternal_bufs (s : State) :
    (clearInternal s).bufs = { Buffers.empty with out := s.bufs.out } := rfl
@[simp] theorem clearInternal_inw (s : State) : (clearInternal s).inw = [] := rfl
@[simp] theorem clearInternal_ilen (s : State) : (clearInternal s).ilen = 0 := rfl
@[simp] theorem clearInternal_upc (s : State) : (clearInternal s).upc = 0 := rfl
@[simp] theorem clearInternal_cmdreg (s : State) : (clearInternal s).cmdreg = .none := rfl
@[simp] theorem clearInternal_busy (s : State) : (clearInternal s).busy = s.busy := rfl
@[simp] theorem clearInternal_done (s : State) : (clearInternal s).done = s.done := rfl
@[simp] theorem clearInternal_fatal (s : State) : (clearInternal s).fatal = s.fatal := rfl
@[simp] theorem clearInternal_ovr (s : State) : (clearInternal s).ovr = s.ovr := rfl
@[simp] theorem clearInternal_resultCode (s : State) : (clearInternal s).resultCode = s.resultCode := rfl
@[simp] theorem clearInternal_resultCause (s : State) : (clearInternal s).resultCause = s.resultCause := rfl
@[simp] theorem clearInternal_ie (s : State) : (clearInternal s).ie = s.ie := rfl
@[simp] theorem clearInternal_diff (s : State) : (clearInternal s).diff = 0 := rfl
@[simp] theorem clearInternal_cipher (s : State) : (clearInternal s).cipher = CipherRegs.zero := rfl
@[simp] theorem clearInternal_digest (s : State) : (clearInternal s).digest = DigestRegs.zero := rfl
@[simp] theorem clearInternal_initPending (s : State) : (clearInternal s).initPending = s.initPending := rfl
@[simp] theorem clearInternal_rngOk (s : State) : (clearInternal s).rngOk = s.rngOk := rfl
@[simp] theorem clearInternal_cipherOk (s : State) : (clearInternal s).cipherOk = s.cipherOk := rfl
@[simp] theorem clearInternal_digestOk (s : State) : (clearInternal s).digestOk = s.digestOk := rfl
@[simp] theorem clearInternal_rng (s : State) : (clearInternal s).rng = s.rng := rfl
@[simp] theorem clearInternal_env (s : State) : (clearInternal s).env = s.env := rfl
@[simp] theorem clearInternal_reply (s : State) : (clearInternal s).reply = s.reply := rfl
@[simp] theorem clearInternal_freeCount (s : State) : (clearInternal s).freeCount = s.freeCount := rfl

/-! ### `complete` (R202) -/

@[simp] theorem complete_cfg (code : ResultCode) (cause : Cause) (s : State) :
    (complete code cause s).cfg = s.cfg := rfl
@[simp] theorem complete_rom (code : ResultCode) (cause : Cause) (s : State) :
    (complete code cause s).rom = s.rom := rfl
@[simp] theorem complete_bufs (code : ResultCode) (cause : Cause) (s : State) :
    (complete code cause s).bufs = { Buffers.empty with out := if code = .ok then s.bufs.out else [] } := by
  by_cases h : code = .ok <;> simp [complete, h]
@[simp] theorem complete_inw (code : ResultCode) (cause : Cause) (s : State) : (complete code cause s).inw = [] := rfl
@[simp] theorem complete_ilen (code : ResultCode) (cause : Cause) (s : State) :
    (complete code cause s).ilen = 0 := rfl
@[simp] theorem complete_upc (code : ResultCode) (cause : Cause) (s : State) : (complete code cause s).upc = 0 := rfl
@[simp] theorem complete_cmdreg (code : ResultCode) (cause : Cause) (s : State) :
    (complete code cause s).cmdreg = .none := rfl
@[simp] theorem complete_busy (code : ResultCode) (cause : Cause) (s : State) :
    (complete code cause s).busy = false := rfl
@[simp] theorem complete_done (code : ResultCode) (cause : Cause) (s : State) :
    (complete code cause s).done = true := rfl
@[simp] theorem complete_fatal (code : ResultCode) (cause : Cause) (s : State) :
    (complete code cause s).fatal = s.fatal := rfl
@[simp] theorem complete_ovr (code : ResultCode) (cause : Cause) (s : State) :
    (complete code cause s).ovr = s.ovr := rfl
@[simp] theorem complete_resultCode (code : ResultCode) (cause : Cause) (s : State) :
    (complete code cause s).resultCode = code := rfl
@[simp] theorem complete_resultCause (code : ResultCode) (cause : Cause) (s : State) :
    (complete code cause s).resultCause = cause := rfl
@[simp] theorem complete_ie (code : ResultCode) (cause : Cause) (s : State) : (complete code cause s).ie = s.ie := rfl
@[simp] theorem complete_diff (code : ResultCode) (cause : Cause) (s : State) :
    (complete code cause s).diff = 0 := rfl
@[simp] theorem complete_cipher (code : ResultCode) (cause : Cause) (s : State) :
    (complete code cause s).cipher = CipherRegs.zero := rfl
@[simp] theorem complete_digest (code : ResultCode) (cause : Cause) (s : State) :
    (complete code cause s).digest = DigestRegs.zero := rfl
@[simp] theorem complete_initPending (code : ResultCode) (cause : Cause) (s : State) :
    (complete code cause s).initPending = s.initPending := rfl
@[simp] theorem complete_rngOk (code : ResultCode) (cause : Cause) (s : State) :
    (complete code cause s).rngOk = s.rngOk := rfl
@[simp] theorem complete_cipherOk (code : ResultCode) (cause : Cause) (s : State) :
    (complete code cause s).cipherOk = s.cipherOk := rfl
@[simp] theorem complete_digestOk (code : ResultCode) (cause : Cause) (s : State) :
    (complete code cause s).digestOk = s.digestOk := rfl
@[simp] theorem complete_rng (code : ResultCode) (cause : Cause) (s : State) :
    (complete code cause s).rng = s.rng := rfl
@[simp] theorem complete_env (code : ResultCode) (cause : Cause) (s : State) :
    (complete code cause s).env = s.env := rfl
@[simp] theorem complete_reply (code : ResultCode) (cause : Cause) (s : State) :
    (complete code cause s).reply = s.reply := rfl
@[simp] theorem complete_freeCount (code : ResultCode) (cause : Cause) (s : State) :
    (complete code cause s).freeCount = s.freeCount := rfl

/-! ### `seqFault` (R238) -/

@[simp] theorem seqFault_cfg (cause : Cause) (s : State) : (seqFault cause s).cfg = s.cfg := rfl
@[simp] theorem seqFault_rom (cause : Cause) (s : State) : (seqFault cause s).rom = s.rom := rfl
@[simp] theorem seqFault_bufs (cause : Cause) (s : State) : (seqFault cause s).bufs = Buffers.empty := rfl
@[simp] theorem seqFault_inw (cause : Cause) (s : State) : (seqFault cause s).inw = [] := rfl
@[simp] theorem seqFault_ilen (cause : Cause) (s : State) : (seqFault cause s).ilen = 0 := rfl
@[simp] theorem seqFault_upc (cause : Cause) (s : State) : (seqFault cause s).upc = 0 := rfl
@[simp] theorem seqFault_cmdreg (cause : Cause) (s : State) : (seqFault cause s).cmdreg = .none := rfl
@[simp] theorem seqFault_busy (cause : Cause) (s : State) : (seqFault cause s).busy = false := rfl
@[simp] theorem seqFault_done (cause : Cause) (s : State) : (seqFault cause s).done = true := rfl
@[simp] theorem seqFault_fatal (cause : Cause) (s : State) : (seqFault cause s).fatal = s.fatal := rfl
@[simp] theorem seqFault_ovr (cause : Cause) (s : State) : (seqFault cause s).ovr = s.ovr := rfl
@[simp] theorem seqFault_resultCode (cause : Cause) (s : State) : (seqFault cause s).resultCode = .seqFault := rfl
@[simp] theorem seqFault_resultCause (cause : Cause) (s : State) : (seqFault cause s).resultCause = cause := rfl
@[simp] theorem seqFault_ie (cause : Cause) (s : State) : (seqFault cause s).ie = s.ie := rfl
@[simp] theorem seqFault_diff (cause : Cause) (s : State) : (seqFault cause s).diff = 0 := rfl
@[simp] theorem seqFault_cipher (cause : Cause) (s : State) : (seqFault cause s).cipher = CipherRegs.zero := rfl
@[simp] theorem seqFault_digest (cause : Cause) (s : State) : (seqFault cause s).digest = DigestRegs.zero := rfl
@[simp] theorem seqFault_initPending (cause : Cause) (s : State) :
    (seqFault cause s).initPending = s.initPending := rfl
@[simp] theorem seqFault_rngOk (cause : Cause) (s : State) : (seqFault cause s).rngOk = s.rngOk := rfl
@[simp] theorem seqFault_cipherOk (cause : Cause) (s : State) : (seqFault cause s).cipherOk = s.cipherOk := rfl
@[simp] theorem seqFault_digestOk (cause : Cause) (s : State) : (seqFault cause s).digestOk = s.digestOk := rfl
@[simp] theorem seqFault_rng (cause : Cause) (s : State) : (seqFault cause s).rng = s.rng := rfl
@[simp] theorem seqFault_env (cause : Cause) (s : State) : (seqFault cause s).env = s.env := rfl
@[simp] theorem seqFault_reply (cause : Cause) (s : State) : (seqFault cause s).reply = s.reply := rfl
@[simp] theorem seqFault_freeCount (cause : Cause) (s : State) : (seqFault cause s).freeCount = s.freeCount := rfl

/-! ### `beginCommand` and `startCommand` (R201) -/

@[simp] theorem beginCommand_cfg (s : State) : (beginCommand s).cfg = s.cfg := rfl
@[simp] theorem beginCommand_rom (s : State) : (beginCommand s).rom = s.rom := rfl
@[simp] theorem beginCommand_bufs (s : State) : (beginCommand s).bufs = { s.bufs with out := [] } := rfl
@[simp] theorem beginCommand_inw (s : State) : (beginCommand s).inw = s.inw := rfl
@[simp] theorem beginCommand_ilen (s : State) : (beginCommand s).ilen = s.ilen := rfl
@[simp] theorem beginCommand_upc (s : State) : (beginCommand s).upc = s.upc := rfl
@[simp] theorem beginCommand_cmdreg (s : State) : (beginCommand s).cmdreg = s.cmdreg := rfl
@[simp] theorem beginCommand_busy (s : State) : (beginCommand s).busy = s.busy := rfl
@[simp] theorem beginCommand_done (s : State) : (beginCommand s).done = false := rfl
@[simp] theorem beginCommand_fatal (s : State) : (beginCommand s).fatal = s.fatal := rfl
@[simp] theorem beginCommand_ovr (s : State) : (beginCommand s).ovr = s.ovr := rfl
@[simp] theorem beginCommand_resultCode (s : State) : (beginCommand s).resultCode = .none := rfl
@[simp] theorem beginCommand_resultCause (s : State) : (beginCommand s).resultCause = .none := rfl
@[simp] theorem beginCommand_ie (s : State) : (beginCommand s).ie = s.ie := rfl
@[simp] theorem beginCommand_diff (s : State) : (beginCommand s).diff = s.diff := rfl
@[simp] theorem beginCommand_cipher (s : State) : (beginCommand s).cipher = s.cipher := rfl
@[simp] theorem beginCommand_digest (s : State) : (beginCommand s).digest = s.digest := rfl
@[simp] theorem beginCommand_initPending (s : State) : (beginCommand s).initPending = s.initPending := rfl
@[simp] theorem beginCommand_rngOk (s : State) : (beginCommand s).rngOk = s.rngOk := rfl
@[simp] theorem beginCommand_cipherOk (s : State) : (beginCommand s).cipherOk = s.cipherOk := rfl
@[simp] theorem beginCommand_digestOk (s : State) : (beginCommand s).digestOk = s.digestOk := rfl
@[simp] theorem beginCommand_rng (s : State) : (beginCommand s).rng = s.rng := rfl
@[simp] theorem beginCommand_env (s : State) : (beginCommand s).env = s.env := rfl
@[simp] theorem beginCommand_reply (s : State) : (beginCommand s).reply = s.reply := rfl
@[simp] theorem beginCommand_freeCount (s : State) : (beginCommand s).freeCount = s.freeCount := rfl

@[simp] theorem startCommand_cfg (c : CmdReg) (entry : BitVec 5) (s : State) :
    (startCommand c entry s).cfg = s.cfg := rfl
@[simp] theorem startCommand_rom (c : CmdReg) (entry : BitVec 5) (s : State) :
    (startCommand c entry s).rom = s.rom := rfl
@[simp] theorem startCommand_bufs (c : CmdReg) (entry : BitVec 5) (s : State) :
    (startCommand c entry s).bufs = { s.bufs with inp := windowPrefix s.inw s.ilen.toNat } := rfl
@[simp] theorem startCommand_inw (c : CmdReg) (entry : BitVec 5) (s : State) :
    (startCommand c entry s).inw = s.inw := rfl
@[simp] theorem startCommand_ilen (c : CmdReg) (entry : BitVec 5) (s : State) :
    (startCommand c entry s).ilen = s.ilen := rfl
@[simp] theorem startCommand_upc (c : CmdReg) (entry : BitVec 5) (s : State) :
    (startCommand c entry s).upc = entry := rfl
@[simp] theorem startCommand_cmdreg (c : CmdReg) (entry : BitVec 5) (s : State) :
    (startCommand c entry s).cmdreg = c := rfl
@[simp] theorem startCommand_busy (c : CmdReg) (entry : BitVec 5) (s : State) :
    (startCommand c entry s).busy = true := rfl
@[simp] theorem startCommand_done (c : CmdReg) (entry : BitVec 5) (s : State) :
    (startCommand c entry s).done = s.done := rfl
@[simp] theorem startCommand_fatal (c : CmdReg) (entry : BitVec 5) (s : State) :
    (startCommand c entry s).fatal = s.fatal := rfl
@[simp] theorem startCommand_ovr (c : CmdReg) (entry : BitVec 5) (s : State) :
    (startCommand c entry s).ovr = s.ovr := rfl
@[simp] theorem startCommand_resultCode (c : CmdReg) (entry : BitVec 5) (s : State) :
    (startCommand c entry s).resultCode = s.resultCode := rfl
@[simp] theorem startCommand_resultCause (c : CmdReg) (entry : BitVec 5) (s : State) :
    (startCommand c entry s).resultCause = s.resultCause := rfl
@[simp] theorem startCommand_ie (c : CmdReg) (entry : BitVec 5) (s : State) :
    (startCommand c entry s).ie = s.ie := rfl
@[simp] theorem startCommand_diff (c : CmdReg) (entry : BitVec 5) (s : State) :
    (startCommand c entry s).diff = s.diff := rfl
@[simp] theorem startCommand_cipher (c : CmdReg) (entry : BitVec 5) (s : State) :
    (startCommand c entry s).cipher = s.cipher := rfl
@[simp] theorem startCommand_digest (c : CmdReg) (entry : BitVec 5) (s : State) :
    (startCommand c entry s).digest = s.digest := rfl
@[simp] theorem startCommand_initPending (c : CmdReg) (entry : BitVec 5) (s : State) :
    (startCommand c entry s).initPending = s.initPending := rfl
@[simp] theorem startCommand_rngOk (c : CmdReg) (entry : BitVec 5) (s : State) :
    (startCommand c entry s).rngOk = s.rngOk := rfl
@[simp] theorem startCommand_cipherOk (c : CmdReg) (entry : BitVec 5) (s : State) :
    (startCommand c entry s).cipherOk = s.cipherOk := rfl
@[simp] theorem startCommand_digestOk (c : CmdReg) (entry : BitVec 5) (s : State) :
    (startCommand c entry s).digestOk = s.digestOk := rfl
@[simp] theorem startCommand_rng (c : CmdReg) (entry : BitVec 5) (s : State) :
    (startCommand c entry s).rng = s.rng := rfl
@[simp] theorem startCommand_env (c : CmdReg) (entry : BitVec 5) (s : State) :
    (startCommand c entry s).env = s.env := rfl
@[simp] theorem startCommand_reply (c : CmdReg) (entry : BitVec 5) (s : State) :
    (startCommand c entry s).reply = s.reply := rfl
@[simp] theorem startCommand_freeCount (c : CmdReg) (entry : BitVec 5) (s : State) :
    (startCommand c entry s).freeCount = s.freeCount := rfl

/-! ### `initialise` (R262) and `resetEngine` (R260) -/

@[simp] theorem initialise_cfg (s : State) : (initialise s).cfg = s.cfg := rfl
@[simp] theorem initialise_rom (s : State) : (initialise s).rom = s.rom := rfl
@[simp] theorem initialise_bufs (s : State) : (initialise s).bufs = s.bufs := rfl
@[simp] theorem initialise_inw (s : State) : (initialise s).inw = s.inw := rfl
@[simp] theorem initialise_ilen (s : State) : (initialise s).ilen = s.ilen := rfl
@[simp] theorem initialise_upc (s : State) : (initialise s).upc = s.upc := rfl
@[simp] theorem initialise_cmdreg (s : State) : (initialise s).cmdreg = s.cmdreg := rfl
@[simp] theorem initialise_busy (s : State) : (initialise s).busy = s.busy := rfl
@[simp] theorem initialise_done (s : State) : (initialise s).done = s.done := rfl
@[simp] theorem initialise_fatal (s : State) : (initialise s).fatal = !(s.rngOk && s.cipherOk && s.digestOk) := rfl
@[simp] theorem initialise_ovr (s : State) : (initialise s).ovr = s.ovr := rfl
@[simp] theorem initialise_resultCode (s : State) : (initialise s).resultCode = s.resultCode := rfl
@[simp] theorem initialise_resultCause (s : State) : (initialise s).resultCause = s.resultCause := rfl
@[simp] theorem initialise_ie (s : State) : (initialise s).ie = s.ie := rfl
@[simp] theorem initialise_diff (s : State) : (initialise s).diff = s.diff := rfl
@[simp] theorem initialise_cipher (s : State) : (initialise s).cipher = s.cipher := rfl
@[simp] theorem initialise_digest (s : State) : (initialise s).digest = s.digest := rfl
@[simp] theorem initialise_initPending (s : State) : (initialise s).initPending = false := rfl
@[simp] theorem initialise_rngOk (s : State) : (initialise s).rngOk = s.rngOk := rfl
@[simp] theorem initialise_cipherOk (s : State) : (initialise s).cipherOk = s.cipherOk := rfl
@[simp] theorem initialise_digestOk (s : State) : (initialise s).digestOk = s.digestOk := rfl
@[simp] theorem initialise_rng (s : State) : (initialise s).rng = s.rng := rfl
@[simp] theorem initialise_env (s : State) : (initialise s).env = s.env := rfl
@[simp] theorem initialise_reply (s : State) : (initialise s).reply = s.reply := rfl
@[simp] theorem initialise_freeCount (s : State) : (initialise s).freeCount = s.freeCount := rfl

@[simp] theorem resetEngine_cfg (s : State) : (resetEngine s).cfg = s.cfg := rfl
@[simp] theorem resetEngine_rom (s : State) : (resetEngine s).rom = s.rom := rfl
@[simp] theorem resetEngine_bufs (s : State) : (resetEngine s).bufs = Buffers.empty := rfl
@[simp] theorem resetEngine_inw (s : State) : (resetEngine s).inw = [] := rfl
@[simp] theorem resetEngine_ilen (s : State) : (resetEngine s).ilen = 0 := rfl
@[simp] theorem resetEngine_upc (s : State) : (resetEngine s).upc = 0 := rfl
@[simp] theorem resetEngine_cmdreg (s : State) : (resetEngine s).cmdreg = .none := rfl
@[simp] theorem resetEngine_busy (s : State) : (resetEngine s).busy = false := rfl
@[simp] theorem resetEngine_done (s : State) : (resetEngine s).done = false := rfl
@[simp] theorem resetEngine_fatal (s : State) : (resetEngine s).fatal = false := rfl
@[simp] theorem resetEngine_ovr (s : State) : (resetEngine s).ovr = false := rfl
@[simp] theorem resetEngine_resultCode (s : State) : (resetEngine s).resultCode = .none := rfl
@[simp] theorem resetEngine_resultCause (s : State) : (resetEngine s).resultCause = .none := rfl
@[simp] theorem resetEngine_ie (s : State) : (resetEngine s).ie = false := rfl
@[simp] theorem resetEngine_diff (s : State) : (resetEngine s).diff = 0 := rfl
@[simp] theorem resetEngine_cipher (s : State) : (resetEngine s).cipher = CipherRegs.zero := rfl
@[simp] theorem resetEngine_digest (s : State) : (resetEngine s).digest = DigestRegs.zero := rfl
@[simp] theorem resetEngine_initPending (s : State) : (resetEngine s).initPending = true := rfl
@[simp] theorem resetEngine_rngOk (s : State) : (resetEngine s).rngOk = s.rngOk := rfl
@[simp] theorem resetEngine_cipherOk (s : State) : (resetEngine s).cipherOk = s.cipherOk := rfl
@[simp] theorem resetEngine_digestOk (s : State) : (resetEngine s).digestOk = s.digestOk := rfl
@[simp] theorem resetEngine_rng (s : State) : (resetEngine s).rng = s.rng := rfl
@[simp] theorem resetEngine_env (s : State) : (resetEngine s).env = s.env := rfl
@[simp] theorem resetEngine_reply (s : State) : (resetEngine s).reply = none := rfl
@[simp] theorem resetEngine_freeCount (s : State) : (resetEngine s).freeCount = s.freeCount := rfl

/-! ### `takeEvent`: only the list of events changes -/

theorem takeEvent_eq (s : State) : takeEvent s = { s with env := (takeEvent s).env } := by
  unfold takeEvent; split <;> rfl

@[simp] theorem takeEvent_cfg (s : State) : (takeEvent s).cfg = s.cfg := by rw [takeEvent_eq]
@[simp] theorem takeEvent_rom (s : State) : (takeEvent s).rom = s.rom := by rw [takeEvent_eq]
@[simp] theorem takeEvent_bufs (s : State) : (takeEvent s).bufs = s.bufs := by rw [takeEvent_eq]
@[simp] theorem takeEvent_inw (s : State) : (takeEvent s).inw = s.inw := by rw [takeEvent_eq]
@[simp] theorem takeEvent_ilen (s : State) : (takeEvent s).ilen = s.ilen := by rw [takeEvent_eq]
@[simp] theorem takeEvent_upc (s : State) : (takeEvent s).upc = s.upc := by rw [takeEvent_eq]
@[simp] theorem takeEvent_cmdreg (s : State) : (takeEvent s).cmdreg = s.cmdreg := by rw [takeEvent_eq]
@[simp] theorem takeEvent_busy (s : State) : (takeEvent s).busy = s.busy := by rw [takeEvent_eq]
@[simp] theorem takeEvent_done (s : State) : (takeEvent s).done = s.done := by rw [takeEvent_eq]
@[simp] theorem takeEvent_fatal (s : State) : (takeEvent s).fatal = s.fatal := by rw [takeEvent_eq]
@[simp] theorem takeEvent_ovr (s : State) : (takeEvent s).ovr = s.ovr := by rw [takeEvent_eq]
@[simp] theorem takeEvent_resultCode (s : State) : (takeEvent s).resultCode = s.resultCode := by rw [takeEvent_eq]
@[simp] theorem takeEvent_resultCause (s : State) : (takeEvent s).resultCause = s.resultCause := by rw [takeEvent_eq]
@[simp] theorem takeEvent_ie (s : State) : (takeEvent s).ie = s.ie := by rw [takeEvent_eq]
@[simp] theorem takeEvent_diff (s : State) : (takeEvent s).diff = s.diff := by rw [takeEvent_eq]
@[simp] theorem takeEvent_cipher (s : State) : (takeEvent s).cipher = s.cipher := by rw [takeEvent_eq]
@[simp] theorem takeEvent_digest (s : State) : (takeEvent s).digest = s.digest := by rw [takeEvent_eq]
@[simp] theorem takeEvent_initPending (s : State) : (takeEvent s).initPending = s.initPending := by rw [takeEvent_eq]
@[simp] theorem takeEvent_rngOk (s : State) : (takeEvent s).rngOk = s.rngOk := by rw [takeEvent_eq]
@[simp] theorem takeEvent_cipherOk (s : State) : (takeEvent s).cipherOk = s.cipherOk := by rw [takeEvent_eq]
@[simp] theorem takeEvent_digestOk (s : State) : (takeEvent s).digestOk = s.digestOk := by rw [takeEvent_eq]
@[simp] theorem takeEvent_rng (s : State) : (takeEvent s).rng = s.rng := by rw [takeEvent_eq]
@[simp] theorem takeEvent_reply (s : State) : (takeEvent s).reply = s.reply := by rw [takeEvent_eq]
@[simp] theorem takeEvent_freeCount (s : State) : (takeEvent s).freeCount = s.freeCount := by rw [takeEvent_eq]

@[simp] theorem takeEvent_env (s : State) :
    (takeEvent s).env = if s.initPending then s.env else s.env.tail := by
  unfold takeEvent; split <;> rfl

end Sys2Proof.Machine
end

