-- ==== Sys2Proof/Laws/Buffers.lean ====
section
/-! SUPPORT. The buffer file: a write is seen by the read of its own buffer and by no other. -/

namespace Sys2Proof.Machine

@[simp] theorem readBuf_writeBuf_same (bs : Buffers) (b : Buf) (v : Bytes) : readBuf (writeBuf bs b v) b = v := by
  cases b <;> rfl

theorem readBuf_writeBuf_of_ne (bs : Buffers) {b b' : Buf} (v : Bytes) (h : b' ≠ b) :
    readBuf (writeBuf bs b v) b' = readBuf bs b' := by
  cases b <;> cases b' <;> first | rfl | exact absurd rfl h

theorem writeBuf_out_of_ne (bs : Buffers) {b : Buf} (v : Bytes) (h : b ≠ .out) : (writeBuf bs b v).out = bs.out :=
  readBuf_writeBuf_of_ne bs (b' := .out) v (Ne.symm h)

/-- Two buffer files with the same twelve strings are equal. -/
theorem buffers_ext {x y : Buffers} (h : ∀ b, readBuf x b = readBuf y b) : x = y := by
  cases x; cases y
  have := h .inp; have := h .out; have := h .blob; have := h .tagHex; have := h .ctHex; have := h .keyHex
  have := h .ct; have := h .pt; have := h .seed; have := h .key; have := h .tag; have := h .xtag
  simp_all [readBuf]

@[simp] theorem readBuf_empty (b : Buf) : readBuf Buffers.empty b = [] := by cases b <;> rfl

/-- A buffer file that holds nothing but `OUT`. -/
theorem readBuf_onlyOut_of_ne (o : Bytes) {b : Buf} (h : b ≠ .out) :
    readBuf { Buffers.empty with out := o } b = [] := by
  cases b <;> first | rfl | exact absurd rfl h

@[simp] theorem readBuf_out (bs : Buffers) : readBuf bs .out = bs.out := rfl

end Sys2Proof.Machine
end

