-- ==== Sys2Proof/Laws/Memory.lean ====
section
/-! SUPPORT. The input window's memory: reads after writes, and the canonical form, which every memory operation
keeps and in which equal contents are equal data. -/

namespace Sys2Proof.Machine

theorem Memory.wf_cons {a : Nat} {v : Byte} {m : Memory} :
    Memory.wf ((a, v) :: m) = true ↔ v ≠ 0 ∧ (∀ c ∈ m, a < c.1) ∧ Memory.wf m = true := by
  have h : Memory.wf ((a, v) :: m) =
      (decide (v ≠ Memory.unlisted) && m.all (fun c => decide (a < c.1)) && Memory.wf m) := rfl
  rw [h, Bool.and_eq_true, Bool.and_eq_true, decide_eq_true_iff, List.all_eq_true, and_assoc]
  simp only [decide_eq_true_iff, Memory.unlisted]
  rfl

theorem Memory.read_eq_zero_of_lt : ∀ {m : Memory} {a : Nat}, (∀ c ∈ m, a < c.1) → Memory.read m a = 0
  | [], _, _ => rfl
  | (b, v) :: m, a, h => by
    have hb : a < b := h (b, v) (by simp)
    have : a ≠ b := by omega
    simp [Memory.read, this, Memory.read_eq_zero_of_lt (m := m) (fun c hc => h c (by simp [hc]))]

/-- Every index of the memory after a write is the written one or was there before. -/
theorem Memory.mem_write_index : ∀ {m : Memory} {a : Nat} {v : Byte} {c : Host.Cell},
    c ∈ Memory.write m a v → c.1 = a ∨ c ∈ m
  | [], a, v, c, h => by
    unfold Memory.write at h
    split at h
    · simp at h
    · simp at h; exact .inl (by rw [h])
  | (b, w) :: m, a, v, c, h => by
    unfold Memory.write at h
    split at h
    · split at h
      · exact .inr h
      · rcases List.mem_cons.mp h with h | h
        · exact .inl (by rw [h])
        · exact .inr h
    · split at h
      · split at h
        · exact .inr (by simp [h])
        · rcases List.mem_cons.mp h with h | h
          · exact .inl (by rw [h])
          · exact .inr (by simp [h])
      · rcases List.mem_cons.mp h with h | h
        · exact .inr (by simp [h])
        · rcases Memory.mem_write_index h with h | h
          · exact .inl h
          · exact .inr (by simp [h])

/-- Every memory operation keeps the canonical form. -/
theorem Memory.write_wf : ∀ {m : Memory} (a : Nat) (v : Byte), Memory.wf m = true →
    Memory.wf (Memory.write m a v) = true
  | [], a, v, _ => by
    unfold Memory.write
    split
    · rfl
    · rename_i h; exact Memory.wf_cons.mpr ⟨h, by simp, rfl⟩
  | (b, w) :: m, a, v, h => by
    obtain ⟨hw, hlt, hm⟩ := Memory.wf_cons.mp h
    unfold Memory.write
    split
    · rename_i hab
      split
      · exact h
      · rename_i hv
        refine Memory.wf_cons.mpr ⟨hv, ?_, h⟩
        intro c hc
        rcases List.mem_cons.mp hc with hc | hc
        · rw [hc]; exact hab
        · exact Nat.lt_trans hab (hlt c hc)
    · rename_i hab
      split
      · rename_i hEq
        split
        · exact hm
        · rename_i hv; exact Memory.wf_cons.mpr ⟨hv, by rw [hEq]; exact hlt, hm⟩
      · rename_i hne
        refine Memory.wf_cons.mpr ⟨hw, ?_, Memory.write_wf a v hm⟩
        intro c hc
        rcases Memory.mem_write_index hc with hc | hc
        · omega
        · exact hlt c hc

/-- R57: the byte written is the byte read. -/
theorem Memory.read_write_same : ∀ {m : Memory} (a : Nat) (v : Byte), Memory.wf m = true →
    Memory.read (Memory.write m a v) a = v
  | [], a, v, _ => by
    unfold Memory.write
    split
    · rename_i h; rw [h]; rfl
    · simp [Memory.read]
  | (b, w) :: m, a, v, h => by
    obtain ⟨hw, hlt, hm⟩ := Memory.wf_cons.mp h
    unfold Memory.write
    split
    · rename_i hab
      split
      · rename_i hv
        rw [hv]
        apply Memory.read_eq_zero_of_lt
        intro c hc
        rcases List.mem_cons.mp hc with hc | hc
        · rw [hc]; exact hab
        · exact Nat.lt_trans hab (hlt c hc)
      · simp [Memory.read]
    · split
      · rename_i hEq
        split
        · rename_i hv; rw [hv, hEq]; exact Memory.read_eq_zero_of_lt hlt
        · simp [Memory.read]
      · rename_i hne
        simp [Memory.read, hne, Memory.read_write_same a v hm]

/-- R57: every other byte of the window stands as before. -/
theorem Memory.read_write_of_ne : ∀ {m : Memory} {a b : Nat} (v : Byte), b ≠ a →
    Memory.read (Memory.write m a v) b = Memory.read m b
  | [], a, b, v, h => by
    unfold Memory.write
    split
    · rfl
    · simp [Memory.read, h]
  | (c, w) :: m, a, b, v, h => by
    unfold Memory.write
    split
    · split
      · rfl
      · simp [Memory.read, h]
    · split
      · rename_i hEq
        split <;> simp [Memory.read, h, ← hEq]
      · simp only [Memory.read]
        split
        · rfl
        · exact Memory.read_write_of_ne v h

/-- In the canonical form equal contents are equal data. -/
theorem Memory.eq_of_read_eq : ∀ {m n : Memory}, Memory.wf m = true → Memory.wf n = true →
    (∀ a, Memory.read m a = Memory.read n a) → m = n
  | [], [], _, _, _ => rfl
  | [], (a, v) :: n, _, hn, h => by
    have := h a
    simp [Memory.read, Memory.unlisted] at this
    exact absurd this.symm (Memory.wf_cons.mp hn).1
  | (a, v) :: m, [], hm, _, h => by
    have := h a
    simp [Memory.read, Memory.unlisted] at this
    exact absurd this (Memory.wf_cons.mp hm).1
  | (a, v) :: m, (b, w) :: n, hm, hn, h => by
    obtain ⟨hv, hlm, hm'⟩ := Memory.wf_cons.mp hm
    obtain ⟨hw, hln, hn'⟩ := Memory.wf_cons.mp hn
    have ha := h a
    have hb := h b
    simp only [Memory.read, if_true] at ha hb
    have hab : a = b := by
      rcases Nat.lt_trichotomy a b with hlt | hEq | hlt
      · rw [if_neg (by omega),
          Memory.read_eq_zero_of_lt (fun c hc => Nat.lt_trans hlt (hln c hc))] at ha
        exact absurd ha hv
      · exact hEq
      · rw [if_neg (by omega),
          Memory.read_eq_zero_of_lt (fun c hc => Nat.lt_trans hlt (hlm c hc))] at hb
        exact absurd hb.symm hw
    subst hab
    rw [if_pos rfl] at ha
    have : m = n := Memory.eq_of_read_eq hm' hn' (by
      intro x
      have hx := h x
      simp only [Memory.read] at hx
      by_cases hxa : x = a
      · rw [hxa, Memory.read_eq_zero_of_lt hlm, Memory.read_eq_zero_of_lt hln]
      · simpa [hxa] using hx)
    rw [ha, this]

/-- A window whose bytes are all zero lists nothing. -/
theorem Memory.eq_nil_of_read_zero {m : Memory} (h : Memory.wf m = true) (h0 : ∀ a, Memory.read m a = 0) : m = [] :=
  Memory.eq_of_read_eq h rfl h0

@[simp] theorem windowPrefix_length (m : Memory) (n : Nat) : (windowPrefix m n).length = n := by
  simp [windowPrefix]

theorem reset_memory_wf : Memory.wf State.reset.inw = true := rfl

end Sys2Proof.Machine
end

