-- ==== Sys2Proof/Laws/Ops.lean ====
section
/-! SUPPORT. One lemma for each shared operation of Machine/Ops.lean, saying once all it can do. -/

namespace Sys2Proof.Machine

/-! ### Completion -/

/-- A state that holds nothing in its internal buffers, its working registers, `DIFF`, `CMDREG` and `UPC`. -/
theorem internalClear_iff (s : State) :
    InternalClear s ↔ s.bufs = { Buffers.empty with out := s.bufs.out } ∧ s.diff = 0 ∧ s.cmdreg = .none ∧
      s.upc = 0 ∧ s.cipher = CipherRegs.zero ∧ s.digest = DigestRegs.zero := by
  unfold InternalClear
  constructor
  · rintro ⟨h, rest⟩
    refine ⟨buffers_ext fun b => ?_, rest⟩
    by_cases hb : b = .out
    · subst hb; rfl
    · rw [h b hb, readBuf_onlyOut_of_ne _ hb]
  · rintro ⟨h, rest⟩
    refine ⟨fun b hb => ?_, rest⟩
    rw [h]; exact readBuf_onlyOut_of_ne _ hb

/-- All that `complete` does (R202). -/
theorem complete_completedWith (code : ResultCode) (cause : Cause) (s : State) :
    CompletedWith code cause (if code = .ok then s.bufs.out else []) s (complete code cause s) := by
  refine ⟨rfl, rfl, by simp, rfl, rfl, ?_, rfl, fun k => rfl, rfl, rfl, rfl, rfl, rfl, rfl, rfl, rfl⟩
  rw [internalClear_iff]; simp

/-- Nothing inside the engine but `OUT` bears on what a completion leaves. -/
theorem complete_congr {s t : State} (code : ResultCode) (cause : Cause) (hout : code = .ok → s.bufs.out = t.bufs.out)
    (hcfg : s.cfg = t.cfg) (hrom : s.rom = t.rom) (hfatal : s.fatal = t.fatal) (hovr : s.ovr = t.ovr)
    (hie : s.ie = t.ie) (hpending : s.initPending = t.initPending) (hr : s.rngOk = t.rngOk)
    (hc : s.cipherOk = t.cipherOk) (hd : s.digestOk = t.digestOk) (hrng : s.rng = t.rng) (henv : s.env = t.env)
    (hreply : s.reply = t.reply) (hfree : s.freeCount = t.freeCount) :
    complete code cause s = complete code cause t := by
  have hb : (complete code cause s).bufs = (complete code cause t).bufs := by
    rw [complete_bufs, complete_bufs]
    by_cases h : code = .ok
    · simp [h, hout h]
    · simp [h]
  simp only [complete, clearInternal] at hb ⊢
  simp_all

/-- The result a cipher failure has (R236): by the latched command, and one of the two when none is latched. -/
inductive CipherFailureCode : CmdReg → ResultCode → Prop
  | decode : CipherFailureCode .decode .malformed
  | encode : CipherFailureCode .encode .badCipherText
  | none_malformed : CipherFailureCode .none .malformed
  | none_badCipherText : CipherFailureCode .none .badCipherText

/-- All that `abort` can do: a completion with the failure's cause and a result code fixed by its kind and, for a
cipher failure, by the latched command. -/
theorem abort_cases (f : Failure) (s : State) :
    ∃ code n, abort f s = complete code f.cause { s with freeCount := n } ∧
      ((f.kind = .malformed ∧ code = .malformed ∧ n = s.freeCount) ∨
        (f.kind = .tampered ∧ code = .tampered ∧ n = s.freeCount) ∨
        (f.kind = .badCipherText ∧ CipherFailureCode s.cmdreg code ∧ (s.cmdreg ≠ .none → n = s.freeCount))) := by
  unfold abort
  split
  · exact ⟨_, s.freeCount, rfl, .inl ⟨by assumption, rfl, rfl⟩⟩
  · exact ⟨_, s.freeCount, rfl, .inr (.inl ⟨by assumption, rfl, rfl⟩)⟩
  · rename_i hk hc
    exact ⟨_, s.freeCount, rfl, .inr (.inr ⟨hk, by rw [hc]; exact .decode, fun _ => rfl⟩)⟩
  · rename_i hk hc
    exact ⟨_, s.freeCount, rfl, .inr (.inr ⟨hk, by rw [hc]; exact .encode, fun _ => rfl⟩)⟩
  · rename_i hk hc
    split
    · exact ⟨_, s.freeCount + 1, rfl, .inr (.inr ⟨hk, by rw [hc]; exact .none_badCipherText, fun h => absurd hc h⟩)⟩
    · exact ⟨_, s.freeCount + 1, rfl, .inr (.inr ⟨hk, by rw [hc]; exact .none_malformed, fun h => absurd hc h⟩)⟩

/-- An abort is never a success and never a sequencer fault. -/
theorem abort_code (f : Failure) (s : State) :
    (abort f s).resultCode = .malformed ∨ (abort f s).resultCode = .tampered ∨
      (abort f s).resultCode = .badCipherText := by
  obtain ⟨code, n, h, hc⟩ := abort_cases f s
  rw [h, complete_resultCode]
  rcases hc with ⟨_, h, _⟩ | ⟨_, h, _⟩ | ⟨_, h, _⟩
  · exact .inl h
  · exact .inr (.inl h)
  · generalize s.cmdreg = r at h
    cases h <;> simp

/-! ### The end of a step -/

/-- All that `advance` can do (R27, R238). -/
theorem advance_cases (s : State) :
    (s.upc ≠ 31#5 ∧ advance s = { s with upc := s.upc + 1 }) ∨
      (s.upc = 31#5 ∧ advance s = seqFault .stepPrecond s) := by
  unfold advance
  by_cases h : s.upc = 31#5
  · exact .inr ⟨h, if_pos h⟩
  · exact .inl ⟨h, if_neg h⟩

/-- All that `store` can do (R20, R69, R238). -/
theorem store_cases (dst : Buf) (v : Bytes) (s : State) :
    (Fits dst v s ∧ store dst v s = { s with bufs := writeBuf s.bufs dst v, upc := s.upc + 1 }) ∨
      (¬ Fits dst v s ∧ store dst v s = seqFault .stepPrecond s) := by
  unfold store Fits
  by_cases hv : v.length ≤ capacity s.cfg dst
  · rw [if_pos hv]
    rcases advance_cases { s with bufs := writeBuf s.bufs dst v } with ⟨hu, h⟩ | ⟨hu, h⟩
    · exact .inl ⟨⟨hv, hu⟩, h⟩
    · refine .inr ⟨fun hn => hn.2 hu, h.trans ?_⟩
      exact complete_congr _ _ (fun h => nomatch h) rfl rfl rfl rfl rfl rfl rfl rfl rfl rfl rfl rfl rfl
  · exact .inr ⟨fun h => hv h.1, if_neg hv⟩

theorem store_of_fits {dst : Buf} {v : Bytes} {s : State} (h : Fits dst v s) :
    store dst v s = { s with bufs := writeBuf s.bufs dst v, upc := s.upc + 1 } := by
  rcases store_cases dst v s with ⟨_, h'⟩ | ⟨hn, _⟩
  · exact h'
  · exact absurd h hn

/-- The whole frame of a store that fits. -/
theorem store_writesOnly {dst : Buf} {v : Bytes} {s : State} (h : Fits dst v s) :
    WritesOnly dst v s (store dst v s) ∧ SameSource s (store dst v s) ∧ SameWorking s (store dst v s) := by
  rw [store_of_fits h]
  refine ⟨⟨readBuf_writeBuf_same _ _ _, fun b hb => readBuf_writeBuf_of_ne _ _ hb, rfl, ?_, fun hd k => ?_⟩, rfl,
    rfl, rfl⟩
  · exact ⟨rfl, rfl, rfl, rfl, rfl, rfl, rfl, rfl, rfl, rfl, rfl, rfl, fun _ => rfl, rfl, rfl, rfl, rfl, rfl, rfl, rfl⟩
  · exact congrArg (List.getD · k 0) (writeBuf_out_of_ne _ _ hd)

/-! ### Accepting a command -/

/-- A sequencer's start: the command's latch value, its entry address and the longest input it takes (R71). -/
inductive Command (c : Config) : Word32 → CmdReg → BitVec 5 → Nat → Prop
  | encode : Command c 1#32 .encode 0x00#5 c.maxPt
  | decode : Command c 2#32 .decode 0x10#5 (maxPkt c)

/-- All that a write to `CMD` can do (R201). -/
theorem acceptCommand_cases (v : Word32) (s : State) :
    (s.fatal = true ∧ acceptCommand v s = s) ∨
      (s.fatal = false ∧ s.busy = true ∧ acceptCommand v s = { s with ovr := true }) ∨
      (s.fatal = false ∧ s.busy = false ∧ v ≠ 1#32 ∧ v ≠ 2#32 ∧
        acceptCommand v s = complete .illegalCmd .cmdReserved (beginCommand s)) ∨
      (s.fatal = false ∧ s.busy = false ∧ ∃ c entry cap, Command s.cfg v c entry cap ∧
        ((cap < s.ilen.toNat ∧ acceptCommand v s = complete .capacity .inTooLong (beginCommand s)) ∨
          (s.ilen.toNat ≤ cap ∧ acceptCommand v s = startCommand c entry (beginCommand s)))) := by
  unfold acceptCommand
  by_cases hf : s.fatal = true
  · exact .inl ⟨hf, if_pos hf⟩
  rw [if_neg hf]
  by_cases hb : s.busy = true
  · exact .inr (.inl ⟨by simpa using hf, hb, if_pos hb⟩)
  rw [if_neg hb]
  have hf' : s.fatal = false := by simpa using hf
  have hb' : s.busy = false := by simpa using hb
  by_cases h1 : v = 1#32
  · subst h1
    refine .inr (.inr (.inr ⟨hf', hb', .encode, 0x00#5, s.cfg.maxPt, .encode, ?_⟩))
    rw [if_pos rfl]
    by_cases hl : s.cfg.maxPt < s.ilen.toNat
    · exact .inl ⟨hl, if_pos hl⟩
    · exact .inr ⟨Nat.le_of_not_lt hl, if_neg hl⟩
  rw [if_neg h1]
  by_cases h2 : v = 2#32
  · subst h2
    refine .inr (.inr (.inr ⟨hf', hb', .decode, 0x10#5, maxPkt s.cfg, .decode, ?_⟩))
    rw [if_pos rfl]
    by_cases hl : maxPkt s.cfg < s.ilen.toNat
    · exact .inl ⟨hl, if_pos hl⟩
    · exact .inr ⟨Nat.le_of_not_lt hl, if_neg hl⟩
  rw [if_neg h2]
  exact .inr (.inr (.inl ⟨hf', hb', h1, h2, rfl⟩))

/-! ### Operand legality and preconditions -/

theorem whenLegal_of_wf {i : Instr} {s t : State} (h : i.wf = true) : whenLegal i s t = t := if_pos h

theorem whenLegal_of_not_wf {i : Instr} {s t : State} (h : i.wf = false) :
    whenLegal i s t = seqFault .stepReserved s := by
  unfold whenLegal; rw [h]; rfl

theorem whenHolds_of_true {b : Bool} {s t : State} (h : b = true) : whenHolds b s t = t := if_pos h

theorem whenHolds_of_false {b : Bool} {s t : State} (h : b = false) :
    whenHolds b s t = seqFault .stepPrecond s := by
  unfold whenHolds; rw [h]; rfl

/-! ### Sizes (R10) -/

theorem maxBlob_le_blobCap (c : Config) : maxBlob c ≤ blobCap c := by
  unfold blobCap maxPkt; omega

theorem blobCap_le_maxBlob (c : Config) : blobCap c ≤ maxBlob c + 2 := by
  unfold blobCap maxPkt; omega

theorem maxCt_le_ctCap (c : Config) : maxCt c ≤ ctCap c := by
  have := maxBlob_le_blobCap c
  unfold ctCap ctHexCap
  unfold maxBlob at this
  omega

theorem maxPt_lt_maxCt (c : Config) : c.maxPt < maxCt c := by
  unfold maxCt; omega

theorem ptCap_le_maxPkt (c : Config) : ptCap c ≤ maxPkt c := by
  unfold ptCap ctCap ctHexCap blobCap; omega

theorem maxPt_le_maxPkt (c : Config) : c.maxPt ≤ maxPkt c := by
  unfold maxPkt maxBlob maxCt; omega

theorem maxPkt_le_window {c : Config} (h : c.Wf) : maxPkt c ≤ 0x10000 := by
  have := h.1
  unfold maxPkt maxBlob maxCt; omega

end Sys2Proof.Machine
end

