-- ==== Sys2Proof/Laws/Cipher.lean ====
section
/-! SUPPORT. The layers of the cipher: each keeps the length of the state, and each inverse layer undoes its layer
(R123 to R134); the key schedule has its 60 words (R130, R131); blocks, padding and chaining keep lengths. -/

namespace Sys2Proof.Machine

/-! ### GF(2^8) (R123) -/

theorem xtime_eq (a : Byte) : xtime a = (a <<< 1) ^^^ (if a.getLsbD 7 then 0x1b#8 else 0) := by
  revert a; decide +kernel

theorem xor_left_comm (a b c : Byte) : a ^^^ (b ^^^ c) = b ^^^ (a ^^^ c) := by
  rw [← BitVec.xor_assoc, BitVec.xor_comm a b, BitVec.xor_assoc]

/-- Multiplication by `x` distributes over addition. -/
theorem xtime_xor (a b : Byte) : xtime (a ^^^ b) = xtime a ^^^ xtime b := by
  simp only [xtime_eq, BitVec.shiftLeft_xor_distrib, BitVec.getLsbD_xor]
  cases a.getLsbD 7 <;> cases b.getLsbD 7 <;>
    simp [BitVec.xor_assoc, BitVec.xor_comm, xor_left_comm]

/-! ### The S-boxes (R124, R125) -/

theorem invSbox_sbox (v : Byte) : invSbox (sbox v) = v := by
  revert v; decide +kernel

theorem sbox_invSbox (v : Byte) : sbox (invSbox v) = v := by
  revert v; decide +kernel

@[simp] theorem subBytes_length (s : Bytes) : (subBytes s).length = s.length := by simp [subBytes]

@[simp] theorem invSubBytes_length (s : Bytes) : (invSubBytes s).length = s.length := by simp [invSubBytes]

theorem invSubBytes_subBytes (s : Bytes) : invSubBytes (subBytes s) = s := by
  simp [invSubBytes, subBytes, Function.comp_def, invSbox_sbox]

theorem subBytes_invSubBytes (s : Bytes) : subBytes (invSubBytes s) = s := by
  simp [invSubBytes, subBytes, Function.comp_def, sbox_invSbox]

/-! ### States of 16 bytes -/

/-- A 16-byte string written out. -/
theorem eq_sixteen {s : Bytes} (h : s.length = 16) :
    ∃ a0 a1 a2 a3 a4 a5 a6 a7 a8 a9 a10 a11 a12 a13 a14 a15 : Byte,
      s = [a0, a1, a2, a3, a4, a5, a6, a7, a8, a9, a10, a11, a12, a13, a14, a15] := by
  rcases s with _ | ⟨a0, _ | ⟨a1, _ | ⟨a2, _ | ⟨a3, _ | ⟨a4, _ | ⟨a5, _ | ⟨a6, _ | ⟨a7, _ | ⟨a8, _ | ⟨a9, _ | ⟨a10,
    _ | ⟨a11, _ | ⟨a12, _ | ⟨a13, _ | ⟨a14, _ | ⟨a15, _ | ⟨a16, s⟩⟩⟩⟩⟩⟩⟩⟩⟩⟩⟩⟩⟩⟩⟩⟩⟩ <;>
    first
    | (simp at h; done)
    | exact ⟨a0, a1, a2, a3, a4, a5, a6, a7, a8, a9, a10, a11, a12, a13, a14, a15, rfl⟩

@[simp] theorem shiftRows_length (s : Bytes) : (shiftRows s).length = 16 := by simp [shiftRows]

@[simp] theorem invShiftRows_length (s : Bytes) : (invShiftRows s).length = 16 := by simp [invShiftRows]

theorem invShiftRows_shiftRows {s : Bytes} (h : s.length = 16) : invShiftRows (shiftRows s) = s := by
  obtain ⟨a0, a1, a2, a3, a4, a5, a6, a7, a8, a9, a10, a11, a12, a13, a14, a15, rfl⟩ := eq_sixteen h
  rfl

theorem shiftRows_invShiftRows {s : Bytes} (h : s.length = 16) : shiftRows (invShiftRows s) = s := by
  obtain ⟨a0, a1, a2, a3, a4, a5, a6, a7, a8, a9, a10, a11, a12, a13, a14, a15, rfl⟩ := eq_sixteen h
  rfl

/-! ### The column maps (R128, R129) -/

theorem times3_xor (a b : Byte) : times3 (a ^^^ b) = times3 a ^^^ times3 b := by
  simp only [times3, xtime_xor]; ac_rfl

theorem times9_xor (a b : Byte) : times9 (a ^^^ b) = times9 a ^^^ times9 b := by
  simp only [times9, xtime_xor]; ac_rfl

theorem times11_xor (a b : Byte) : times11 (a ^^^ b) = times11 a ^^^ times11 b := by
  simp only [times11, xtime_xor]; ac_rfl

theorem times13_xor (a b : Byte) : times13 (a ^^^ b) = times13 a ^^^ times13 b := by
  simp only [times13, xtime_xor]; ac_rfl

theorem times14_xor (a b : Byte) : times14 (a ^^^ b) = times14 a ^^^ times14 b := by
  simp only [times14, xtime_xor]; ac_rfl

/-- The product of the two matrices' rows and columns: 1 on the diagonal, 0 beside it. -/
theorem column_products (a : Byte) :
    (times14 (xtime a) ^^^ times11 a ^^^ times13 a ^^^ times9 (times3 a) = a ∧
      times14 (times3 a) ^^^ times11 (xtime a) ^^^ times13 a ^^^ times9 a = 0 ∧
      times14 a ^^^ times11 (times3 a) ^^^ times13 (xtime a) ^^^ times9 a = 0 ∧
      times14 a ^^^ times11 a ^^^ times13 (times3 a) ^^^ times9 (xtime a) = 0) ∧
    (xtime (times14 a) ^^^ times3 (times9 a) ^^^ times13 a ^^^ times11 a = a ∧
      xtime (times11 a) ^^^ times3 (times14 a) ^^^ times9 a ^^^ times13 a = 0 ∧
      xtime (times13 a) ^^^ times3 (times11 a) ^^^ times14 a ^^^ times9 a = 0 ∧
      xtime (times9 a) ^^^ times3 (times13 a) ^^^ times11 a ^^^ times14 a = 0) := by
  revert a; decide +kernel

/-- A sum of four sums whose columns add up to one term and three zeros. -/
theorem xor_columns {p0 p1 p2 p3 q0 q1 q2 q3 r0 r1 r2 r3 t0 t1 t2 t3 v : Byte}
    (h0 : p0 ^^^ q0 ^^^ r0 ^^^ t0 = v) (h1 : p1 ^^^ q1 ^^^ r1 ^^^ t1 = 0) (h2 : p2 ^^^ q2 ^^^ r2 ^^^ t2 = 0)
    (h3 : p3 ^^^ q3 ^^^ r3 ^^^ t3 = 0) :
    (p0 ^^^ p1 ^^^ p2 ^^^ p3) ^^^ (q0 ^^^ q1 ^^^ q2 ^^^ q3) ^^^ (r0 ^^^ r1 ^^^ r2 ^^^ r3) ^^^
      (t0 ^^^ t1 ^^^ t2 ^^^ t3) = v := by
  calc
    _ = (p0 ^^^ q0 ^^^ r0 ^^^ t0) ^^^ (p1 ^^^ q1 ^^^ r1 ^^^ t1) ^^^ (p2 ^^^ q2 ^^^ r2 ^^^ t2) ^^^
        (p3 ^^^ q3 ^^^ r3 ^^^ t3) := by ac_rfl
    _ = v := by rw [h0, h1, h2, h3]; simp

/-- R129: "It is the inverse of `MixColumns`", on one column. -/
theorem invMixColumn_mixColumn (a0 a1 a2 a3 : Byte) :
    mapColumns invMixColumn (mixColumn a0 a1 a2 a3) = [a0, a1, a2, a3] := by
  obtain ⟨⟨d0, x0, y0, z0⟩, -⟩ := column_products a0
  obtain ⟨⟨d1, x1, y1, z1⟩, -⟩ := column_products a1
  obtain ⟨⟨d2, x2, y2, z2⟩, -⟩ := column_products a2
  obtain ⟨⟨d3, x3, y3, z3⟩, -⟩ := column_products a3
  simp only [mixColumn, mapColumns, invMixColumn, times9_xor, times11_xor, times13_xor, times14_xor,
    List.append_nil, List.cons.injEq, and_true]
  refine ⟨xor_columns d0 x1 y2 z3, ?_, ?_, ?_⟩
  · refine Eq.trans ?_ (xor_columns d1 x2 y3 z0); ac_rfl
  · refine Eq.trans ?_ (xor_columns d2 x3 y0 z1); ac_rfl
  · refine Eq.trans ?_ (xor_columns d3 x0 y1 z2); ac_rfl

theorem mixColumn_invMixColumn (a0 a1 a2 a3 : Byte) :
    mapColumns mixColumn (invMixColumn a0 a1 a2 a3) = [a0, a1, a2, a3] := by
  obtain ⟨-, d0, x0, y0, z0⟩ := column_products a0
  obtain ⟨-, d1, x1, y1, z1⟩ := column_products a1
  obtain ⟨-, d2, x2, y2, z2⟩ := column_products a2
  obtain ⟨-, d3, x3, y3, z3⟩ := column_products a3
  simp only [mixColumn, mapColumns, invMixColumn, xtime_xor, times3_xor,
    List.append_nil, List.cons.injEq, and_true]
  refine ⟨xor_columns d0 x1 y2 z3, ?_, ?_, ?_⟩
  · refine Eq.trans ?_ (xor_columns d1 x2 y3 z0); ac_rfl
  · refine Eq.trans ?_ (xor_columns d2 x3 y0 z1); ac_rfl
  · refine Eq.trans ?_ (xor_columns d3 x0 y1 z2); ac_rfl

/-- A column map on a string whose first four bytes are a mixed column. -/
theorem invMix_mixColumn_append (a0 a1 a2 a3 : Byte) (rest : Bytes) :
    mapColumns invMixColumn (mixColumn a0 a1 a2 a3 ++ rest) = [a0, a1, a2, a3] ++ mapColumns invMixColumn rest := by
  rw [← invMixColumn_mixColumn a0 a1 a2 a3]; rfl

theorem mix_invMixColumn_append (a0 a1 a2 a3 : Byte) (rest : Bytes) :
    mapColumns mixColumn (invMixColumn a0 a1 a2 a3 ++ rest) = [a0, a1, a2, a3] ++ mapColumns mixColumn rest := by
  rw [← mixColumn_invMixColumn a0 a1 a2 a3]; rfl

/-- R129: `InvMixColumns` undoes `MixColumns`. -/
theorem invMixColumns_mixColumns {s : Bytes} (h : s.length = 16) : invMixColumns (mixColumns s) = s := by
  obtain ⟨a0, a1, a2, a3, a4, a5, a6, a7, a8, a9, a10, a11, a12, a13, a14, a15, rfl⟩ := eq_sixteen h
  simp only [invMixColumns, mixColumns, mapColumns.eq_1, invMix_mixColumn_append]
  simp [mapColumns]

theorem mixColumns_invMixColumns {s : Bytes} (h : s.length = 16) : mixColumns (invMixColumns s) = s := by
  obtain ⟨a0, a1, a2, a3, a4, a5, a6, a7, a8, a9, a10, a11, a12, a13, a14, a15, rfl⟩ := eq_sixteen h
  simp only [invMixColumns, mixColumns, mapColumns.eq_1, mix_invMixColumn_append]
  simp [mapColumns]

theorem mixColumns_length {s : Bytes} (h : s.length = 16) : (mixColumns s).length = 16 := by
  obtain ⟨a0, a1, a2, a3, a4, a5, a6, a7, a8, a9, a10, a11, a12, a13, a14, a15, rfl⟩ := eq_sixteen h
  rfl

theorem invMixColumns_length {s : Bytes} (h : s.length = 16) : (invMixColumns s).length = 16 := by
  obtain ⟨a0, a1, a2, a3, a4, a5, a6, a7, a8, a9, a10, a11, a12, a13, a14, a15, rfl⟩ := eq_sixteen h
  rfl

/-! ### Adding a string twice -/

theorem xorBytes_length {x y : Bytes} (h : x.length = y.length) : (xorBytes x y).length = x.length := by
  simp [xorBytes, h]

theorem xorBytes_self_right : ∀ {x y : Bytes}, x.length = y.length → xorBytes (xorBytes x y) y = x
  | [], [], _ => rfl
  | a :: x, b :: y, h => by
    have ih := xorBytes_self_right (x := x) (y := y) (by simpa using h)
    simp only [xorBytes, List.zipWith_cons_cons, List.cons.injEq] at ih ⊢
    exact ⟨by rw [BitVec.xor_assoc, BitVec.xor_self, BitVec.xor_zero], ih⟩

/-! ### The key schedule (R130 to R132) -/

theorem extendWords_length (n : Nat) : ∀ ws, (extendWords n ws).length = ws.length + n := by
  induction n with
  | zero => intro ws; rfl
  | succ n ih => intro ws; simp only [extendWords, ih, List.length_append, List.length_singleton]; omega

/-- R130: the key schedule is 60 words. -/
@[simp] theorem keyExpansion_length (key : Bytes) : (keyExpansion key).length = 60 := by
  simp [keyExpansion, extendWords_length, keyWords]

theorem flatMap_bytes_length (ws : List RoundWord) : (ws.flatMap RoundWord.bytes).length = 4 * ws.length := by
  induction ws with
  | nil => rfl
  | cons w ws ih => simp only [List.flatMap_cons, List.length_append, ih, RoundWord.bytes, List.length_cons,
      List.length_nil]; omega

/-- R132: a round key is sixteen bytes, for each of the rounds 0 to 14. -/
theorem roundKey_length {w : List RoundWord} (hw : w.length = 60) {k : Nat} (hk : k ≤ 14) :
    (roundKey w k).length = 16 := by
  simp only [roundKey, flatMap_bytes_length, List.length_take, List.length_drop, hw]; omega

theorem addRoundKey_length {w : List RoundWord} (hw : w.length = 60) {s : Bytes} (hs : s.length = 16) {k : Nat}
    (hk : k ≤ 14) : (addRoundKey w s k).length = 16 := by
  rw [addRoundKey, xorBytes_length (by rw [hs, roundKey_length hw hk]), hs]

theorem addRoundKey_twice {w : List RoundWord} (hw : w.length = 60) {s : Bytes} (hs : s.length = 16) {k : Nat}
    (hk : k ≤ 14) : addRoundKey w (addRoundKey w s k) k = s :=
  xorBytes_self_right (by rw [hs, roundKey_length hw hk])

/-! ### Lengths of the block function (R133, R134) -/

theorem encRounds_length {w : List RoundWord} (hw : w.length = 60) {s : Bytes} (hs : s.length = 16) :
    ∀ {n : Nat}, n ≤ 13 → (encRounds w s n).length = 16
  | 0, _ => hs
  | n + 1, h => addRoundKey_length hw (mixColumns_length (shiftRows_length _)) (by omega)

theorem aesEnc_length {w : List RoundWord} (hw : w.length = 60) (x : Bytes) : (aesEnc w x).length = 16 :=
  addRoundKey_length hw (shiftRows_length _) (by omega)

theorem decRounds_length {w : List RoundWord} (hw : w.length = 60) :
    ∀ {n : Nat} {s : Bytes}, n ≤ 13 → s.length = 16 → (decRounds w n s).length = 16
  | 0, _, _, hs => hs
  | n + 1, s, h, _ => by
    refine decRounds_length hw (n := n) (by omega) (invMixColumns_length (addRoundKey_length hw ?_ (by omega)))
    rw [invSubBytes_length, invShiftRows_length]

theorem aesDec_length {w : List RoundWord} (hw : w.length = 60) (y : Bytes) : (aesDec w y).length = 16 :=
  addRoundKey_length hw (by rw [invSubBytes_length, invShiftRows_length]) (by omega)

/-! ### Padding, blocks and chaining (R140 to R147) -/

/-- R140. -/
theorem pad_length (m : Bytes) : (pad m).length = 16 * (m.length / 16 + 1) := by
  simp only [pad, List.length_append, List.length_replicate]; omega

@[simp] theorem blocksOf_length (size k : Nat) (p : Bytes) : (blocksOf size k p).length = k := by
  induction k generalizing p with
  | zero => rfl
  | succ k ih => simp [blocksOf, ih]

/-- The blocks of a string of whole blocks make up the string. -/
theorem blocksOf_flatten (size : Nat) : ∀ (k : Nat) (p : Bytes), p.length = size * k → (blocksOf size k p).flatten = p
  | 0, p, h => by
    have : p = [] := List.eq_nil_of_length_eq_zero (by simpa using h)
    rw [this]; rfl
  | k + 1, p, h => by
    rw [blocksOf, List.flatten_cons, blocksOf_flatten size k, List.take_append_drop]
    rw [List.length_drop, h, Nat.mul_succ]; omega

/-- Every block of a string of whole blocks has the block's size. -/
theorem length_of_mem_blocksOf (size : Nat) : ∀ (k : Nat) (p : Bytes), p.length = size * k →
    ∀ b ∈ blocksOf size k p, b.length = size
  | 0, _, _, b, hb => by simp [blocksOf] at hb
  | k + 1, p, h, b, hb => by
    have hp : size ≤ p.length := by rw [h, Nat.mul_succ]; omega
    rcases List.mem_cons.mp hb with hb | hb
    · rw [hb, List.length_take]; omega
    · refine length_of_mem_blocksOf size k (p.drop size) ?_ b hb
      rw [List.length_drop, h, Nat.mul_succ]; omega

/-- Blocks of one size, put together and cut again. -/
theorem blocksOf_of_flatten (size : Nat) : ∀ (bs : List Bytes), (∀ b ∈ bs, b.length = size) →
    blocksOf size bs.length bs.flatten = bs
  | [], _ => rfl
  | b :: bs, h => by
    have hb : b.length = size := h b (by simp)
    have ih := blocksOf_of_flatten size bs (fun c hc => h c (by simp [hc]))
    simp only [List.length_cons, blocksOf, List.flatten_cons, List.cons.injEq]
    rw [List.take_append_of_le_length (by omega), List.take_of_length_le (by omega),
      List.drop_append_of_le_length (by omega), List.drop_of_length_le (by omega), List.nil_append]
    exact ⟨rfl, ih⟩

theorem flatten_length_of_blocks (size : Nat) : ∀ (bs : List Bytes), (∀ b ∈ bs, b.length = size) →
    bs.flatten.length = size * bs.length
  | [], _ => by simp
  | b :: bs, h => by
    have hb : b.length = size := h b (by simp)
    have ih := flatten_length_of_blocks size bs (fun c hc => h c (by simp [hc]))
    rw [List.flatten_cons, List.length_append, ih, hb, List.length_cons, Nat.mul_succ]; omega

theorem cbcEncBlocks_shape {w : List RoundWord} (hw : w.length = 60) : ∀ (cv : Bytes) (ps : List Bytes),
    (cbcEncBlocks w cv ps).length = ps.length ∧ ∀ c ∈ cbcEncBlocks w cv ps, c.length = 16
  | _, [] => ⟨rfl, by simp [cbcEncBlocks]⟩
  | cv, p :: ps => by
    have ih := cbcEncBlocks_shape hw (aesEnc w (xorBytes p cv)) ps
    refine ⟨by simp [cbcEncBlocks, ih.1], fun c hc => ?_⟩
    rcases List.mem_cons.mp hc with hc | hc
    · rw [hc]; exact aesEnc_length hw _
    · exact ih.2 c hc

/-- Encryption gives one 16-byte block for each block it is given, in either mode. -/
theorem encryptBlocks_shape (c : Config) {w : List RoundWord} (hw : w.length = 60) (ps : List Bytes) :
    (encryptBlocks c w ps).length = ps.length ∧ ∀ b ∈ encryptBlocks c w ps, b.length = 16 := by
  unfold encryptBlocks
  split
  · exact cbcEncBlocks_shape hw _ _
  · refine ⟨by simp, fun b hb => ?_⟩
    obtain ⟨p, _, rfl⟩ := List.mem_map.mp hb
    exact aesEnc_length hw p

theorem cbcDecBlocks_shape {w : List RoundWord} (hw : w.length = 60) : ∀ (cv : Bytes) (cs : List Bytes),
    cv.length = 16 → (∀ c ∈ cs, c.length = 16) →
    (cbcDecBlocks w cv cs).length = cs.length ∧ ∀ p ∈ cbcDecBlocks w cv cs, p.length = 16
  | _, [], _, _ => ⟨rfl, by simp [cbcDecBlocks]⟩
  | cv, c :: cs, hcv, hcs => by
    have hc : c.length = 16 := hcs c (by simp)
    have ih := cbcDecBlocks_shape hw c cs hc (fun d hd => hcs d (by simp [hd]))
    refine ⟨by simp [cbcDecBlocks, ih.1], fun p hp => ?_⟩
    rcases List.mem_cons.mp hp with hp | hp
    · rw [hp, xorBytes_length (by rw [aesDec_length hw, hcv]), aesDec_length hw]
    · exact ih.2 p hp

/-- Decryption gives one 16-byte block for each 16-byte block it is given, in either mode. -/
theorem decryptBlocks_shape (c : Config) {w : List RoundWord} (hw : w.length = 60) {cs : List Bytes}
    (hcs : ∀ b ∈ cs, b.length = 16) :
    (decryptBlocks c w cs).length = cs.length ∧ ∀ b ∈ decryptBlocks c w cs, b.length = 16 := by
  unfold decryptBlocks
  split
  · exact cbcDecBlocks_shape hw _ _ (by simp) hcs
  · refine ⟨by simp, fun b hb => ?_⟩
    obtain ⟨p, _, rfl⟩ := List.mem_map.mp hb
    exact aesDec_length hw p

/-- The padded message a ciphertext of whole blocks stands for has the ciphertext's length. -/
theorem decryptPadded_length (c : Config) (key : Bytes) {x : Bytes} (hx : x.length % 16 = 0) :
    (decryptPadded c key x).length = x.length := by
  have hx' : x.length = 16 * (x.length / 16) := by omega
  have hb := length_of_mem_blocksOf 16 _ x hx'
  obtain ⟨hl, hs⟩ := decryptBlocks_shape c (keyExpansion_length key) hb
  rw [decryptPadded, flatten_length_of_blocks 16 _ hs, hl, blocksOf_length]; omega

/-- R141: an accepted padding takes off between 1 and 16 bytes, the last ones, and leaves the rest. -/
theorem unpad_ok {p m : Bytes} (h : unpad p = .ok m) :
    ∃ n, 1 ≤ n ∧ n ≤ 16 ∧ (p.getLastD 0).toNat = n ∧
      p.drop (p.length - n) = List.replicate n (BitVec.ofNat 8 n) ∧ m = p.take (p.length - n) := by
  unfold unpad at h
  dsimp only at h
  split at h
  · exact absurd h (by simp)
  · rename_i hn
    push Not at hn
    exact ⟨_, by omega, hn.2.1, rfl, hn.2.2, (Except.ok.inj h).symm⟩

/-- Whatever makes a padding fail, the failure is R141's. -/
theorem unpad_error {p : Bytes} {f : Failure} (h : unpad p = .error f) : f = ⟨.badCipherText, .ctPadding⟩ := by
  unfold unpad at h
  dsimp only at h
  split at h
  · exact (Except.error.inj h).symm
  · exact absurd h (by simp)

/-- R149: a decryption that fails does so for the length or for the padding. -/
theorem decryptBytes_error {c : Config} {key x : Bytes} {f : Failure} (h : decryptBytes c key x = .error f) :
    f.kind = .badCipherText ∧
      ((ctLengthOk x = false ∧ f.cause = .ctLength) ∨ (ctLengthOk x = true ∧ f.cause = .ctPadding)) := by
  unfold decryptBytes at h
  split at h
  · rename_i hl; rw [unpad_error h]; exact ⟨rfl, .inr ⟨hl, rfl⟩⟩
  · rename_i hl; rw [← Except.error.inj h]; exact ⟨rfl, .inl ⟨by simpa using hl, rfl⟩⟩

/-! ### Vectors -/

/-- R146: the length of a ciphertext. -/
theorem encryptBytes_length (c : Config) (key m : Bytes) :
    (encryptBytes c key m).length = 16 * (m.length / 16 + 1) := by
  have hp := pad_length m
  have hs := encryptBlocks_shape c (keyExpansion_length key) (blocksOf 16 ((pad m).length / 16) (pad m))
  rw [encryptBytes, flatten_length_of_blocks 16 _ hs.2, hs.1, blocksOf_length, hp]; omega

/-- R148: the length of a plaintext that passes both checks. -/
theorem decryptBytes_ok_length {c : Config} {key x m : Bytes} (h : decryptBytes c key x = .ok m) :
    x.length % 16 = 0 ∧ m.length + 1 ≤ x.length ∧ x.length ≤ m.length + 16 := by
  unfold decryptBytes at h
  split at h
  · rename_i hok
    obtain ⟨n, h1, h16, _, _, rfl⟩ := unpad_ok h
    have hl : x.length ≠ 0 ∧ x.length % 16 = 0 := of_decide_eq_true hok
    have := decryptPadded_length c key hl.2
    rw [List.length_take, this]; omega
  · exact absurd h (by simp)

/-- `vectorOf` keeps a list of the right length. -/
theorem vectorOf_toList {α : Type} {n : Nat} {d : α} {l : List α} (h : l.length = n) :
    (vectorOf n d l).toList = l := by
  simp only [vectorOf, Vector.toList_mk]
  rw [List.take_append_of_le_length (by omega), List.take_of_length_le (by omega)]

end Sys2Proof.Machine
end

