-- ==== Sys2Proof/Laws/PerInstr.lean ====
section
/-! SUPPORT. The family of lemmas with one member per instruction (LAWS.json): at which of the two levels of R70 an
instruction stands, and that no instruction has the all-zero word that fills the unused part of the ROM (R78). -/

namespace Sys2Proof.Laws.EncodingLevel

/-- R70, R78: a command is a code written to `CMD`, every other instruction a step word, and neither is 0. -/
def Statement (i : Instr) : Prop :=
  ((∃ c, encode i = .cmd c) ↔ i = .encode ∨ i = .decode) ∧ encode i ≠ .step 0 ∧ encode i ≠ .cmd 0

/-- A step word with a non-zero `op` is not 0. -/
theorem stepWord_ne_zero {op : BitVec 8} (h : op ≠ 0) (dst src : BitVec 4) : stepWord op dst src ≠ 0 := by
  intro h0
  apply h
  have : (stepWord op dst src).extractLsb' 8 8 = op := by
    unfold stepWord
    apply BitVec.eq_of_getLsbD_eq
    intro i hi
    simp only [BitVec.getLsbD_extractLsb', hi, decide_true, Bool.true_and, BitVec.getLsbD_append]
    rw [if_neg (by omega), if_neg (by omega)]
    congr 1; omega
  rw [← this, h0]; rfl

theorem of_step {i : Instr} {op : BitVec 8} {dst src : BitVec 4} (h : op ≠ 0) (he : encode i = .step (stepWord op dst src))
    (hi : i ≠ .encode ∧ i ≠ .decode) : Statement i := by
  unfold Statement
  rw [he]
  refine ⟨⟨?_, ?_⟩, fun h0 => stepWord_ne_zero h dst src (CodeWord.step.inj h0), fun h0 => nomatch h0⟩
  · rintro ⟨_, hc⟩
    exact nomatch hc
  · rintro (hc | hc)
    · exact absurd hc hi.1
    · exact absurd hc hi.2

theorem done : Statement .done := of_step (by decide) rfl (by simp)

theorem move (dst src : Buf) : Statement (.move dst src) := of_step (by decide) rfl (by simp)

theorem newseed : Statement .newseed := of_step (by decide) rfl (by simp)

theorem derivekey : Statement .derivekey := of_step (by decide) rfl (by simp)

theorem encrypt (dst src : Buf) : Statement (.encrypt dst src) := of_step (by decide) rfl (by simp)

theorem decrypt (dst src : Buf) : Statement (.decrypt dst src) := of_step (by decide) rfl (by simp)

theorem digest (dst src : Buf) : Statement (.digest dst src) := of_step (by decide) rfl (by simp)

theorem tagcmp : Statement .tagcmp := of_step (by decide) rfl (by simp)

theorem hexenc (dst src : Buf) : Statement (.hexenc dst src) := of_step (by decide) rfl (by simp)

theorem hexdec (dst src : Buf) : Statement (.hexdec dst src) := of_step (by decide) rfl (by simp)

theorem b64enc (dst src : Buf) : Statement (.b64enc dst src) := of_step (by decide) rfl (by simp)

theorem b64dec (dst src : Buf) : Statement (.b64dec dst src) := of_step (by decide) rfl (by simp)

theorem join : Statement .join := of_step (by decide) rfl (by simp)

theorem split : Statement .split := of_step (by decide) rfl (by simp)

theorem encode : Statement .encode := by
  refine ⟨⟨fun _ => .inl rfl, fun _ => ⟨_, rfl⟩⟩, ?_, ?_⟩
  · intro h; exact nomatch h
  · intro h; exact absurd (CodeWord.cmd.inj h) (by decide)

theorem decode : Statement .decode := by
  refine ⟨⟨fun _ => .inr rfl, fun _ => ⟨_, rfl⟩⟩, ?_, ?_⟩
  · intro h; exact nomatch h
  · intro h; exact absurd (CodeWord.cmd.inj h) (by decide)

end Sys2Proof.Laws.EncodingLevel
end

