-- ==== Sys2Proof/Laws/Units.lean ====
section
/-! SUPPORT. The text units and the digest core: the lengths of what they give, and the failures they can raise. -/

namespace Sys2Proof.Machine

/-! ### Hex (R162 to R165) -/

/-- R163. -/
@[simp] theorem hexEnc_length (u : Bool) (b : Bytes) : (hexEnc u b).length = 2 * b.length := by
  induction b with
  | nil => rfl
  | cons v b ih => simp only [hexEnc, List.flatMap_cons, List.length_append] at ih ⊢; rw [ih]; simp [hexPair]; omega

theorem hexVals_length {u : Bool} : ∀ {t : Bytes} {vs : List (BitVec 4)}, hexVals u t = some vs → vs.length = t.length
  | [], vs, h => by simp [hexVals] at h; simp [← h]
  | c :: t, vs, h => by
    unfold hexVals at h
    split at h
    · rename_i v vs' _ hvs
      rw [← Option.some.inj h, List.length_cons, List.length_cons, hexVals_length hvs]
    · exact absurd h (by simp)

theorem nibblePairs_length : ∀ vs : List (BitVec 4), (nibblePairs vs).length = vs.length / 2
  | [] => rfl
  | [_] => by simp [nibblePairs]
  | h :: l :: rest => by
    simp only [nibblePairs, List.length_cons, nibblePairs_length rest]; omega

/-- R165: what `HEXDEC` accepts is an even number of characters, two for each byte it gives. -/
theorem hexDec_ok_length {u : Bool} {t b : Bytes} (h : hexDec u t = .ok b) : t.length = 2 * b.length := by
  unfold hexDec at h
  split at h
  · exact absurd h (by simp)
  · rename_i hl
    split at h
    · rename_i vs hvs
      rw [← Except.ok.inj h, nibblePairs_length, hexVals_length hvs]; omega
    · exact absurd h (by simp)

/-- R165: the failures of `HEXDEC`, the length first. -/
theorem hexDec_error {u : Bool} {t : Bytes} {f : Failure} (h : hexDec u t = .error f) :
    f.kind = .malformed ∧
      ((t.length % 2 = 1 ∧ f.cause = .hexLength) ∨ (t.length % 2 = 0 ∧ f.cause = .hexChar)) := by
  unfold hexDec at h
  split at h
  · rename_i hl; rw [← Except.error.inj h]; exact ⟨rfl, .inl ⟨hl, rfl⟩⟩
  · rename_i hl
    split at h
    · exact absurd h (by simp)
    · rw [← Except.error.inj h]; exact ⟨rfl, .inr ⟨by omega, rfl⟩⟩

/-! ### Base64 (R174 to R181) -/

/-- R175. -/
theorem b64Enc_length : ∀ b : Bytes, (b64Enc b).length = 4 * ((b.length + 2) / 3)
  | [] => rfl
  | [_] => by simp [b64Enc, b64Final1, groupFields]
  | [_, _] => by simp [b64Enc, b64Final2, groupFields]
  | x0 :: x1 :: x2 :: rest => by
    simp only [b64Enc, List.length_append, b64Enc_length rest, List.length_cons]
    simp [b64Group, groupFields]; omega

theorem b64Vals_length : ∀ {t : Bytes} {vs : List (BitVec 6)}, b64Vals t = some vs → vs.length = t.length
  | [], vs, h => by simp [b64Vals] at h; simp [← h]
  | c :: t, vs, h => by
    unfold b64Vals at h
    split at h
    · rename_i v vs' _ hvs
      rw [← Option.some.inj h, List.length_cons, List.length_cons, b64Vals_length hvs]
    · exact absurd h (by simp)

theorem b64Bytes_length : ∀ vs : List (BitVec 6), (b64Bytes vs).length = 3 * (vs.length / 4) + (vs.length % 4 - 1)
  | [] => rfl
  | [_] => by simp [b64Bytes]
  | [_, _] => by simp [b64Bytes]
  | [_, _, _] => by simp [b64Bytes]
  | c0 :: c1 :: c2 :: c3 :: rest => by
    simp only [b64Bytes, List.length_cons, b64Bytes_length rest]; omega

theorem b64PadCount_le (t : Bytes) : b64PadCount t ≤ 2 := by
  unfold b64PadCount; split
  · split <;> omega
  · omega

/-- R181: the length of what `B64DEC` gives. -/
theorem b64Dec_ok_length {t b : Bytes} (h : b64Dec t = .ok b) :
    t.length % 4 = 0 ∧ b.length = 3 * (t.length / 4) - b64PadCount t := by
  have hp := b64PadCount_le t
  unfold b64Dec at h
  split at h
  · exact absurd h (by simp)
  · rename_i hl
    split at h
    · exact absurd h (by simp)
    · rename_i v hv
      split at h
      · exact absurd h (by simp)
      · have hvl := b64Vals_length hv
        rw [List.length_take] at hvl
        have h0 : t.length = 0 → b64PadCount t = 0 := fun h0 => by
          have : t = [] := List.eq_nil_of_length_eq_zero h0
          subst this; rfl
        refine ⟨by omega, ?_⟩
        rw [← Except.ok.inj h, b64Bytes_length, hvl]
        omega

/-- R177: the values are missing exactly when some character has none. -/
theorem b64Vals_eq_none {t : Bytes} : b64Vals t = none ↔ ∃ ch ∈ t, b64Val ch = none := by
  induction t with
  | nil => simp [b64Vals]
  | cons c t ih =>
    rw [b64Vals]
    cases hc : b64Val c with
    | none => simp [hc]
    | some v =>
      cases ht : b64Vals t with
      | none => simpa [hc] using ih.1 ht
      | some vs => simpa [hc, ht] using ih

/-- R177: the failures of `B64DEC`, the first in the order of its checks. -/
theorem b64Dec_error {t : Bytes} {f : Failure} (h : b64Dec t = .error f) :
    f.kind = .malformed ∧
      f.cause =
        if t.length % 4 ≠ 0 then .b64Length
        else if ∃ ch ∈ t.take (t.length - b64PadCount t), b64Val ch = none then .b64Char
        else .b64Trailing := by
  unfold b64Dec at h
  split at h
  · rename_i hl; rw [← Except.error.inj h]; exact ⟨rfl, (if_pos hl).symm⟩
  · rename_i hl
    rw [if_neg hl]
    split at h
    · rename_i hv; rw [← Except.error.inj h]; exact ⟨rfl, (if_pos (b64Vals_eq_none.1 hv)).symm⟩
    · rename_i hv
      split at h
      · rw [← Except.error.inj h, if_neg fun hn => by simp [b64Vals_eq_none.2 hn] at hv]; exact ⟨rfl, rfl⟩
      · exact absurd h (by simp)

/-! ### The digest core (R92 to R98) -/

/-- R98: the output is 20 bytes. -/
@[simp] theorem sha1_length (m : Bytes) : (sha1 m).length = 20 := by simp [sha1, chainBytes, be32bytes]

/-- R92: `z` makes the length come out, and no smaller number does. -/
theorem zeroCount_least (n : Nat) :
    (n + 1 + zeroCount n) % 64 = 56 ∧ ∀ z < zeroCount n, (n + 1 + z) % 64 ≠ 56 := by
  unfold zeroCount
  refine ⟨by omega, fun z hz => by omega⟩

/-- R92: the number of 64-byte blocks of the padded message. -/
theorem shaPad_length (m : Bytes) : (shaPad m).length = 64 * ((m.length + 8) / 64 + 1) := by
  simp only [shaPad, List.length_append, List.length_replicate, be64bytes, be32bytes, List.length_cons,
    List.length_nil, zeroCount]
  omega

theorem extendSchedule_length (n : Nat) : ∀ ws, (extendSchedule n ws).length = ws.length + n := by
  induction n with
  | zero => intro ws; rfl
  | succ n ih => intro ws; simp only [extendSchedule, ih, List.length_append, List.length_singleton]; omega

/-- R94: the schedule has 80 words. -/
@[simp] theorem schedule_length (block : Bytes) : (schedule block).length = 80 := by
  simp [schedule, extendSchedule_length]

/-! ### The framer (R192, R193) -/

/-- R193: the three fields of a long enough blob have their lengths and make it up. -/
theorem fields_of_blob {x : Bytes} (h : minBlob ≤ x.length) :
    (tagField x).length = 40 ∧ (keyField x).length = 64 ∧ (ctField x).length = x.length - 104 := by
  unfold minBlob at h
  simp only [tagField, keyField, ctField, tagHexLen, keyHexLen, List.length_take, List.length_drop]
  omega

end Sys2Proof.Machine
end

