-- ==== Sys2Proof/Laws/Step.lean ====
section
/-! SUPPORT. All that one step can do, said once: by the agent that takes it, by the host's access, and by the
instruction the sequencer runs. -/

namespace Sys2Proof.Machine

/-! ### The agent of a step -/

theorem turn_of_pending {s : State} (h : s.initPending = true) : turn s = .initialise := by
  simp [turn, h]

theorem takeEvent_of_not_pending {s : State} (h : s.initPending = false) :
    takeEvent s = { s with env := s.env.tail } := by
  simp [takeEvent, h]

theorem turn_of_sequencerNext {s : State} (h : SequencerNext s) : turn s = .engine := by
  obtain ⟨hp, he⟩ := h
  rcases he with he | he
  · simp [turn, hp, he]
  · cases hl : s.env with
    | nil => simp [hl] at he
    | cons e rest => simp only [hl, List.head?_cons, Option.some.injEq] at he; subst he; simp [turn, hp, hl]

theorem turn_of_hostNext {s : State} {a : HostAccess} {rest : List Event} (h : HostNext a rest s) :
    turn s = .host a := by
  simp [turn, h.1, h.2]

theorem takeEvent_of_hostNext {s : State} {a : HostAccess} {rest : List Event} (h : HostNext a rest s) :
    takeEvent s = { s with env := rest } := by
  rw [takeEvent_of_not_pending h.1, h.2]; rfl

/-- A step by the sequencer. -/
theorem step_of_sequencerNext {s : State} (h : SequencerNext s) :
    step s = engineTurn { s with env := s.env.tail } := by
  unfold step; rw [turn_of_sequencerNext h, takeEvent_of_not_pending h.1]

/-- A step by the host. -/
theorem step_of_hostNext {s : State} {a : HostAccess} {rest : List Event} (h : HostNext a rest s) :
    step s = hostTurn a { s with env := rest } := by
  unfold step; rw [turn_of_hostNext h, takeEvent_of_hostNext h]

/-- All the agents a step can be taken by, each with what it makes of the state. -/
theorem step_cases {s t : State} (h : step s = .next t) :
    (s.initPending = true ∧ t = initialise s) ∨
      (s.initPending = false ∧
        (engineTurn { s with env := s.env.tail } = .next t ∨
          (∃ a, hostTurn a { s with env := s.env.tail } = .next t) ∨
          t = resetEngine { s with env := s.env.tail } ∨
          (∃ bytes, t = { s with env := s.env.tail, rng := s.rng ++ bytes }) ∨
          ∃ r c d, t = { s with env := s.env.tail, rngOk := r, cipherOk := c, digestOk := d })) := by
  by_cases hp : s.initPending = true
  · unfold step at h
    rw [turn_of_pending hp] at h
    exact .inl ⟨hp, (Host.Outcome.next.inj h).symm⟩
  · replace hp : s.initPending = false := by simpa using hp
    refine .inr ⟨hp, ?_⟩
    unfold step at h
    rw [takeEvent_of_not_pending hp] at h
    unfold turn at h
    rw [if_neg (by simp [hp])] at h
    split at h
    · split at * <;> simp_all
    · exact .inl h
    · exact .inr (.inl ⟨_, h⟩)
    · exact .inr (.inr (.inl (Host.Outcome.next.inj h).symm))
    · exact .inr (.inr (.inr (.inl ⟨_, (Host.Outcome.next.inj h).symm⟩)))
    · exact .inr (.inr (.inr (.inr ⟨_, _, _, (Host.Outcome.next.inj h).symm⟩)))

/-! ### The host's access -/

/-- All that a host write to `STATUS` can do (R61). -/
theorem writeStatus_cases (v : Word32) (s : State) :
    ∃ ovr, writeStatus v s = { s with ovr := ovr } ∨
      (s.done = true ∧ writeStatus v s = { s with ovr := ovr, done := false, bufs := { s.bufs with out := [] } }) := by
  have hr : release s = s ∨ (s.done = true ∧ release s = { s with done := false, bufs := { s.bufs with out := [] } }) := by
    unfold release
    by_cases hd : s.done = true
    · exact .inr ⟨hd, if_pos hd⟩
    · exact .inl (if_neg hd)
  have h1 : ∃ s1, writeStatus v s = (if v.getLsbD 3 then { s1 with ovr := false } else s1) ∧
      (s1 = s ∨ (s.done = true ∧ s1 = { s with done := false, bufs := { s.bufs with out := [] } })) := by
    refine ⟨if v.getLsbD 1 then release s else s, rfl, ?_⟩
    split
    · exact hr
    · exact .inl rfl
  obtain ⟨s1, h, h1⟩ := h1
  rw [h]
  by_cases h3 : v.getLsbD 3 = true
  · rw [if_pos h3]
    rcases h1 with rfl | ⟨hd, rfl⟩
    · exact ⟨false, .inl rfl⟩
    · exact ⟨false, .inr ⟨hd, rfl⟩⟩
  · rw [if_neg h3]
    rcases h1 with rfl | ⟨hd, rfl⟩
    · exact ⟨s1.ovr, .inl rfl⟩
    · exact ⟨s.ovr, .inr ⟨hd, rfl⟩⟩

/-- All that a host write other than a command can do. -/
theorem hostWrite_cases (space : Space) (k width : Nat) (v : Word32) (s : State) :
    hostWrite space k width v s = s ∨
      (s.fatal = false ∧ s.busy = true ∧ hostWrite space k width v s = { s with ovr := true }) ∨
      (s.fatal = false ∧ s.busy = false ∧ hostWrite space k width v s = { s with ilen := v }) ∨
      (s.fatal = false ∧ s.busy = false ∧ k < maxPkt s.cfg ∧
        ∃ b, hostWrite space k width v s = { s with inw := Memory.write s.inw k b }) ∨
      (∃ b, hostWrite space k width v s = { s with ie := b }) ∨
      hostWrite space k width v s = writeStatus v s := by
  unfold hostWrite
  split
  · cases space with
    | reg =>
      show writeReg k v s = s ∨ _
      unfold writeReg
      split
      · exact .inr (.inr (.inr (.inr (.inr rfl))))
      · exact .inr (.inr (.inr (.inr (.inl ⟨_, rfl⟩))))
      · unfold guardedWrite
        split
        · exact .inl rfl
        · split
          · exact .inr (.inl ⟨by simp_all, by assumption, rfl⟩)
          · exact .inr (.inr (.inl ⟨by simp_all, by simp_all, rfl⟩))
      · exact .inl rfl
    | inw =>
      show writeInw k _ s = s ∨ _
      unfold writeInw guardedWrite
      split
      · exact .inl rfl
      · split
        · exact .inr (.inl ⟨by simp_all, by assumption, rfl⟩)
        · split
          · exact .inr (.inr (.inr (.inl ⟨by simp_all, by simp_all, by assumption, _, rfl⟩)))
          · exact .inl rfl
    | outw => exact .inl rfl
  · exact .inl rfl

/-- All that a host access can do: a command's acceptance, a read, or a write. -/
theorem hostTurn_cases {a : HostAccess} {s t : State} (h : hostTurn a s = .next t) :
    (∃ v, t = acceptCommand v { s with reply := none }) ∨ (∃ r, t = { s with reply := r }) ∨
      ∃ space k width v, t = { hostWrite space k width v s with reply := none } := by
  unfold hostTurn at h
  split at h
  · split at h
    · rename_i v _ i hi
      have : i = .encode ∨ i = .decode := by
        simp only [decode, decodeCmd] at hi
        split at hi
        · exact .inl (Except.ok.inj hi).symm
        · split at hi
          · exact .inr (Except.ok.inj hi).symm
          · exact absurd hi (by simp)
      rcases this with rfl | rfl
      · exact .inl ⟨_, (Host.Outcome.next.inj h).symm⟩
      · exact .inl ⟨_, (Host.Outcome.next.inj h).symm⟩
    · exact .inl ⟨_, (Host.Outcome.next.inj h).symm⟩
  · unfold hostAccess at h
    split at h <;> split at h
    · exact .inr (.inl ⟨_, (Host.Outcome.next.inj h).symm⟩)
    · exact absurd h (by simp)
    · exact .inr (.inr ⟨_, _, _, _, (Host.Outcome.next.inj h).symm⟩)
    · exact absurd h (by simp)

/-! ### Where an offset lies (R56) -/

theorem locate_reg (c : Config) {offset : Nat} (h : offset < 0x10000) : locate c offset = some (.reg, offset) := by
  simp [locate, h]

theorem locate_inw {c : Config} (hc : c.Wf) {k : Nat} (h : k < 0x10000) :
    locate c (c.inBase + k) = some (.inw, k) := by
  obtain ⟨_, h1, _, _, h2, _⟩ := hc
  unfold locate
  rw [if_neg (by omega), if_pos (by omega)]; simp

theorem locate_outw {c : Config} (hc : c.Wf) {k : Nat} (h : k < 0x10000) :
    locate c (c.outBase + k) = some (.outw, k) := by
  obtain ⟨_, h1, h3, h4, h2, h5⟩ := hc
  unfold locate
  rw [if_neg (by omega), if_neg (by omega), if_pos (by omega)]; simp

/-- A host write other than one to `CMD`. -/
theorem hostTurn_write {s : State} {offset width k : Nat} {v : Word32} {space : Space}
    (hl : locate s.cfg offset = some (space, k)) (hn : ¬ (space = .reg ∧ k = 0 ∧ width = 4)) :
    hostTurn (.write offset width v) s = .next { hostWrite space k width v s with reply := none } := by
  have hc : commandWrite s.cfg (.write offset width v) = none := by
    simp only [commandWrite, hl]
    rw [if_neg]
    rintro ⟨h1, h2⟩
    cases h1
    exact hn ⟨rfl, rfl, h2⟩
  unfold hostTurn
  rw [hc]; simp [hostAccess, hl]

/-- A host read. -/
theorem hostTurn_read {s : State} {offset width k : Nat} {space : Space}
    (hl : locate s.cfg offset = some (space, k)) :
    hostTurn (.read offset width) s = .next { s with reply := hostRead s space k width } := by
  simp [hostTurn, commandWrite, hostAccess, hl]

/-! ### The instruction the sequencer runs -/

/-- The turn of a running sequencer at an address whose word is known. -/
theorem engineTurn_of_rom {s : State} (hb : s.busy = true) (hr : s.rom = sequenceRom) {u : BitVec 5} (hu : s.upc = u)
    {i : Instr} (hi : decode (.step (sequenceRom[u.toNat]'u.isLt)) = .ok i) : engineTurn s = exec i s := by
  subst hu
  unfold engineTurn fetch
  rw [if_pos hb]; simp only [hr, hi]

/-- All the ways a unit operation's step can leave the engine. -/
inductive Stepped (s : State) : State → Prop
  /-- `NEWSEED` waits for the random source (R111). -/
  | waits : Stepped s s
  /-- One buffer is written, and the sequencer moves on. -/
  | writes (dst : Buf) (v : Bytes) (cipher : CipherRegs) (digest : DigestRegs) (rng : Bytes)
      (hdst : dst ≠ .inp) (hv : v.length ≤ capacity s.cfg dst) (hu : s.upc ≠ 31#5) :
      Stepped s { s with
        bufs := writeBuf s.bufs dst v, upc := s.upc + 1, cipher := cipher, digest := digest, rng := rng }
  /-- `SPLIT` writes its three buffers (R192). -/
  | splits (hl : minBlob ≤ s.bufs.blob.length) (hc : (ctField s.bufs.blob).length ≤ capacity s.cfg .ctHex)
      (hu : s.upc ≠ 31#5) :
      Stepped s { s with
        bufs := { s.bufs with
          tagHex := tagField s.bufs.blob, ctHex := ctField s.bufs.blob, keyHex := keyField s.bufs.blob }
        upc := s.upc + 1 }
  /-- `TAGCMP` finds the tags equal (R103). -/
  | compared (hd : diffOf s.bufs.xtag s.bufs.tag = 0) (hu : s.upc ≠ 31#5) :
      Stepped s { s with diff := 0, upc := s.upc + 1 }
  /-- The command ends (R202), successfully, by a failure, or by a sequencer fault. -/
  | completes (code : ResultCode) (cause : Cause) (rng : Bytes) (freeCount : Nat)
      (hl : legalResult code cause = true) (hn : code ≠ .none) :
      Stepped s { complete code cause s with rng := rng, freeCount := freeCount }

theorem Stepped.ofFault {s s' : State} (cause : Cause) (rng : Bytes) (hc : cause = .stepReserved ∨ cause = .stepPrecond)
    (h : ∃ n, seqFault cause s' = { complete .seqFault cause s with rng := rng, freeCount := n }) :
    Stepped s (seqFault cause s') := by
  obtain ⟨n, h⟩ := h
  rw [h]
  exact .completes .seqFault cause rng n (by rcases hc with rfl | rfl <;> rfl) (by simp)

/-- A store, from a state that differs from `s` in the working registers and the random source only. -/
theorem stepped_store (s : State) {dst : Buf} (v : Bytes) (hdst : dst ≠ .inp) (cipher : CipherRegs)
    (digest : DigestRegs) (rng : Bytes) :
    Stepped s (store dst v { s with cipher := cipher, digest := digest, rng := rng }) := by
  rcases store_cases dst v { s with cipher := cipher, digest := digest, rng := rng } with ⟨⟨hv, hu⟩, h⟩ | ⟨_, h⟩
  · rw [h]; exact .writes dst v cipher digest rng hdst hv hu
  · rw [h]; exact .ofFault _ rng (.inr rfl) ⟨s.freeCount, rfl⟩

/-- An abort whose kind and cause go together (R231), from a state that differs from `s` in the working registers
and `DIFF` only. -/
theorem stepped_abort (s : State) (f : Failure) (cipher : CipherRegs) (diff : Byte)
    (hm : f.kind = .malformed → legalResult .malformed f.cause = true)
    (ht : f.kind = .tampered → f.cause = .tagMismatch)
    (hb : f.kind = .badCipherText → f.cause = .ctLength ∨ f.cause = .ctPadding) :
    Stepped s (abort f { s with cipher := cipher, diff := diff }) := by
  obtain ⟨code, n, h, hc⟩ := abort_cases f { s with cipher := cipher, diff := diff }
  rw [h]
  have he : complete code f.cause { s with cipher := cipher, diff := diff, freeCount := n } =
      { complete code f.cause s with rng := s.rng, freeCount := n } := by
    unfold complete; split <;> rfl
  rw [he]
  rcases hc with ⟨hk, rfl, _⟩ | ⟨hk, rfl, _⟩ | ⟨hk, hc, _⟩
  · exact .completes _ _ _ _ (hm hk) (by simp)
  · exact .completes _ _ _ _ (by rw [ht hk]; rfl) (by simp)
  · have hcode : code = .malformed ∨ code = .badCipherText := by
      generalize s.cmdreg = r at hc
      cases hc <;> simp
    rcases hcode with rfl | rfl <;> rcases hb hk with h | h <;> rw [h] <;>
      exact .completes _ _ _ _ rfl (by simp)

theorem dst_ne_inp {dst src : Buf} (h : pairLegal dst src = true) : dst ≠ .inp := by
  rintro rfl; simp [pairLegal, dstLegal] at h

theorem stepped_whenLegal {s t : State} {i : Instr} (h : i.wf = true → Stepped s t) : Stepped s (whenLegal i s t) := by
  by_cases hw : i.wf = true
  · rw [whenLegal_of_wf hw]; exact h hw
  · rw [whenLegal_of_not_wf (by simpa using hw)]
    exact .ofFault _ s.rng (.inl rfl) ⟨s.freeCount, rfl⟩

theorem stepped_whenHolds {s t : State} {b : Bool} (h : b = true → Stepped s t) : Stepped s (whenHolds b s t) := by
  by_cases hb : b = true
  · rw [whenHolds_of_true hb]; exact h hb
  · rw [whenHolds_of_false (by simpa using hb)]
    exact .ofFault _ s.rng (.inr rfl) ⟨s.freeCount, rfl⟩

theorem stepped_storeResult (s : State) {dst : Buf} (r : Except Failure Bytes) (hdst : dst ≠ .inp) (cipher : CipherRegs)
    (hm : ∀ f, r = .error f → f.kind = .malformed → legalResult .malformed f.cause = true)
    (ht : ∀ f, r = .error f → f.kind = .tampered → f.cause = .tagMismatch)
    (hb : ∀ f, r = .error f → f.kind = .badCipherText → f.cause = .ctLength ∨ f.cause = .ctPadding) :
    Stepped s (storeResult dst r { s with cipher := cipher }) := by
  cases r with
  | ok v => exact stepped_store s v hdst cipher s.digest s.rng
  | error f => exact stepped_abort s f cipher s.diff (hm f rfl) (ht f rfl) (hb f rfl)

theorem stepped_storeMalformed (s : State) {dst : Buf} (r : Except Failure Bytes) (hdst : dst ≠ .inp)
    (h : ∀ f, r = .error f → f.kind = .malformed ∧ legalResult .malformed f.cause = true) :
    Stepped s (storeResult dst r s) :=
  stepped_storeResult s r hdst s.cipher (fun f hf _ => (h f hf).2) (fun f hf hk => by simp [(h f hf).1] at hk)
    (fun f hf hk => by simp [(h f hf).1] at hk)

/-- Every instruction answers a next state, and a unit operation leaves the engine in one of the ways of `Stepped`. -/
theorem exec_stepped (i : Instr) (s : State) (he : i ≠ .encode) (hd : i ≠ .decode) :
    ∃ t, exec i s = .next t ∧ Stepped s t := by
  cases i with
  | done =>
    exact ⟨_, rfl, .completes .ok .none s.rng s.freeCount rfl (by simp)⟩
  | move dst src =>
    exact ⟨_, rfl, stepped_whenLegal fun h => stepped_store s _ (dst_ne_inp h) s.cipher s.digest s.rng⟩
  | newseed =>
    refine ⟨_, rfl, ?_⟩
    split
    · exact stepped_store s _ (by simp) s.cipher s.digest _
    · exact .waits
  | derivekey =>
    exact ⟨_, rfl, stepped_whenHolds fun _ => stepped_store s _ (by simp) s.cipher s.digest s.rng⟩
  | encrypt dst src =>
    exact ⟨_, rfl, stepped_whenLegal fun h => stepped_whenHolds fun _ =>
      stepped_store s _ (dst_ne_inp h) _ s.digest s.rng⟩
  | decrypt dst src =>
    refine ⟨_, rfl, stepped_whenLegal fun h => ?_⟩
    split
    · refine stepped_whenHolds fun _ => stepped_storeResult s _ (dst_ne_inp h) _ ?_ ?_ ?_ <;>
        intro f hf hk <;> obtain ⟨hk', hc⟩ := decryptBytes_error hf
      · simp [hk'] at hk
      · simp [hk'] at hk
      · exact hc.imp And.right And.right
    · exact stepped_abort s _ s.cipher s.diff (by simp) (by simp) (by simp)
  | digest dst src =>
    refine ⟨_, rfl, stepped_whenLegal fun h => stepped_store s _ (dst_ne_inp (src := src) ?_) s.cipher _ s.rng⟩
    simp only [Instr.wf, Bool.and_eq_true] at h; exact h.1
  | tagcmp =>
    refine ⟨_, rfl, stepped_whenHolds fun _ => ?_⟩
    unfold tagcmpStep
    dsimp only
    split
    · rename_i hd
      rcases advance_cases { s with diff := diffOf s.bufs.xtag s.bufs.tag } with ⟨hu, h⟩ | ⟨_, h⟩
      · rw [h, hd]; exact .compared hd hu
      · rw [h]; exact .ofFault _ s.rng (.inr rfl) ⟨s.freeCount, rfl⟩
    · exact stepped_abort s _ s.cipher _ (by simp) (by simp) (by simp)
  | hexenc dst src =>
    exact ⟨_, rfl, stepped_whenLegal fun h => stepped_store s _ (dst_ne_inp h) s.cipher s.digest s.rng⟩
  | hexdec dst src =>
    refine ⟨_, rfl, stepped_whenLegal fun h => stepped_storeMalformed s _ (dst_ne_inp h) fun f hf => ?_⟩
    obtain ⟨hk, ⟨_, hc⟩ | ⟨_, hc⟩⟩ := hexDec_error hf <;> rw [hc] <;> exact ⟨hk, rfl⟩
  | b64enc dst src =>
    exact ⟨_, rfl, stepped_whenLegal fun h => stepped_store s _ (dst_ne_inp h) s.cipher s.digest s.rng⟩
  | b64dec dst src =>
    refine ⟨_, rfl, stepped_whenLegal fun h => stepped_storeMalformed s _ (dst_ne_inp h) fun f hf => ?_⟩
    obtain ⟨hk, hc⟩ := b64Dec_error hf
    rw [hc]
    exact ⟨hk, by split <;> [skip; split] <;> rfl⟩
  | join =>
    exact ⟨_, rfl, stepped_whenHolds fun _ => stepped_store s _ (by simp) s.cipher s.digest s.rng⟩
  | split =>
    refine ⟨_, rfl, ?_⟩
    split
    · exact stepped_abort s _ s.cipher s.diff (fun _ => rfl) (by simp) (by simp)
    · rename_i hl
      unfold splitStep
      rcases store_cases .ctHex (ctField s.bufs.blob)
        { s with bufs := { s.bufs with tagHex := tagField s.bufs.blob, keyHex := keyField s.bufs.blob } } with
        ⟨⟨hv, hu⟩, h⟩ | ⟨_, h⟩
      · rw [h]; exact .splits (Nat.le_of_not_lt hl) hv hu
      · rw [h]; exact .ofFault _ s.rng (.inr rfl) ⟨s.freeCount, rfl⟩
  | encode => exact absurd rfl he
  | decode => exact absurd rfl hd

/-- No step word is a command. -/
theorem decodeStep_not_command {w : StepWord} {i : Instr} (h : decodeStep w = .ok i) : i ≠ .encode ∧ i ≠ .decode := by
  unfold decodeStep decodeImplied decodeExplicit at h
  constructor <;> rintro rfl <;> split at h <;> (try split at h) <;> simp_all

/-- All that the sequencer's turn can do. -/
theorem engineTurn_cases (s : State) :
    (s.busy = false ∧ engineTurn s = .next s) ∨
      (s.busy = true ∧ ∃ t, engineTurn s = .next t ∧ Stepped s t) := by
  unfold engineTurn
  by_cases hb : s.busy = true
  · rw [if_pos hb]
    refine .inr ⟨hb, ?_⟩
    cases hd : decode (.step (fetch s)) with
    | ok i =>
      have := decodeStep_not_command hd
      exact exec_stepped i s this.1 this.2
    | error e => exact ⟨_, rfl, .ofFault _ s.rng (.inl rfl) ⟨s.freeCount, rfl⟩⟩
  · rw [if_neg hb]; exact .inl ⟨by simpa using hb, rfl⟩

end Sys2Proof.Machine
end

