-- ==== Sys2Proof/Tests/Slice0.lean ====
section
/-! SUPPORT. The tests: well-formedness, decoding of words written out from the spec, one step per instruction against
the spec's worked examples and vectors (95_test_vectors.md), the host window's vectors, and for every statement with
hypotheses a state that meets them. -/

namespace Sys2Proof.Tests

open Sys2Proof Sys2Proof.Machine

/-! ### Small states -/

/-- The ASCII bytes of a text (R14). -/
abbrev text : String → Bytes := asciiBytes

/-- `K0`, the 32 bytes 00 to 1f. -/
def k0 : Bytes := (List.range 32).map (BitVec.ofNat 8)

/-- The byte string of a number, `n` bytes, the first the most significant. -/
def bytesOf (n v : Nat) : Bytes := (List.range n).map fun i => BitVec.ofNat 8 (v >>> (8 * (n - 1 - i)))

/-- The input window that holds a text without zero bytes. -/
def cellsOf (t : Bytes) : Memory := t.zipIdx.map fun p => (p.2, p.1)

/-- `IDLE` after reset and initialisation. -/
def idle : State := { State.reset with initPending := false }

/-- `DEAD`. -/
def dead : State := { idle with fatal := true, rngOk := false }

/-- A running engine. -/
def running (c : CmdReg) (upc : BitVec 5) (bufs : Buffers) : State :=
  { idle with busy := true, cmdreg := c, upc := upc, bufs := bufs }

/-- An idle engine whose host makes one access. -/
def hostDoes (s : State) (a : HostAccess) : State := { s with env := [.access a] }

/-- The next state, if there is one. -/
def nextOf : Host.Outcome State Fault Refusal → Option State
  | .next t => some t
  | _ => none

/-- What a step leaves in a buffer, and the step counter. -/
def bufferAfter (b : Buf) (o : Host.Outcome State Fault Refusal) : Option (Bytes × BitVec 5) :=
  (nextOf o).map fun t => (readBuf t.bufs b, t.upc)

/-- `STATUS` and `RESULT` after a step. -/
def resultAfter (o : Host.Outcome State Fault Refusal) : Option (Word32 × Word32) :=
  (nextOf o).map fun t => (statusWord t, resultWord t)

/-- The value a host read returns. -/
def readAfter (s : State) (offset width : Nat) : Option (Option Word32) :=
  (nextOf (step (hostDoes s (.read offset width)))).map fun t => t.reply

/-- `S0`, the Packet of program P1. -/
def s0 : Bytes := text
  ("ZGEzOWEzZWU1ZTZiNGIwZDMyNTViZmVmOTU2MDE4OTBhZmQ4MDcwOTlmM2I3NTA0" ++
    "OTI2ZjhiZDM2ZTMxMThlOTAzYTRjZDRhMDAwMTAyMDMwNDA1MDYwNzA4MDkwYTBi" ++
    "MGMwZDBlMGYxMDExMTIxMzE0MTUxNjE3MTgxOTFhMWIxYzFkMWUxZg==")

/-! ### Well-formedness (R75): a term each check refuses -/

theorem test_wf_dst_in : (Instr.move .inp .pt).wf = false := by decide
theorem test_wf_src_out : (Instr.hexenc .tagHex .out).wf = false := by decide
theorem test_wf_same : (Instr.encrypt .ct .ct).wf = false := by decide
theorem test_wf_digest_dst : (Instr.digest .key .pt).wf = false := by decide
theorem test_wf_accepts : (Instr.digest .xtag .pt).wf = true ∧ (Instr.b64dec .blob .inp).wf = true := by decide

/-! ### Decoding (R77: `op` * 256 + `dst` * 16 + `src`) -/

theorem test_decode_done : decode (.step 0b0000000100000000#16) = .ok .done := by decide
theorem test_decode_move : decode (.step 0b0000001000010111#16) = .ok (.move .out .pt) := by decide
theorem test_decode_newseed : decode (.step 0b0001000000000000#16) = .ok .newseed := by decide
theorem test_decode_derivekey : decode (.step 0b0001000100000000#16) = .ok .derivekey := by decide
theorem test_decode_encrypt : decode (.step 0b0010000001100000#16) = .ok (.encrypt .ct .inp) := by decide
theorem test_decode_decrypt : decode (.step 0b0010000101110110#16) = .ok (.decrypt .pt .ct) := by decide
theorem test_decode_digest : decode (.step 0b0011000010100111#16) = .ok (.digest .tag .pt) := by decide
theorem test_decode_tagcmp : decode (.step 0b0011000100000000#16) = .ok .tagcmp := by decide
theorem test_decode_hexenc : decode (.step 0b0100000001011000#16) = .ok (.hexenc .keyHex .seed) := by decide
theorem test_decode_hexdec : decode (.step 0b0100000101100100#16) = .ok (.hexdec .ct .ctHex) := by decide
theorem test_decode_b64enc : decode (.step 0b0101000000010010#16) = .ok (.b64enc .out .blob) := by decide
theorem test_decode_b64dec : decode (.step 0b0101000100100000#16) = .ok (.b64dec .blob .inp) := by decide
theorem test_decode_join : decode (.step 0b0110000000000000#16) = .ok .join := by decide
theorem test_decode_split : decode (.step 0b0110000100000000#16) = .ok .split := by decide
theorem test_decode_encode : decode (.cmd 0x00000001#32) = .ok .encode := by decide
theorem test_decode_decode : decode (.cmd 0x00000002#32) = .ok .decode := by decide
theorem test_decode_rejects :
    decode (.step 0x0000#16) = .error (.reservedOp 0x00) ∧ decode (.step 0x62FF#16) = .error (.reservedOp 0x62) ∧
      decode (.step 0x02C7#16) = .error (.reservedBuffer 12) ∧
      decode (.step 0x021F#16) = .error (.reservedBuffer 15) ∧
      decode (.step 0x3101#16) = .error (.operandNotZero 0 1) ∧
      decode (.cmd 0x80000001#32) = .error (.reservedCommand 0x80000001) := by decide
theorem test_table_words :
    decodeTableWord 16 0x2060 = some (.encrypt .ct .inp) ∧ decodeTableWord 32 2 = some .decode ∧
      decodeTableWord 16 0x0000 = none ∧ decodeTableWord 8 0x01 = none := by decide
theorem test_encoder : encode (.hexenc .tagHex .tag) = .step 0x403A#16 := by decide

/-! ### The host's words run as the next step -/

theorem test_fetch_step_word :
    resultAfter (step (State.reset.withFetchWord 16 0x0100)) = some (0x00000002, 0x00000001) := by decide
theorem test_fetch_command :
    (nextOf (step (State.reset.withFetchWord 32 2))).map (fun t => (t.busy, t.cmdreg, t.upc)) =
      some (true, .decode, 0x10) := by decide

/-! ### One step per instruction -/

/-- R211: after `MOVE OUT, PT` with `68 69`, `DONE` leaves `STATUS` 2, `RESULT` 1, `OLEN` 2. -/
theorem test_done :
    (nextOf (exec .done (running .decode 0x1A { Buffers.empty with out := [0x68, 0x69], pt := [0x68, 0x69] }))).map
      (fun t => (statusWord t, resultWord t, olen t, t.bufs.pt, t.upc)) = some (2, 1, 2, [], 0) := by decide

/-- R210. -/
theorem test_move :
    bufferAfter .out (exec (.move .out .pt) (running .decode 0x19 { Buffers.empty with pt := [0x68, 0x69] })) =
      some ([0x68, 0x69], 0x1A) := by decide

/-- K1, with one more byte behind the draw. -/
theorem test_newseed :
    (nextOf (exec .newseed { running .encode 0 Buffers.empty with rng := k0 ++ [0xAA] })).map
      (fun t => (t.bufs.seed, t.upc, t.rng)) = some (k0, 1, [0xAA]) := by decide

/-- K5. -/
theorem test_newseed_waits :
    (nextOf (exec .newseed { running .encode 0 Buffers.empty with rng := k0.take 31 })).map
      (fun t => (t.busy, t.upc, t.rng.length)) = some (true, 0, 31) := by decide

/-- K4. -/
theorem test_derivekey :
    bufferAfter .key (exec .derivekey (running .encode 1 { Buffers.empty with seed := k0.map (~~~ ·) })) =
      some (k0.map (~~~ ·), 2) := by decide

/-- E1. -/
theorem test_encrypt_empty :
    bufferAfter .ct (exec (.encrypt .ct .inp) (running .encode 2 { Buffers.empty with key := k0 })) =
      some (bytesOf 16 0x9f3b7504926f8bd36e3118e903a4cd4a, 3) := by decide +kernel

/-- E5: two blocks, chained. -/
theorem test_encrypt_chained :
    bufferAfter .ct (exec (.encrypt .ct .inp)
      (running .encode 2 { Buffers.empty with key := k0, inp := List.replicate 17 0x61 })) =
      some (bytesOf 32 0xe753c48bbea23420a22b1e6120c649a8068f9c52206263375afd8b25f078e0a4, 3) := by decide +kernel

/-- X3. -/
theorem test_decrypt :
    bufferAfter .pt (exec (.decrypt .pt .ct) (running .decode 0x16 { Buffers.empty with
      key := k0
      ct := bytesOf 32 0xe753c48bbea23420a22b1e6120c649a88127873f8ceb9cb7f15c7675b5e418ac })) =
      some (List.replicate 16 0x61, 0x17) := by decide +kernel

/-- X6, in a `DECODE`: `MALFORMED`, `CT_PADDING`. -/
theorem test_decrypt_padding :
    resultAfter (exec (.decrypt .pt .ct) (running .decode 0x16 { Buffers.empty with
      key := k0, ct := bytesOf 16 0x2129cddaece137bfecfcb893624c14ff })) = some (2, 0x00000802) := by decide +kernel

/-- G2. -/
theorem test_digest :
    bufferAfter .tag (exec (.digest .tag .pt) (running .encode 4 { Buffers.empty with pt := text "abc" })) =
      some (bytesOf 20 0xa9993e364706816aba3e25717850c26c9cd0d89d, 5) := by decide +kernel

/-- G4d: two blocks. -/
theorem test_digest_two_blocks :
    bufferAfter .xtag (exec (.digest .xtag .pt) (running .decode 0x17 { Buffers.empty with
      pt := text "abcdbcdecdefdefgefghfghighijhijkijkljklmklmnlmnomnopnopq" })) =
      some (bytesOf 20 0x84983e441c3bd26ebaae4aa1f95129e5e54670f1, 0x18) := by decide +kernel

/-- G5. -/
theorem test_tagcmp_equal :
    (nextOf (exec .tagcmp (running .decode 0x18 { Buffers.empty with tag := k0.take 20, xtag := k0.take 20 }))).map
      (fun t => (t.diff, t.upc, t.busy)) = some (0, 0x19, true) := by decide

/-- G6: only bit 0 of byte 19 differs. -/
theorem test_tagcmp_differ :
    resultAfter (exec .tagcmp (running .decode 0x18 { Buffers.empty with
      xtag := bytesOf 20 0xa9993e364706816aba3e25717850c26c9cd0d89d
      tag := bytesOf 20 0xa9993e364706816aba3e25717850c26c9cd0d89c })) = some (2, 0x00000903) := by decide

/-- H2. -/
theorem test_hexenc :
    bufferAfter .ctHex (exec (.hexenc .ctHex .ct) (running .encode 6 { Buffers.empty with
      ct := [0x00, 0x1f, 0xa0, 0xff] })) = some (text "001fa0ff", 7) := by decide

/-- H2 with `CFG_HEX_UPPER` true. -/
theorem test_hexenc_upper :
    bufferAfter .ctHex (exec (.hexenc .ctHex .ct) { running .encode 6 { Buffers.empty with
      ct := [0x00, 0x1f, 0xa0, 0xff] } with cfg := { Config.pinned with hexUpper := true } }) =
      some (text "001FA0FF", 7) := by decide

/-- H6. -/
theorem test_hexdec :
    bufferAfter .ct (exec (.hexdec .ct .ctHex) (running .decode 0x14 { Buffers.empty with ctHex := text "001fa0ff" })) =
      some ([0x00, 0x1f, 0xa0, 0xff], 0x15) := by decide

/-- H7 and H10. -/
theorem test_hexdec_fails :
    resultAfter (exec (.hexdec .ct .ctHex) (running .decode 0x14 { Buffers.empty with ctHex := text "0A" })) =
      some (2, 0x00000602) ∧
    resultAfter (exec (.hexdec .ct .ctHex) (running .decode 0x14 { Buffers.empty with ctHex := text "ab!" })) =
      some (2, 0x00000502) := by decide

/-- B5. -/
theorem test_b64enc :
    bufferAfter .out (exec (.b64enc .out .blob) (running .encode 9 { Buffers.empty with blob := text "foob" })) =
      some (text "Zm9vYg==", 0x0A) := by decide

/-- B9. -/
theorem test_b64enc_two :
    bufferAfter .out (exec (.b64enc .out .blob) (running .encode 9 { Buffers.empty with blob := [0xfb, 0xf0] })) =
      some (text "+/A=", 0x0A) := by decide

/-- B16. -/
theorem test_b64dec :
    bufferAfter .blob (exec (.b64dec .blob .inp) (running .decode 0x10 { Buffers.empty with inp := text "Zm9vYg==" })) =
      some (text "foob", 0x11) := by decide

/-- B19, B23, B17. -/
theorem test_b64dec_fails :
    resultAfter (exec (.b64dec .blob .inp) (running .decode 0x10 { Buffers.empty with inp := text "Zh==" })) =
      some (2, 0x00000302) ∧
    resultAfter (exec (.b64dec .blob .inp) (running .decode 0x10 { Buffers.empty with inp := text "Zg==Zg==" })) =
      some (2, 0x00000202) ∧
    resultAfter (exec (.b64dec .blob .inp) (running .decode 0x10 { Buffers.empty with inp := text "Zg=" })) =
      some (2, 0x00000102) := by decide

/-- R190: tag, then ciphertext, then key. -/
theorem test_join :
    bufferAfter .blob (exec .join (running .encode 8 { Buffers.empty with
      tagHex := List.replicate 40 0x61, ctHex := text "9f", keyHex := List.replicate 64 0x62 })) =
      some (List.replicate 40 0x61 ++ text "9f" ++ List.replicate 64 0x62, 9) := by decide

/-- F7, with three different fields. -/
theorem test_split :
    (nextOf (exec .split (running .decode 0x11 { Buffers.empty with
      blob := List.replicate 40 0x61 ++ text "9" ++ List.replicate 64 0x62 }))).map
      (fun t => (t.bufs.tagHex, t.bufs.ctHex, t.bufs.keyHex, t.upc)) =
      some (List.replicate 40 0x61, text "9", List.replicate 64 0x62, 0x12) := by decide

/-- F5. -/
theorem test_split_short :
    resultAfter (exec .split (running .decode 0x11 { Buffers.empty with blob := List.replicate 103 0x30 })) =
      some (2, 0x00000402) := by decide

/-- R201: the input is fixed at acceptance. -/
theorem test_encode :
    (nextOf (exec .encode { idle with inw := [(0, 0x68), (1, 0x69), (2, 0x6a)], ilen := 2, done := true })).map
      (fun t => (t.bufs.inp, statusWord t, t.upc, t.cmdreg)) = some ([0x68, 0x69], 1, 0x00, .encode) := by decide

/-- V4. -/
theorem test_encode_capacity :
    (nextOf (exec .encode { idle with ilen := 4097 })).map (fun t => (statusWord t, resultWord t, t.ilen)) =
      some (2, 0x00000A05, 0) := by decide

/-- R201, with `OUT` of an earlier command not yet released. -/
theorem test_decode :
    (nextOf (exec .decode { idle with
      done := true, resultCode := .ok, ilen := 1, inw := [(0, 0x41)]
      bufs := { Buffers.empty with out := [0x41] } })).map
      (fun t => (t.bufs.inp, t.bufs.out, statusWord t, resultWord t, t.upc)) = some ([0x41], [], 1, 0, 0x10) := by
  decide

/-- V4. -/
theorem test_decode_capacity :
    resultAfter (exec .decode { idle with ilen := 11105 }) = some (2, 0x00000A05) := by decide

/-! ### The host window (vectors V1 to V10) -/

theorem test_v1_constants :
    readAfter idle 0x18 4 = some (some 0x00001000) ∧ readAfter idle 0x1C 4 = some (some 0x00002B60) ∧
      readAfter idle 0x20 4 = some (some 0) := by decide
theorem test_v2_dead :
    (nextOf (step { State.reset with rngOk := false })).map statusWord = some 0x00000004 := by decide
theorem test_v3_reserved :
    resultAfter (step (hostDoes idle (.write 0x00 4 0x00000101))) = some (2, 0x00000B06) := by decide
theorem test_v5_order :
    resultAfter (step (hostDoes { idle with ilen := 0xFFFFFFFF } (.write 0x00 4 7))) = some (2, 0x00000B06) := by
  decide
theorem test_v6_busy :
    (nextOf (step (hostDoes (running .encode 0 Buffers.empty) (.write 0x10000 1 0x41)))).map
      (fun t => (statusWord t, t.inw)) = some (0x00000009, []) := by decide
theorem test_v7_release :
    (nextOf (step (hostDoes { idle with
      done := true, resultCode := .ok, ie := true, bufs := { Buffers.empty with out := text "hello world" } }
      (.write 0x04 4 0x00000002)))).map (fun t => (statusWord t, resultWord t, olen t, irq t)) =
      some (0, 1, 0, false) := by decide
theorem test_v8_refused :
    readAfter idle 0x05 4 = some none ∧ readAfter idle 0x04 1 = some none ∧
      (nextOf (step (hostDoes idle (.write 0x10000 4 1)))).map (fun t => t.inw) = some [] := by decide
theorem test_v9_bounds :
    (nextOf (step (hostDoes idle (.write 0x12B60 1 0x41)))).map (fun t => t.inw) = some [] ∧
      readAfter { idle with inw := [(0, 0x41)] } 0x10000 1 = some (some 0) ∧
      readAfter { idle with bufs := { Buffers.empty with out := text "hello world" } } 0x2000B 1 = some (some 0) := by
  decide
theorem test_v10_reset :
    (nextOf (step { running .encode 3 { Buffers.empty with key := k0 } with env := [.reset] })).map
      (fun t => (statusWord t, resultWord t, t.bufs.key, t.initPending)) = some (0, 0, [], true) := by decide

/-! ### States that meet the hypotheses of the statements -/

theorem test_hyps_EncodeOfDecode : decode (.step 0x2176#16) = .ok (.decrypt .pt .ct) := by decide
theorem test_hyps_ReservedWordsRejected :
    (0x0000#16).toNat / 256 ∉ [0x01, 0x02, 0x10, 0x11, 0x20, 0x21, 0x30, 0x31, 0x40, 0x41, 0x50, 0x51, 0x60, 0x61] ∧
      (0x02C7#16).toNat / 16 % 16 = 12 ∧ (0x51BC#16).toNat / 16 % 16 < 12 ∧ (0x51BC#16).toNat % 16 = 12 ∧
      (0x6101#16).toNat % 256 ≠ 0 ∧ (0 : Word32) ≠ 1 ∧ (3 : Word32) ≠ 2 := by decide
theorem test_hyps_StepRunsFetchedInstruction :
    SequencerNext (running .encode 0 Buffers.empty) ∧
      SequencerNext { running .encode 0 Buffers.empty with env := [.engine] } ∧
      decode (.step (fetch (running .encode 0 Buffers.empty))) = .ok .newseed :=
  ⟨⟨rfl, .inl rfl⟩, ⟨rfl, .inr rfl⟩, by decide⟩
theorem test_hyps_ReservedWordFaults :
    SequencerNext (running .encode 0x0B Buffers.empty) ∧
      decode (.step (fetch (running .encode 0x0B Buffers.empty))) = .error (.reservedOp 0) :=
  ⟨⟨rfl, .inl rfl⟩, by decide⟩
theorem test_hyps_StepRunsWrittenCommand :
    HostNext (.write 0 4 0x00000001#32) [] (hostDoes idle (.write 0 4 1)) ∧
      HostNext (.write 0 4 0x00000002#32) [] (hostDoes idle (.write 0 4 2)) := ⟨⟨rfl, rfl⟩, ⟨rfl, rfl⟩⟩
theorem test_hyps_IdleEngineWaits : SequencerNext idle ∧ idle.busy = false := ⟨⟨rfl, .inl rfl⟩, rfl⟩
theorem test_hyps_InitialisationCheck : State.reset.initPending = true := rfl
theorem test_hyps_ResetEvent :
    { idle with env := [.reset] }.initPending = false ∧ { idle with env := [.reset] }.env.head? = some .reset :=
  ⟨rfl, rfl⟩
theorem test_hyps_MoveResult :
    let s := running .decode 0x19 { Buffers.empty with pt := [0x68] }
    (Instr.move .out .pt).wf = true ∧ Fits .out (readBuf s.bufs .pt) s := by
  unfold Fits; decide
theorem test_hyps_TextEncodersResult :
    let s := running .encode 30 { Buffers.empty with tag := k0.take 20, blob := [0x66] }
    (Instr.hexenc .tagHex .tag).wf = true ∧ Fits .tagHex (hexEnc s.cfg.hexUpper (readBuf s.bufs .tag)) s ∧
      (Instr.b64enc .out .blob).wf = true ∧ Fits .out (b64Enc (readBuf s.bufs .blob)) s := by
  unfold Fits; decide
theorem test_hyps_DigestResult : (Instr.digest .tag .pt).wf = true ∧ (running .encode 4 Buffers.empty).upc ≠ 31#5 := by
  decide
theorem test_hyps_EncryptResult :
    let s := running .encode 2 { Buffers.empty with key := k0 }
    (Instr.encrypt .ct .inp).wf = true ∧ s.bufs.key.length = 32 ∧
      Fits .ct (encryptBytes s.cfg s.bufs.key (readBuf s.bufs .inp)) s := by
  unfold Fits; decide +kernel
theorem test_hyps_DecryptResult :
    let s := running .decode 0x16 { Buffers.empty with
      key := k0, ct := bytesOf 16 0x9f3b7504926f8bd36e3118e903a4cd4a }
    (Instr.decrypt .pt .ct).wf = true ∧ s.bufs.key.length = 32 ∧
      decryptBytes s.cfg s.bufs.key (readBuf s.bufs .ct) = .ok [] ∧ Fits .pt [] s := by
  unfold Fits; decide +kernel
theorem test_hyps_DecryptFails :
    let s1 := running .decode 0x16 Buffers.empty
    let s2 := running .encode 3 { Buffers.empty with key := k0, ct := List.replicate 17 0 }
    let s3 := running .none 3 { Buffers.empty with key := k0, ct := List.replicate 16 0 }
    (Instr.decrypt .pt .ct).wf = true ∧
      (ctLengthOk (readBuf s1.bufs .ct) = false ∧ s1.cmdreg = .decode ∧
        decryptBytes s1.cfg s1.bufs.key (readBuf s1.bufs .ct) = .error ⟨.badCipherText, .ctLength⟩) ∧
      (ctLengthOk (readBuf s2.bufs .ct) = false ∧ s2.cmdreg = .encode ∧
        decryptBytes s2.cfg s2.bufs.key (readBuf s2.bufs .ct) = .error ⟨.badCipherText, .ctLength⟩) ∧
      ctLengthOk (readBuf s3.bufs .ct) = true ∧ s3.bufs.key.length = 32 ∧
        decryptBytes s3.cfg s3.bufs.key (readBuf s3.bufs .ct) = .error ⟨.badCipherText, .ctPadding⟩ := by
  decide +kernel
theorem test_hyps_TextDecodersResult :
    let s := running .decode 0x14 { Buffers.empty with ctHex := text "ff", inp := text "/w==" }
    (Fits .ct [0xff] s ∧ (Instr.hexdec .ct .ctHex).wf = true ∧
      hexDec s.cfg.hexUpper (readBuf s.bufs .ctHex) = .ok [0xff]) ∧
    Fits .blob [0xff] s ∧ (Instr.b64dec .blob .inp).wf = true ∧ b64Dec (readBuf s.bufs .inp) = .ok [0xff] := by
  unfold Fits; decide
theorem test_hyps_TextUnitsFail :
    let s := running .decode 0x14 { Buffers.empty with
      ctHex := text "0", keyHex := text "0g", inp := text "Zg=", tagHex := text "Z===", pt := text "Zm9="
      blob := List.replicate 103 0x30 }
    ((Instr.hexdec .ct .ctHex).wf = true ∧
      hexDec s.cfg.hexUpper (readBuf s.bufs .ctHex) = .error ⟨.malformed, .hexLength⟩) ∧
    ((Instr.hexdec .ct .keyHex).wf = true ∧
      hexDec s.cfg.hexUpper (readBuf s.bufs .keyHex) = .error ⟨.malformed, .hexChar⟩) ∧
    ((Instr.b64dec .blob .inp).wf = true ∧ b64Dec (readBuf s.bufs .inp) = .error ⟨.malformed, .b64Length⟩) ∧
    ((Instr.b64dec .blob .tagHex).wf = true ∧ b64Dec (readBuf s.bufs .tagHex) = .error ⟨.malformed, .b64Char⟩) ∧
    ((Instr.b64dec .blob .pt).wf = true ∧ b64Dec (readBuf s.bufs .pt) = .error ⟨.malformed, .b64Trailing⟩) ∧
    s.bufs.blob.length < 104 := by
  decide
theorem test_hyps_JoinResult :
    let s := running .encode 8 { Buffers.empty with
      tagHex := List.replicate 40 0x30, keyHex := List.replicate 64 0x31 }
    s.bufs.tagHex.length = 40 ∧ s.bufs.keyHex.length = 64 ∧
      Fits .blob (s.bufs.tagHex ++ s.bufs.ctHex ++ s.bufs.keyHex) s := by
  unfold Fits; decide
theorem test_hyps_SplitResult :
    let s := running .decode 0x11 { Buffers.empty with blob := List.replicate 104 0x30 }
    104 ≤ s.bufs.blob.length ∧ s.bufs.blob.length ≤ blobCap s.cfg ∧ s.upc ≠ 31#5 := by decide
theorem test_hyps_NewseedResult :
    let s := { running .encode 0 Buffers.empty with rng := k0 }
    32 ≤ s.rng.length ∧ s.upc ≠ 31#5 := by decide
theorem test_hyps_NewseedWaits : { running .encode 0 Buffers.empty with rng := k0.take 31 }.rng.length < 32 := by
  decide
theorem test_hyps_DerivekeyResult :
    32 ≤ (running .encode 1 { Buffers.empty with seed := k0 }).bufs.seed.length ∧
      (running .encode 1 { Buffers.empty with seed := k0 }).upc ≠ 31#5 := by decide
theorem test_hyps_TagcmpEqual :
    let s := running .decode 0x18 { Buffers.empty with tag := k0.take 20, xtag := k0.take 20 }
    s.bufs.xtag.length = 20 ∧ s.bufs.tag = s.bufs.xtag ∧ s.upc ≠ 31#5 := by decide
theorem test_hyps_TagcmpMismatch :
    let s := running .decode 0x18 { Buffers.empty with tag := List.replicate 20 0, xtag := k0.take 20 }
    s.bufs.xtag.length = 20 ∧ s.bufs.tag.length = 20 ∧ s.bufs.tag ≠ s.bufs.xtag := by decide
theorem test_hyps_CommandsAccepted :
    idle.fatal = false ∧ idle.busy = false ∧ { idle with ilen := 4096 }.ilen.toNat ≤ idle.cfg.maxPt ∧
      { idle with ilen := 11104 }.ilen.toNat ≤ maxPkt idle.cfg := by decide
theorem test_hyps_CommandsRefused :
    idle.cfg.maxPt < { idle with ilen := 4097 }.ilen.toNat ∧
      maxPkt idle.cfg < { idle with ilen := 11105 }.ilen.toNat ∧ (0 : Word32) ≠ 1 ∧ (0 : Word32) ≠ 2 ∧
      HostNext (.write 0 4 0) [] (hostDoes idle (.write 0 4 0)) :=
  ⟨by decide, by decide, by decide, by decide, rfl, rfl⟩
theorem test_hyps_IllFormedFaults : (Instr.move .inp .pt).wf = false := by decide
theorem test_hyps_PreconditionFaults :
    let s := running .encode 2 { Buffers.empty with
      key := k0.take 31, seed := k0.take 31, ct := List.replicate 16 0, tagHex := List.replicate 39 0x30
      keyHex := List.replicate 65 0x30, tag := k0.take 19, xtag := k0.take 20 }
    (Instr.encrypt .ct .inp).wf = true ∧ s.bufs.key.length ≠ 32 ∧ (Instr.decrypt .pt .ct).wf = true ∧
      (readBuf s.bufs .ct).length ≠ 0 ∧ (readBuf s.bufs .ct).length % 16 = 0 ∧ s.bufs.seed.length < 32 ∧
      s.bufs.tagHex.length ≠ 40 ∧ s.bufs.keyHex.length ≠ 64 ∧ s.bufs.tag.length ≠ 20 := by decide
theorem test_hyps_CapacityFaults :
    let s := running .encode 2 { Buffers.empty with pt := k0.take 21, key := k0, blob := k0.take 16 }
    let w := { running .decode 31 { Buffers.empty with
      tagHex := List.replicate 40 0x30, keyHex := List.replicate 64 0x30, blob := List.replicate 104 0x30, key := k0
      ct := bytesOf 16 0x9f3b7504926f8bd36e3118e903a4cd4a, seed := k0, tag := k0.take 20, xtag := k0.take 20 } with
      rng := k0 }
    (((Instr.move .tag .pt).wf = true ∧ ¬ Fits .tag (readBuf s.bufs .pt) s) ∧
      ((Instr.hexenc .tagHex .pt).wf = true ∧ ¬ Fits .tagHex (hexEnc s.cfg.hexUpper (readBuf s.bufs .pt)) s) ∧
      ((Instr.b64enc .tag .blob).wf = true ∧ ¬ Fits .tag (b64Enc (readBuf s.bufs .blob)) s) ∧
      ((Instr.digest .tag .pt).wf = true ∧ w.upc = 31#5) ∧
      ((Instr.encrypt .seed .key).wf = true ∧ s.bufs.key.length = 32 ∧
        ¬ Fits .seed (encryptBytes s.cfg s.bufs.key (readBuf s.bufs .key)) s)) ∧
    ((Instr.decrypt .pt .ct).wf = true ∧ w.bufs.key.length = 32 ∧
      decryptBytes w.cfg w.bufs.key (readBuf w.bufs .ct) = .ok [] ∧ ¬ Fits .pt [] w) ∧
    ((Instr.hexdec .pt .ctHex).wf = true ∧ hexDec w.cfg.hexUpper (readBuf w.bufs .ctHex) = .ok [] ∧
      (Instr.b64dec .pt .ctHex).wf = true ∧ b64Dec (readBuf w.bufs .ctHex) = .ok []) ∧
    (32 ≤ w.rng.length ∧ 32 ≤ w.bufs.seed.length) ∧
    (w.bufs.tagHex.length = 40 ∧ w.bufs.keyHex.length = 64 ∧
      ¬ Fits .blob (w.bufs.tagHex ++ w.bufs.ctHex ++ w.bufs.keyHex) w) ∧
    (104 ≤ w.bufs.blob.length ∧ ¬ Fits .ctHex (ctField w.bufs.blob) w) ∧
    w.bufs.xtag.length = 20 ∧ w.bufs.tag = w.bufs.xtag := by
  unfold Fits; decide +kernel
theorem test_hyps_InputWindowAccess :
    Config.pinned.Wf ∧ WindowWf idle ∧ 11103 < maxPkt idle.cfg ∧ maxPkt idle.cfg ≤ 11104 ∧
      HostNext (.write (idle.cfg.inBase + 11103) 1 5) [] (hostDoes idle (.write 0x12B5F 1 5)) ∧
      HostNext (.write (idle.cfg.inBase + 11104) 1 5) [] (hostDoes idle (.write 0x12B60 1 5)) ∧
      HostNext (.read (idle.cfg.inBase + 0xFFFF) 1) [] (hostDoes idle (.read 0x1FFFF 1)) :=
  ⟨by decide, by unfold WindowWf; decide, by decide, by decide, ⟨rfl, rfl⟩, ⟨rfl, rfl⟩, rfl, rfl⟩
theorem test_hyps_OutputWindowAccess :
    Config.pinned.Wf ∧ HostNext (.read (idle.cfg.outBase + 0) 1) [] (hostDoes idle (.read 0x20000 1)) ∧
      HostNext (.write (idle.cfg.outBase + 0xFFFF) 1 5) [] (hostDoes idle (.write 0x2FFFF 1 5)) :=
  ⟨by decide, ⟨rfl, rfl⟩, rfl, rfl⟩
theorem test_hyps_WritesWhileBusyOrDead :
    Config.pinned.Wf ∧ (running .encode 0 Buffers.empty).busy = true ∧ dead.fatal = true ∧
      HostNext (.write 0x10 4 9) [] (hostDoes (running .encode 0 Buffers.empty) (.write 0x10 4 9)) ∧
      HostNext (.write 0x00 4 1) [] (hostDoes dead (.write 0x00 4 1)) ∧
      HostNext (.write (dead.cfg.inBase + 0xFFFF) 1 1) [] (hostDoes dead (.write 0x1FFFF 1 1)) ∧
      maxPkt (running .encode 0 Buffers.empty).cfg = 11104 ∧
      HostNext (.write ((running .encode 0 Buffers.empty).cfg.inBase + 11104) 1 1) []
        (hostDoes (running .encode 0 Buffers.empty) (.write 0x12B60 1 1)) ∧
      HostNext (.write 0x0C 4 1) [] (hostDoes idle (.write 0x0C 4 1)) :=
  ⟨by decide, rfl, rfl, ⟨rfl, rfl⟩, ⟨rfl, rfl⟩, ⟨rfl, rfl⟩, by decide, ⟨rfl, rfl⟩, rfl, rfl⟩
theorem test_hyps_StatusWrite :
    HostNext (.write 0x04 4 0xA) [] (hostDoes { idle with done := true } (.write 0x04 4 0xA)) := ⟨rfl, rfl⟩
theorem test_hyps_RegisterReads :
    HostNext (.read 0x08 4) [] (hostDoes idle (.read 0x08 4)) ∧
      HostNext (.read 0xFFFC 4) [] (hostDoes idle (.read 0xFFFC 4)) := ⟨⟨rfl, rfl⟩, rfl, rfl⟩
theorem test_hyps_RegisterWrites :
    HostNext (.write 0x10 4 9) [] (hostDoes idle (.write 0x10 4 9)) ∧
      HostNext (.write 0x0C 4 1) [] (hostDoes idle (.write 0x0C 4 1)) ∧
      HostNext (.write 0x20 4 1) [] (hostDoes idle (.write 0x20 4 1)) := ⟨⟨rfl, rfl⟩, ⟨rfl, rfl⟩, rfl, rfl⟩
theorem test_hyps_RefusedAccesses :
    Config.pinned.Wf ∧ HostNext (.read 0x05 4) [] (hostDoes idle (.read 0x05 4)) ∧
      HostNext (.write 0x00 1 1) [] (hostDoes idle (.write 0x00 1 1)) ∧
      HostNext (.write 0x1FFFF 4 1) [] (hostDoes idle (.write 0x1FFFF 4 1)) ∧
      HostNext (.read 0x2FFFF 2) [] (hostDoes idle (.read 0x2FFFF 2)) ∧
      HostNext (.read 0x30000 4) [] (hostDoes idle (.read 0x30000 4)) :=
  ⟨by decide, ⟨rfl, rfl⟩, ⟨rfl, rfl⟩, ⟨rfl, rfl⟩, ⟨rfl, rfl⟩, rfl, rfl⟩
theorem test_hyps_HostReadsHideInternals :
    SameToHost (hostDoes (running .encode 3 { Buffers.empty with key := k0, out := [1] }) (.read 0x20000 1))
        (hostDoes (running .encode 4 Buffers.empty) (.read 0x20000 1)) ∧
      HostNext (.read 0x20000 1) []
        (hostDoes (running .encode 3 { Buffers.empty with key := k0, out := [1] }) (.read 0x20000 1)) ∧
      HostNext (.read 0x20000 1) [] (hostDoes (running .encode 4 Buffers.empty) (.read 0x20000 1)) ∧
      HostNext (.read 0x30000 1) [] (hostDoes (running .encode 3 Buffers.empty) (.read 0x30000 1)) := by
  refine ⟨⟨rfl, rfl, rfl, rfl, rfl, rfl, rfl, rfl, rfl, ?_⟩, ⟨rfl, rfl⟩, ⟨rfl, rfl⟩, rfl, rfl⟩
  intro h; cases h

/-- An engine that is idle or dead and has done nothing meets the invariant. -/
theorem inv_silent {s : State} (hs : s = idle ∨ s = dead) : Inv s := by
  rcases hs with rfl | rfl
  all_goals
    exact ⟨by decide, ⟨rfl, by decide⟩, by intro b; cases b <;> decide, by decide,
      fun _ => ⟨rfl, rfl, rfl, rfl, rfl, rfl⟩, fun h => (nomatch h),
      fun _ => ⟨by intro b _; cases b <;> rfl, rfl, rfl, rfl, rfl, rfl⟩, fun h => (nomatch h), rfl,
      fun _ h => absurd rfl h⟩

theorem test_hyps_EngineInvKept : Inv idle ∧ step idle = .next idle := ⟨inv_silent (.inl rfl), rfl⟩
/-- `ENCODE` of the empty plaintext about to run `DONE`: every clause of the shape has its condition met. -/
def encodeAtEnd : State :=
  running .encode 0x0A { Buffers.empty with
    seed := k0, key := k0, ct := bytesOf 16 0x9f3b7504926f8bd36e3118e903a4cd4a, tag := sha1 []
    tagHex := List.replicate 40 0x30, ctHex := List.replicate 32 0x30, keyHex := List.replicate 64 0x30
    blob := List.replicate 136 0x30, out := List.replicate 184 0x41 }

/-- `DECODE` of `S0` about to run `DONE`, likewise. -/
def decodeAtEnd : State :=
  { running .decode 0x1A { Buffers.empty with
      inp := s0, blob := List.replicate 136 0x30, tagHex := List.replicate 40 0x30, ctHex := List.replicate 32 0x30
      keyHex := List.replicate 64 0x30, tag := sha1 [], seed := k0
      ct := bytesOf 16 0x9f3b7504926f8bd36e3118e903a4cd4a, key := k0, xtag := sha1 [] } with
    inw := cellsOf s0, ilen := 184 }

/-- A running engine within its capacities, its window in canonical form, meets the invariant. -/
theorem inv_running {s : State} (hc : s.cfg.Wf) (hw : Memory.wf s.inw = true ∧ ∀ c ∈ s.inw, c.1 < maxPkt s.cfg)
    (hb : ∀ b, (readBuf s.bufs b).length ≤ capacity s.cfg b) (h1 : s.busy = true) (h2 : s.done = false)
    (h3 : s.fatal = false) (h4 : s.initPending = false) (h5 : s.cmdreg ≠ .none) (h6 : s.resultCode = .none)
    (h7 : s.resultCause = .none) : Inv s :=
  ⟨hc, hw, hb, by simp [h2], by simp [h3], by simp [h4], by simp [h1], fun _ => ⟨h5, h6⟩, by rw [h6, h7]; rfl,
    by simp [h1]⟩

/-- The last step of either sequence. -/
theorem step_at_done {s : State} (hn : s.initPending = false ∧ s.env = []) (hb : s.busy = true)
    (hr : s.rom = sequenceRom) (hu : s.upc = 0x0A#5 ∨ s.upc = 0x1A#5) : step s = .next (complete .ok .none s) := by
  have he : { s with env := s.env.tail } = s := by cases s; simp_all
  rw [step_of_sequencerNext ⟨hn.1, .inl hn.2⟩, he]
  rcases hu with hu | hu
  · exact engineTurn_of_rom hb hr hu (i := .done) rfl
  · exact engineTurn_of_rom hb hr hu (i := .done) rfl

theorem test_hyps_SequenceInvKept :
    (Inv encodeAtEnd ∧ SequenceInv encodeAtEnd ∧ encodeAtEnd.busy = true ∧
      step encodeAtEnd = .next (complete .ok .none encodeAtEnd)) ∧
    Inv decodeAtEnd ∧ SequenceInv decodeAtEnd ∧ decodeAtEnd.busy = true ∧
      step decodeAtEnd = .next (complete .ok .none decodeAtEnd) := by
  refine ⟨⟨inv_running ?_ ?_ ?_ rfl rfl rfl rfl ?_ rfl rfl, ⟨?_, rfl, ?_, fun _ => .inl ⟨rfl, ?_⟩, ?_, ?_⟩, rfl,
    step_at_done ⟨rfl, rfl⟩ rfl rfl (.inl rfl)⟩,
    inv_running ?_ ?_ ?_ rfl rfl rfl rfl ?_ rfl rfl, ⟨?_, rfl, ?_, fun _ => .inr ⟨rfl, ?_⟩, ?_, ?_⟩, rfl,
    step_at_done ⟨rfl, rfl⟩ rfl rfl (.inr rfl)⟩ <;>
    first
    | decide +kernel
    | (intro b; cases b <;> decide +kernel)
    | (unfold EncodeShape; decide +kernel)
    | (unfold DecodeShape; decide +kernel)
theorem test_hyps_DeadUntilReset :
    Inv dead ∧ dead.fatal = true ∧ step dead = .next dead ∧ dead.env.head? ≠ some .reset :=
  ⟨inv_silent (.inr rfl), rfl, rfl, by decide⟩
theorem test_hyps_CompletionIsOneTransition :
    step (running .encode 0x0A Buffers.empty) = .next (complete .ok .none (running .encode 0x0A Buffers.empty)) ∧
      (running .encode 0x0A Buffers.empty).done = false ∧
      (complete .ok .none (running .encode 0x0A Buffers.empty)).done = true := ⟨rfl, rfl, rfl⟩
theorem test_hyps_FramerLaws :
    (List.replicate 40 (0x61 : Byte)).length = 40 ∧ (List.replicate 64 (0x62 : Byte)).length = 64 ∧
      104 ≤ (List.replicate 104 (0x63 : Byte)).length := by decide
theorem test_hyps_BlockInverse : (keyExpansion k0).length = 60 ∧ (k0.take 16).length = 16 := by decide +kernel
theorem test_hyps_CipherRoundTrip : k0.length = 32 := by decide
theorem test_hyps_EncodeClosedForm :
    Quiet { idle with rng := k0 } ∧ idle.cfg.Wf ∧ idle.rom = sequenceRom ∧
      { idle with ilen := 4096 }.ilen.toNat ≤ idle.cfg.maxPt ∧ 32 ≤ k0.length :=
  ⟨⟨rfl, rfl, rfl, rfl⟩, by decide, rfl, by decide, by decide⟩
theorem test_hyps_DecodeClosedForm :
    Quiet idle ∧ idle.cfg.Wf ∧ idle.rom = sequenceRom ∧ { idle with ilen := 11104 }.ilen.toNat ≤ maxPkt idle.cfg :=
  ⟨⟨rfl, rfl, rfl, rfl⟩, by decide, rfl, by decide⟩
/-- The packet of P1 is that of the closed form, and stands in an input window: the inner hypotheses, for the run on
the empty plaintext and the draw `K0`. -/
theorem test_hyps_CommandsRoundTrip :
    encodePacket idle.cfg (windowPrefix idle.inw idle.ilen.toNat) (k0.take 32) = s0 ∧
      windowPrefix (cellsOf s0) 184 = s0 := by decide +kernel
theorem test_hyps_CommandsRoundTrip_later :
    Quiet { idle with inw := cellsOf s0, ilen := 184 } ∧ Quiet { idle with rng := k0 } :=
  ⟨⟨rfl, rfl, rfl, rfl⟩, rfl, rfl, rfl, rfl⟩
theorem test_hyps_MalformedInputs :
    Quiet { idle with inw := cellsOf (text "not-hex-or-base64!!"), ilen := 19 } ∧ idle.ilen = 0 ∧
      windowPrefix (cellsOf (text "not-hex-or-base64!!")) 19 = asciiBytes "not-hex-or-base64!!" ∧
      (List.replicate 103 (0x30 : Byte)).length < 104 ∧
      windowPrefix (cellsOf (b64Enc (List.replicate 103 0x30))) 140 = b64Enc (List.replicate 103 0x30) :=
  ⟨⟨rfl, rfl, rfl, rfl⟩, rfl, by decide +kernel, by decide, by decide +kernel⟩
/-- D1. -/
theorem test_hyps_CanonicalParse : decodeResult Config.pinned s0 = (.ok, .none, []) := by decide +kernel
theorem test_hyps_DifferentDraws : k0.length = 32 ∧ (k0.map (~~~ ·)).length = 32 ∧ k0 ≠ k0.map (~~~ ·) := by decide
theorem test_hyps_ChangedTagDetected :
    k0.length = 32 ∧ (k0.take 20).length = 20 ∧ k0.take 20 ≠ sha1 [] := by decide +kernel

end Sys2Proof.Tests
end

section
/-! PROOF. Every step of every agent keeps the engine's invariant `Inv` (10_state.md rules R20, R22, R28, R29, R40, R41;
60_exceptions.md rules R230, R231; R256, R262). The agents are those of `step_cases`; what each can make of the state
is said by `engineTurn_cases`, `hostTurn_cases`, `acceptCommand_cases` and `hostWrite_cases`. -/

namespace Sys2Proof.Machine

/-! ### Which updates keep the invariant -/

/-- The invariant is about the engine's own state: the ports, the model's records, `OVR` and `IE` do not bear on it. -/
theorem inv_ports {s : State} (h : Inv s) (ovr ie rngOk cipherOk digestOk : Bool) (rng : Bytes) (env : List Event)
    (reply : Option Word32) (freeCount : Nat) :
    Inv { s with
      ovr := ovr, ie := ie, rngOk := rngOk, cipherOk := cipherOk, digestOk := digestOk, rng := rng, env := env
      reply := reply, freeCount := freeCount } :=
  ⟨h.cfg, h.window, h.capacities, h.busyDone, h.dead, h.pending, h.idle, h.running, h.result, h.output⟩

/-- R29, R40: a busy engine is initialised, alive, and has not completed. -/
theorem inv_flags_of_busy {s : State} (h : Inv s) (hb : s.busy = true) :
    s.initPending = false ∧ s.fatal = false ∧ s.done = false := by
  refine ⟨Bool.eq_false_iff.mpr fun hp => ?_, Bool.eq_false_iff.mpr fun hf => ?_,
    Bool.eq_false_iff.mpr fun hd => h.busyDone ⟨hb, hd⟩⟩
  · exact absurd hb (by simp [(h.pending hp).1])
  · exact absurd hb (by simp [(h.dead hf).1])

/-- While a command runs, what it holds internally is free within the capacities. -/
theorem inv_of_busy {s : State} (h : Inv s) (hb : s.busy = true) {bufs : Buffers}
    (hcap : ∀ b, (readBuf bufs b).length ≤ capacity s.cfg b) (upc : BitVec 5) (diff : Byte) (cipher : CipherRegs)
    (digest : DigestRegs) (rng : Bytes) :
    Inv { s with bufs := bufs, upc := upc, diff := diff, cipher := cipher, digest := digest, rng := rng } := by
  obtain ⟨hp, hf, _⟩ := inv_flags_of_busy h hb
  exact ⟨h.cfg, h.window, hcap, h.busyDone, by simp [hf], by simp [hp], by simp [hb], h.running, h.result,
    by simp [hb]⟩

theorem capacities_onlyOut {c : Config} {o : Bytes} (h : o.length ≤ maxPkt c) (b : Buf) :
    (readBuf { Buffers.empty with out := o } b).length ≤ capacity c b := by
  by_cases hb : b = .out
  · subst hb; exact h
  · simp [readBuf_onlyOut_of_ne o hb]

theorem capacities_writeBuf {c : Config} {bs : Buffers} (h : ∀ b, (readBuf bs b).length ≤ capacity c b) {dst : Buf}
    {v : Bytes} (hv : v.length ≤ capacity c dst) (b : Buf) :
    (readBuf (writeBuf bs dst v) b).length ≤ capacity c b := by
  by_cases hb : b = dst
  · subst hb; rwa [readBuf_writeBuf_same]
  · rw [readBuf_writeBuf_of_ne bs v hb]; exact h b

/-- R41, R202: a completion meets the invariant whatever the command held internally, if `OUT` is within its
capacity. -/
theorem inv_complete {s : State} {code : ResultCode} {cause : Cause} (hc : s.cfg.Wf) (hp : s.initPending = false)
    (hf : s.fatal = false) (hout : s.bufs.out.length ≤ maxPkt s.cfg) (hl : legalResult code cause = true) :
    Inv (complete code cause s) where
  cfg := hc
  window := ⟨rfl, by simp⟩
  capacities := by
    rw [complete_bufs]
    refine capacities_onlyOut ?_
    split
    · exact hout
    · exact Nat.zero_le _
  busyDone := by simp
  dead := by simp [hf]
  pending := by simp [hp]
  idle _ := (internalClear_iff _).mpr (by simp)
  running := by simp
  result := hl
  output _ ho := ⟨rfl, by_contra fun (hn : code ≠ .ok) => ho (by simp [hn])⟩

/-! ### The sequencer -/

/-- `SPLIT` of a long enough blob stays within the capacities (R192, R193). -/
theorem capacities_split {c : Config} {bs : Buffers} (h : ∀ b, (readBuf bs b).length ≤ capacity c b)
    (hl : minBlob ≤ bs.blob.length) (hc : (ctField bs.blob).length ≤ capacity c .ctHex) (b : Buf) :
    (readBuf { bs with tagHex := tagField bs.blob, ctHex := ctField bs.blob, keyHex := keyField bs.blob } b).length ≤
      capacity c b := by
  obtain ⟨htag, hkey, -⟩ := fields_of_blob hl
  have htag' : (tagField bs.blob).length ≤ capacity c .tagHex := htag.le
  have hkey' : (keyField bs.blob).length ≤ capacity c .keyHex := hkey.le
  exact capacities_writeBuf (capacities_writeBuf (capacities_writeBuf h htag') hc) hkey' b

/-- A unit operation keeps the invariant in each of the ways it can leave the engine. -/
theorem inv_stepped {s t : State} (h : Inv s) (hb : s.busy = true) (hst : Stepped s t) : Inv t := by
  obtain ⟨hp, hf, -⟩ := inv_flags_of_busy h hb
  cases hst with
  | waits => exact h
  | writes dst v cipher digest rng hdst hv hu =>
    exact inv_of_busy h hb (capacities_writeBuf h.capacities hv) _ s.diff _ _ _
  | splits hl hc hu => exact inv_of_busy h hb (capacities_split h.capacities hl hc) _ s.diff s.cipher s.digest s.rng
  | compared hd hu => exact inv_of_busy h hb h.capacities _ _ s.cipher s.digest s.rng
  | completes code cause rng freeCount hl hn =>
    have hc : Inv (complete code cause s) := inv_complete h.cfg hp hf (h.capacities .out) hl
    exact inv_ports hc s.ovr s.ie s.rngOk s.cipherOk s.digestOk rng s.env s.reply freeCount

theorem inv_engineTurn {s t : State} (h : Inv s) (ht : engineTurn s = .next t) : Inv t := by
  rcases engineTurn_cases s with ⟨-, he⟩ | ⟨hb, u, he, hst⟩ <;> cases he.symm.trans ht
  · exact h
  · exact inv_stepped h hb hst

/-! ### The host -/

/-- R201: an accepted command starts with its input within the capacity of `IN`. -/
theorem inv_startCommand {s : State} (h : Inv s) (hp : s.initPending = false) (hf : s.fatal = false) {c : CmdReg}
    (hc : c ≠ .none) (entry : BitVec 5) (hlen : s.ilen.toNat ≤ maxPkt s.cfg) :
    Inv (startCommand c entry (beginCommand s)) where
  cfg := h.cfg
  window := h.window
  capacities b := by
    have hout : ([] : Bytes).length ≤ capacity s.cfg .out := Nat.zero_le _
    have hinp : (windowPrefix s.inw s.ilen.toNat).length ≤ capacity s.cfg .inp := by
      rw [windowPrefix_length]; exact hlen
    exact capacities_writeBuf (capacities_writeBuf h.capacities hout) hinp b
  busyDone := by simp
  dead := by simp [hf]
  pending := by simp [hp]
  idle := by simp
  running _ := ⟨hc, rfl⟩
  result := rfl
  output := by simp

/-- The longest input a command takes fits `IN` (R201), and it latches a command (R28). -/
theorem Command.bounds {c : Config} {v : Word32} {r : CmdReg} {entry : BitVec 5} {cap : Nat}
    (h : Command c v r entry cap) : r ≠ .none ∧ cap ≤ maxPkt c := by
  cases h with
  | encode => exact ⟨by simp, maxPt_le_maxPkt c⟩
  | decode => exact ⟨by simp, le_rfl⟩

theorem inv_acceptCommand {s : State} (h : Inv s) (hp : s.initPending = false) (v : Word32) :
    Inv (acceptCommand v s) := by
  have refused (hf : s.fatal = false) {code : ResultCode} {cause : Cause} (hl : legalResult code cause = true) :
      Inv (complete code cause (beginCommand s)) := inv_complete h.cfg hp hf (Nat.zero_le _) hl
  rcases acceptCommand_cases v s with
    ⟨-, he⟩ | ⟨-, -, he⟩ | ⟨hf, -, -, -, he⟩ | ⟨hf, -, c, entry, cap, hcmd, ⟨-, he⟩ | ⟨hlen, he⟩⟩ <;> rw [he]
  · exact h
  · exact inv_ports h true s.ie s.rngOk s.cipherOk s.digestOk s.rng s.env s.reply s.freeCount
  · exact refused hf rfl
  · exact refused hf rfl
  · obtain ⟨hc, hcap⟩ := hcmd.bounds
    exact inv_startCommand h hp hf hc entry (hlen.trans hcap)

/-- R61: a release empties `OUT` with `DONE`. -/
theorem inv_release {s : State} (h : Inv s) (hd : s.done = true) :
    Inv { s with done := false, bufs := { s.bufs with out := [] } } where
  cfg := h.cfg
  window := h.window
  capacities := capacities_writeBuf h.capacities (dst := .out) (v := []) (Nat.zero_le _)
  busyDone := by simp
  dead hf := absurd hd (by simp [(h.dead hf).2.1])
  pending hp := absurd hd (by simp [(h.pending hp).2.1])
  idle hb := by
    obtain ⟨hbufs, hrest⟩ := h.idle hb
    exact ⟨fun b hne => (readBuf_writeBuf_of_ne s.bufs [] hne).trans (hbufs b hne), hrest⟩
  running := h.running
  result := h.result
  output _ ho := absurd rfl ho

theorem inv_writeStatus {s : State} (h : Inv s) (v : Word32) : Inv (writeStatus v s) := by
  have ovr {u : State} (hu : Inv u) (b : Bool) : Inv { u with ovr := b } :=
    inv_ports hu b u.ie u.rngOk u.cipherOk u.digestOk u.rng u.env u.reply u.freeCount
  obtain ⟨b, he | ⟨hd, he⟩⟩ := writeStatus_cases v s <;> rw [he]
  · exact ovr h b
  · exact ovr (inv_release h hd) b

/-- R33, R57: what the host may load into an engine that is alive: a length and its window. -/
theorem inv_load {s : State} (h : Inv s) (hp : s.initPending = false) (hf : s.fatal = false) (ilen : Word32)
    {inw : Memory} (hw : Memory.wf inw = true) (hin : ∀ c ∈ inw, c.1 < maxPkt s.cfg) :
    Inv { s with ilen := ilen, inw := inw } :=
  ⟨h.cfg, ⟨hw, hin⟩, h.capacities, h.busyDone, by simp [hf], by simp [hp], h.idle, h.running, h.result, h.output⟩

theorem inv_hostWrite {s : State} (h : Inv s) (hp : s.initPending = false) (space : Space) (k width : Nat)
    (v : Word32) : Inv (hostWrite space k width v s) := by
  obtain ⟨hw, hin⟩ := h.window
  rcases hostWrite_cases space k width v s with
    he | ⟨-, -, he⟩ | ⟨hf, -, he⟩ | ⟨hf, -, hk, b, he⟩ | ⟨b, he⟩ | he <;> rw [he]
  · exact h
  · exact inv_ports h true s.ie s.rngOk s.cipherOk s.digestOk s.rng s.env s.reply s.freeCount
  · exact inv_load h hp hf v hw hin
  · refine inv_load h hp hf s.ilen (Memory.write_wf k b hw) fun c hc => ?_
    rcases Memory.mem_write_index hc with hck | hmem
    · exact hck ▸ hk
    · exact hin c hmem
  · exact inv_ports h s.ovr b s.rngOk s.cipherOk s.digestOk s.rng s.env s.reply s.freeCount
  · exact inv_writeStatus h v

theorem inv_hostTurn {s t : State} {a : HostAccess} (h : Inv s) (hp : s.initPending = false)
    (ht : hostTurn a s = .next t) : Inv t := by
  have reply {u : State} (hu : Inv u) (r : Option Word32) : Inv { u with reply := r } :=
    inv_ports hu u.ovr u.ie u.rngOk u.cipherOk u.digestOk u.rng u.env r u.freeCount
  rcases hostTurn_cases ht with ⟨v, rfl⟩ | ⟨r, rfl⟩ | ⟨space, k, width, v, rfl⟩
  · exact inv_acceptCommand (reply h none) hp v
  · exact reply h r
  · exact reply (inv_hostWrite h hp space k width v) none

/-! ### Reset and initialisation -/

/-- R260: a reset meets the invariant from any state whose parameters are in range. -/
theorem inv_resetEngine {s : State} (hc : s.cfg.Wf) : Inv (resetEngine s) where
  cfg := hc
  window := ⟨rfl, by simp⟩
  capacities b := by simp
  busyDone := by simp
  dead := by simp
  pending _ := ⟨rfl, rfl, rfl, rfl, rfl, rfl, rfl⟩
  idle _ := (internalClear_iff _).mpr ⟨rfl, rfl, rfl, rfl, rfl, rfl⟩
  running := by simp
  result := rfl
  output _ ho := absurd rfl ho

/-- R256, R262: the check finds an engine in which nothing was ever loaded, so it may declare it dead. -/
theorem inv_initialise {s : State} (h : Inv s) (hp : s.initPending = true) : Inv (initialise s) := by
  obtain ⟨hbusy, hdone, -, hcode, hilen, hinw, hout⟩ := h.pending hp
  exact ⟨h.cfg, h.window, h.capacities, h.busyDone, fun _ => ⟨hbusy, hdone, hcode, hilen, hinw, hout⟩, by simp,
    h.idle, h.running, h.result, h.output⟩

/-! ### Every step -/

/-- Settles O43: each agent that can take the step keeps the invariant. -/
theorem engineInvKept : Obligations.EngineInvKept := by
  intro s t h hstep
  have hport (r c d : Bool) (rng : Bytes) :
      Inv { s with env := s.env.tail, rngOk := r, cipherOk := c, digestOk := d, rng := rng } :=
    inv_ports h s.ovr s.ie r c d rng s.env.tail s.reply s.freeCount
  have hnext : Inv { s with env := s.env.tail } := hport s.rngOk s.cipherOk s.digestOk s.rng
  rcases step_cases hstep with
    ⟨hp, rfl⟩ | ⟨hp, hengine | ⟨a, hhost⟩ | rfl | ⟨bytes, rfl⟩ | ⟨r, c, d, rfl⟩⟩
  · exact inv_initialise h hp
  · exact inv_engineTurn hnext hengine
  · exact inv_hostTurn hnext hp hhost
  · exact inv_resetEngine h.cfg
  · exact hport s.rngOk s.cipherOk s.digestOk (s.rng ++ bytes)
  · exact hport r c d s.rng

end Sys2Proof.Machine
end

section
/-! PROOF. What the host sees of the engine's state through the register block (10_state.md rules R31, R33, R34, R37,
R39; 20_memory.md rules R56, R58 to R60, R62; R254), and the state at reset (R39, R260). First each register of
`readReg` and `writeReg` is given its value once; the statements about a host step follow by `step_of_hostNext`. -/

namespace Sys2Proof.Machine

/-! ### Reset -/

/-- R260: a reset leaves the reset state as it is, so what every reset establishes holds of it. -/
theorem resetEngine_reset : resetEngine State.reset = State.reset := rfl

/-- R39: a reset event reaches the table of reset values from any state. -/
theorem resetValues_resetEngine (s : State) : ResetValues (resetEngine s) := by
  have hinw (k : Nat) : Memory.read (resetEngine s).inw k = 0 := rfl
  have houtw (k : Nat) : outwByte (resetEngine s) k = 0 := rfl
  exact ⟨readBuf_empty, hinw, houtw, rfl, rfl, rfl, rfl, rfl, rfl, rfl, rfl, rfl, rfl, rfl, rfl, rfl, rfl, rfl, rfl, rfl⟩

/-- Settles O12: `State.reset` is the result of a reset event. -/
theorem resetStateValues : Obligations.ResetStateValues := resetValues_resetEngine State.reset

/-- An engine that is not busy and reports nothing is on neither sequence. -/
theorem sequenceInv_of_silent {s : State} (hc : s.cfg.Wf) (hr : s.rom = sequenceRom) (hb : s.busy = false)
    (hn : s.resultCode = .none) : SequenceInv s where
  cfg := hc
  rom := hr
  sampled h := absurd h (by simp [hb])
  shape h := absurd h (by simp [hb])
  noFault := by simp [hn]
  noCipherFailure := by simp [hn]

/-- Settles O45: the pinned parameters are in range, and nothing has run yet. -/
theorem invariantsAtReset : Obligations.InvariantsAtReset := by
  have hpinned : State.reset.cfg.Wf := by decide
  have hinv : Inv (resetEngine State.reset) := inv_resetEngine hpinned
  rw [resetEngine_reset] at hinv
  exact ⟨hinv, sequenceInv_of_silent hpinned rfl rfl rfl⟩

/-! ### The numbers of the registers (R31) -/

/-- Fields side by side are digits of a number. -/
theorem toNat_append_eq_add {m n : Nat} (x : BitVec m) (y : BitVec n) :
    (x ++ y).toNat = x.toNat * 2 ^ n + y.toNat := by
  rw [BitVec.toNat_append, ← Nat.shiftLeft_add_eq_or_of_lt y.isLt, Nat.shiftLeft_eq]

theorem statusWord_toNat (s : State) :
    (statusWord s).toNat = s.busy.toNat + 2 * s.done.toNat + 4 * s.fatal.toNat + 8 * s.ovr.toNat := by
  simp only [statusWord, toNat_append_eq_add, BitVec.toNat_ofBool, BitVec.toNat_ofNat]
  omega

theorem resultWord_toNat (s : State) :
    (resultWord s).toNat = (resultNumber s.resultCode).toNat + 256 * (causeNumber s.resultCause).toNat := by
  simp only [resultWord, toNat_append_eq_add, BitVec.toNat_ofNat]
  omega

theorem ctrlWord_toNat (s : State) : (ctrlWord s).toNat = s.ie.toNat := by
  simp only [ctrlWord, toNat_append_eq_add, BitVec.toNat_ofBool, BitVec.toNat_ofNat]
  omega

/-! ### Reads of `REG` -/

theorem hostRead_reg (s : State) {k : Nat} (h : k % 4 = 0) : hostRead s .reg k 4 = some (readReg s k) := by
  simp [hostRead, admitted, h]

/-- R56: the offsets above `CAP_PKT` are reserved and read 0. -/
theorem readReg_reserved (s : State) {k : Nat} (h : 0x20 ≤ k) : readReg s k = 0 := by
  unfold readReg
  split
  case h_9 => rfl
  all_goals exact absurd h (by decide)

/-- R60: `RESULT` is hidden while a command runs. -/
theorem readReg_result_toNat (s : State) :
    (readReg s 0x08).toNat =
      if s.busy then 0 else (resultNumber s.resultCode).toNat + 256 * (causeNumber s.resultCause).toNat := by
  rw [← resultWord_toNat]
  exact apply_ite BitVec.toNat (s.busy = true) 0 (resultWord s)

/-- A 4-byte read of an aligned offset of `REG`, as a step. -/
theorem step_of_readReg {s : State} {rest : List Event} {k : Nat} (hk : k < 0x10000) (ha : k % 4 = 0)
    (h : HostNext (.read k 4) rest s) :
    step s = .next { s with env := rest, reply := some (readReg { s with env := rest } k) } := by
  rw [step_of_hostNext h, hostTurn_read (locate_reg _ hk), hostRead_reg _ ha]

/-- Settles O39, one register of `readReg` at a time. -/
theorem registerReads : Obligations.RegisterReads := by
  intro s rest k hk ha h
  refine ⟨_, step_of_readReg hk ha h, ?cmd, ?status, ?result, ?ctrl, ?ilen, ?olen, ?capPt, ?capPkt,
    readReg_reserved _⟩ <;> rintro rfl
  case status => exact statusWord_toNat _
  case result => exact readReg_result_toNat _
  case ctrl => exact ctrlWord_toNat _
  case cmd | ilen | olen | capPt | capPkt => rfl

/-! ### Writes to `REG` -/

theorem hostWrite_reg {k : Nat} (v : Word32) (s : State) (h : k % 4 = 0) :
    hostWrite .reg k 4 v s = writeReg k v s := by
  simp [hostWrite, admitted, h]

/-- R33, R59: `ILEN` takes any value while no command runs and the engine is alive. -/
theorem writeReg_ilen (v : Word32) {s : State} (hb : s.busy = false) (hf : s.fatal = false) :
    writeReg 0x10 v s = { s with ilen := v } := by
  simp [writeReg, guardedWrite, hb, hf]

/-- R31, R56: an offset other than those of the registers the host can write ignores a write. -/
theorem writeReg_of_readOnly {k : Nat} (v : Word32) (s : State) (hk : k ∉ [0x00, 0x04, 0x0C, 0x10]) :
    writeReg k v s = s := by
  unfold writeReg
  split
  case h_4 => rfl
  all_goals exact absurd hk (by decide)

/-- A 4-byte write to an aligned offset of `REG` other than `CMD`, as a step. -/
theorem step_of_writeReg {s : State} {rest : List Event} {k : Nat} {v : Word32} (hk : k < 0x10000) (ha : k % 4 = 0)
    (hcmd : k ≠ 0) (h : HostNext (.write k 4 v) rest s) :
    step s = .next { writeReg k v { s with env := rest } with reply := none } := by
  rw [step_of_hostNext h, hostTurn_write (locate_reg _ hk) (fun ⟨_, h0, _⟩ => hcmd h0), hostWrite_reg v _ ha]

/-- Settles O40: `ILEN`, `CTRL`, and the offsets that ignore a write. -/
theorem registerWrites : Obligations.RegisterWrites := by
  intro s rest v
  refine ⟨fun h hb hf => ?_, fun h => ?_, fun k hk ha hro h => ?_⟩
  · rw [step_of_writeReg (by decide) rfl (by decide) h, writeReg_ilen (s := { s with env := rest }) v hb hf]
  · exact step_of_writeReg (by decide) rfl (by decide) h
  · have hcmd : k ≠ 0 := fun h0 => hro (by simp [h0])
    rw [step_of_writeReg hk ha hcmd h, writeReg_of_readOnly v _ hro]

/-! ### What a read depends on (R37, R60, R254) -/

/-- Every register is a function of what the host may see: `RESULT` and `OLEN` show nothing while a command runs. -/
theorem readReg_congr {s t : State} (h : SameToHost s t) (k : Nat) : readReg t k = readReg s k := by
  obtain ⟨hcfg, hbusy, hdone, hfatal, hovr, hcode, hcause, hie, hilen, hout⟩ := h
  have hstatus : statusWord t = statusWord s := by simp only [statusWord, hbusy, hdone, hfatal, hovr]
  have hresult : resultWord t = resultWord s := by simp only [resultWord, hcode, hcause]
  have hctrl : ctrlWord t = ctrlWord s := by simp only [ctrlWord, hie]
  have holen : (if t.busy then 0 else olen t) = if s.busy then 0 else olen s := by
    rw [hbusy]
    cases hb : s.busy with
    | true => rfl
    | false => simp only [olen, hout hb]
  unfold readReg
  rw [hstatus, hresult, hctrl, hilen, hcfg, holen, hbusy]

/-- The output window shows `OUT` only while no command runs. -/
theorem readOutw_congr {s t : State} (h : SameToHost s t) (k : Nat) : readOutw t k = readOutw s k := by
  obtain ⟨-, hbusy, -, -, -, -, -, -, -, hout⟩ := h
  unfold readOutw
  rw [hbusy]
  cases hb : s.busy with
  | true => rfl
  | false => rw [hout hb]

/-- No read of any space and width tells apart two states the host may not tell apart. -/
theorem hostRead_congr {s t : State} (h : SameToHost s t) (space : Space) (k width : Nat) :
    hostRead t space k width = hostRead s space k width := by
  cases space with
  | reg => simp only [hostRead, readReg_congr h]
  | inw => rfl
  | outw => simp only [hostRead, readOutw_congr h]

/-! ### Where a read stops -/

/-- R56: the offsets of the window are those of its three ranges. -/
theorem locate_isSome_iff (c : Config) (offset : Nat) :
    (locate c offset).isSome = true ↔ offset < 0x10000 ∨ (c.inBase ≤ offset ∧ offset < c.inBase + 0x10000) ∨
      (c.outBase ≤ offset ∧ offset < c.outBase + 0x10000) := by
  unfold locate
  split_ifs <;> simp_all

/-- A host read at an offset in none of the ranges (assumption 9). -/
theorem hostTurn_read_outside {s : State} {offset : Nat} (width : Nat) (h : locate s.cfg offset = none) :
    hostTurn (.read offset width) s = .fault (.outsideWindow offset) := by
  simp [hostTurn, commandWrite, hostAccess, h]

/-- Settles O42: both states resolve the offset alike, and what is read there depends on nothing internal. -/
theorem hostReadsHideInternals : Obligations.HostReadsHideInternals := by
  intro s t off width rs rt hsame hs ht
  have hloc : locate t.cfg off = locate s.cfg off := by rw [hsame.1]
  rw [step_of_hostNext hs, step_of_hostNext ht]
  split
  · next hin =>
    obtain ⟨⟨space, k⟩, hl⟩ := Option.isSome_iff_exists.mp ((locate_isSome_iff s.cfg off).mpr hin)
    have hread : hostRead { t with env := rt } space k width = hostRead { s with env := rs } space k width :=
      hostRead_congr hsame space k width
    refine ⟨_, hostTurn_read hl, ?_⟩
    rw [← hread]
    exact hostTurn_read (hloc.trans hl)
  · next hout =>
    have hl : locate s.cfg off = none := by
      rwa [← locate_isSome_iff, Bool.not_eq_true, Option.isSome_eq_false_iff, Option.isNone_iff_eq_none] at hout
    exact ⟨hostTurn_read_outside width hl, hostTurn_read_outside width (hloc.trans hl)⟩

end Sys2Proof.Machine
end

section
/-! PROOF. The host window from the host's side (20_memory.md rules R55 to R61) and the one way `DONE` rises (R64 b,
R202, R213). Each kind of access is given its step once: the writes that R59 guards, the two byte windows, `STATUS`,
and the accesses R55 leaves without effect. That `DONE` rises only in a completion follows agent by agent from
`step_cases`. -/

namespace Sys2Proof.Machine

/-! ### `DONE` rises only in a completion (R213) -/

/-- R202, R231: the state is the one right after a completion with a legal result that is not `NONE`. -/
def JustCompleted (t : State) : Prop :=
  ∃ code cause u, t = complete code cause u ∧ code ≠ .none ∧ legalResult code cause = true

/-- From `s` to `t` the flag `DONE` does not rise, unless `t` is the state right after a completion. -/
def RisesByCompletion (s t : State) : Prop := t.done = true → s.done = true ∨ JustCompleted t

theorem risesByCompletion_of_eq {s t : State} (h : t.done = s.done) : RisesByCompletion s t :=
  fun ht => .inl (h.symm.trans ht)

theorem risesByCompletion_of_done_false {s t : State} (h : t.done = false) : RisesByCompletion s t :=
  fun ht => absurd ht (by simp [h])

theorem risesByCompletion_complete (s u : State) {code : ResultCode} {cause : Cause} (hn : code ≠ .none)
    (hl : legalResult code cause = true) : RisesByCompletion s (complete code cause u) :=
  fun _ => .inr ⟨code, cause, u, rfl, hn, hl⟩

/-- What a completion leaves at the random source and in the free counter is what it found there. -/
theorem complete_ports (code : ResultCode) (cause : Cause) (s : State) (rng : Bytes) (freeCount : Nat) :
    { complete code cause s with rng := rng, freeCount := freeCount } =
      complete code cause { s with rng := rng, freeCount := freeCount } := by
  unfold complete
  split <;> rfl

/-- A unit operation raises `DONE` only by ending its command (R202). -/
theorem risesByCompletion_stepped {s t : State} (h : Stepped s t) : RisesByCompletion s t := by
  cases h with
  | waits | writes | splits | compared => exact risesByCompletion_of_eq rfl
  | completes code cause rng freeCount hl hn =>
    rw [complete_ports]
    exact risesByCompletion_complete s _ hn hl

theorem risesByCompletion_engineTurn {s t : State} (h : engineTurn s = .next t) : RisesByCompletion s t := by
  rcases engineTurn_cases s with ⟨-, he⟩ | ⟨-, u, he, hst⟩ <;> cases he.symm.trans h
  · exact risesByCompletion_of_eq rfl
  · exact risesByCompletion_stepped hst

/-- A write to `CMD` raises `DONE` only when it is refused, which is a completion (R201, R237). -/
theorem risesByCompletion_acceptCommand (v : Word32) (s : State) : RisesByCompletion s (acceptCommand v s) := by
  rcases acceptCommand_cases v s with
    ⟨-, he⟩ | ⟨-, -, he⟩ | ⟨-, -, -, -, he⟩ | ⟨-, -, c, entry, cap, -, ⟨-, he⟩ | ⟨-, he⟩⟩ <;> rw [he]
  · exact risesByCompletion_of_eq rfl
  · exact risesByCompletion_of_eq rfl
  · exact risesByCompletion_complete s _ (by decide) rfl
  · exact risesByCompletion_complete s _ (by decide) rfl
  · exact risesByCompletion_of_done_false rfl

/-- No host write but one to `CMD` raises `DONE`: only a release touches it, and it clears it (R61). -/
theorem hostWrite_done_imp {space : Space} {k width : Nat} {v : Word32} {s : State}
    (h : (hostWrite space k width v s).done = true) : s.done = true := by
  rcases hostWrite_cases space k width v s with
    he | ⟨-, -, he⟩ | ⟨-, -, he⟩ | ⟨-, -, -, b, he⟩ | ⟨b, he⟩ | he <;> rw [he] at h
  case inr.inr.inr.inr.inr =>
    obtain ⟨ovr, hw | ⟨hd, -⟩⟩ := writeStatus_cases v s
    · rwa [hw] at h
    · exact hd
  all_goals exact h

theorem risesByCompletion_hostTurn {s t : State} {a : HostAccess} (h : hostTurn a s = .next t) :
    RisesByCompletion s t := by
  rcases hostTurn_cases h with ⟨v, rfl⟩ | ⟨r, rfl⟩ | ⟨space, k, width, v, rfl⟩
  · exact risesByCompletion_acceptCommand v { s with reply := none }
  · exact risesByCompletion_of_eq rfl
  · exact fun ht => .inl (hostWrite_done_imp ht)

/-- R213: whichever agent takes the step, `DONE` rises only in a completion. -/
theorem risesByCompletion_step {s t : State} (h : step s = .next t) : RisesByCompletion s t := by
  rcases step_cases h with ⟨-, rfl⟩ | ⟨-, hengine | ⟨a, hhost⟩ | rfl | ⟨bytes, rfl⟩ | ⟨r, c, d, rfl⟩⟩
  · exact risesByCompletion_of_eq rfl
  · exact risesByCompletion_engineTurn (s := { s with env := s.env.tail }) hengine
  · exact risesByCompletion_hostTurn (s := { s with env := s.env.tail }) hhost
  · exact risesByCompletion_of_done_false rfl
  · exact risesByCompletion_of_eq rfl
  · exact risesByCompletion_of_eq rfl

/-- Settles O47: the step is a completion, and `complete_completedWith` says all that one does. -/
theorem completionIsOneTransition : Obligations.CompletionIsOneTransition := by
  intro s t hstep hs ht
  rcases risesByCompletion_step hstep ht with hd | ⟨code, cause, u, rfl, hn, hl⟩
  · exact absurd hd (by simp [hs])
  · obtain ⟨-, -, hout, hbusy, -, hclear, hilen, hinw, -⟩ := complete_completedWith code cause u
    exact ⟨hbusy, hn, hl, fun hne => hout.trans (if_neg hne), hclear, hilen, hinw⟩

/-! ### A host access, as a step -/

theorem step_of_read {s : State} {rest : List Event} {offset width k : Nat} {space : Space}
    (hl : locate s.cfg offset = some (space, k)) (h : HostNext (.read offset width) rest s) :
    step s = .next { s with env := rest, reply := hostRead { s with env := rest } space k width } :=
  (step_of_hostNext h).trans (hostTurn_read hl)

theorem step_of_write {s : State} {rest : List Event} {offset width k : Nat} {v : Word32} {space : Space}
    (hl : locate s.cfg offset = some (space, k)) (hn : ¬ (space = .reg ∧ k = 0 ∧ width = 4))
    (h : HostNext (.write offset width v) rest s) :
    step s = .next { hostWrite space k width v { s with env := rest } with reply := none } :=
  (step_of_hostNext h).trans (hostTurn_write hl hn)

/-! ### Writes that a busy or a dead engine ignores (R59) -/

theorem guardedWrite_of_fatal {s : State} (t : State) (h : s.fatal = true) : guardedWrite s t = s := if_pos h

theorem guardedWrite_of_busy {s : State} (t : State) (hf : s.fatal = false) (hb : s.busy = true) :
    guardedWrite s t = { s with ovr := true } := by
  simp [guardedWrite, hf, hb]

theorem guardedWrite_of_idle {s : State} (t : State) (hf : s.fatal = false) (hb : s.busy = false) :
    guardedWrite s t = t := by
  simp [guardedWrite, hf, hb]

/-- The record of a reply lies beside what a guarded write does. -/
theorem guardedWrite_reply (s t : State) (r : Option Word32) :
    { guardedWrite s t with reply := r } = guardedWrite { s with reply := r } { t with reply := r } := by
  simp only [guardedWrite, apply_ite (fun u : State => { u with reply := r })]

/-- R59, R201: a write to `CMD` is guarded like one to `ILEN` or to the input window. -/
theorem acceptCommand_guarded (v : Word32) (s : State) : acceptCommand v s = guardedWrite s (acceptCommand v s) := by
  unfold acceptCommand guardedWrite
  split_ifs <;> rfl

/-- R201: a host write to `CMD`, whatever the code. -/
theorem hostTurn_command (v : Word32) (s : State) :
    hostTurn (.write 0x00 4 v) s = .next (acceptCommand v { s with reply := none }) := by
  have hcmd : commandWrite s.cfg (.write 0x00 4 v) = some v := by simp [commandWrite, locate]
  unfold hostTurn
  rw [hcmd]
  by_cases h1 : v = 1#32
  · subst h1; rfl
  by_cases h2 : v = 2#32
  · subst h2; rfl
  simp only [decode, decodeCmd, if_neg h1, if_neg h2, reservedCommand]

/-- A byte write to the input window, as a step. -/
theorem step_of_writeInw {s : State} {rest : List Event} {k : Nat} {v : Word32} (hc : s.cfg.Wf) (hk : k < 0x10000)
    (h : HostNext (.write (s.cfg.inBase + k) 1 v) rest s) :
    step s = .next { writeInw k (v.extractLsb' 0 8) { s with env := rest } with reply := none } :=
  step_of_write (locate_inw hc hk) (by simp) h

/-- R59: a host write to `CMD`, to `ILEN` or to an index of the input window. -/
inductive GuardedAccess (c : Config) : HostAccess → Prop
  | cmd (v : Word32) : GuardedAccess c (.write 0x00 4 v)
  | ilen (v : Word32) : GuardedAccess c (.write 0x10 4 v)
  | inw {k : Nat} (v : Word32) (hk : k < 0x10000) : GuardedAccess c (.write (c.inBase + k) 1 v)

/-- R59: such an access acts through the guard, so that what it would write matters to an idle engine only. -/
theorem step_of_guardedAccess {s : State} {rest : List Event} {a : HostAccess} (hc : s.cfg.Wf)
    (ha : GuardedAccess s.cfg a) (h : HostNext a rest s) :
    ∃ t, step s = .next (guardedWrite { s with env := rest, reply := none } t) := by
  cases ha with
  | cmd v => exact ⟨_, by rw [step_of_hostNext h, hostTurn_command, acceptCommand_guarded]⟩
  | ilen v => exact ⟨_, by rw [step_of_writeReg (by decide) rfl (by decide) h, writeReg, guardedWrite_reply]⟩
  | inw v hk => exact ⟨_, by rw [step_of_writeInw hc hk h, writeInw, guardedWrite_reply]⟩

/-! ### Writes to `STATUS` (R61) -/

/-- R61: a release leaves `DONE` at 0, and empties `OUT` if there was anything to release. -/
theorem release_eq (s : State) :
    release s = { s with done := false, bufs := if s.done then { s.bufs with out := [] } else s.bufs } := by
  unfold release
  split
  · rfl
  · next hd =>
    replace hd : s.done = false := Bool.eq_false_iff.mpr hd
    rw [← hd]

/-- R61: the flags a write to `STATUS` leaves are those the written bits do not clear; `OUT` is emptied with `DONE`. -/
theorem writeStatus_eq (v : Word32) (s : State) :
    writeStatus v s = { s with
      done := s.done && !v.getLsbD 1
      bufs := if s.done && v.getLsbD 1 then { s.bufs with out := [] } else s.bufs
      ovr := s.ovr && !v.getLsbD 3 } := by
  unfold writeStatus
  rw [release_eq]
  cases v.getLsbD 1 <;> cases v.getLsbD 3 <;> simp

/-- Settles O38: `STATUS` is the register at offset 4, and `writeStatus_eq` says what it takes. -/
theorem statusWrite : Obligations.StatusWrite := by
  intro s rest v h
  rw [step_of_writeReg (by decide) rfl (by decide) h, writeReg, writeStatus_eq]

/-- Settles O37: the guarded accesses by `step_of_guardedAccess`, `CTRL` by O40 and `STATUS` by O38. -/
theorem writesWhileBusyOrDead : Obligations.WritesWhileBusyOrDead := by
  intro s rest v hc
  refine ⟨fun a ha h => ?_, fun h => ?_, fun h => ?_⟩
  · have hguarded : GuardedAccess s.cfg a := by
      rcases ha with rfl | rfl | ⟨k, hk, rfl⟩
      · exact .cmd v
      · exact .ilen v
      · exact .inw v hk
    obtain ⟨t, hstep⟩ := step_of_guardedAccess hc hguarded h
    rw [hstep]
    exact ⟨fun hf hb => congrArg _ (guardedWrite_of_busy t hf hb), fun hf => congrArg _ (guardedWrite_of_fatal t hf)⟩
  · obtain ⟨-, hctrl, -⟩ := registerWrites s rest v
    exact hctrl h
  · exact ⟨_, statusWrite s rest v h, rfl, rfl⟩

/-! ### The input and the output window (R57, R58) -/

/-- Settles O35: an idle engine lets the write through to the window's memory, if the index has storage. -/
theorem inputWindowAccess : Obligations.InputWindowAccess := by
  rintro s rest k v hc ⟨hwf, -⟩ hk
  refine ⟨fun h hb hf hstored => ?_, fun h hb hf hbeyond => ?_, fun h => ?_⟩
  · refine ⟨Memory.write s.inw k (v.extractLsb' 0 8), ?_, Memory.read_write_same k _ hwf,
      fun j hj => Memory.read_write_of_ne _ hj⟩
    rw [step_of_writeInw hc hk h, writeInw, guardedWrite_of_idle (s := { s with env := rest }) _ hf hb,
      if_pos hstored]
  · rw [step_of_writeInw hc hk h, writeInw, guardedWrite_of_idle (s := { s with env := rest }) _ hf hb,
      if_neg (Nat.not_lt.mpr hbeyond)]
  · exact step_of_read (locate_inw hc hk) h

theorem hostRead_outw (s : State) (k : Nat) : hostRead s .outw k 1 = some ((readOutw s k).zeroExtend 32) := rfl

/-- R58, R60: a byte of `OUT` while no command runs, and 0 beyond its end or while one does. -/
theorem readOutw_zeroExtend (s : State) (k : Nat) :
    (readOutw s k).zeroExtend 32 =
      if s.busy = false ∧ k < s.bufs.out.length then (s.bufs.out.getD k 0).zeroExtend 32 else 0 := by
  unfold readOutw
  cases s.busy with
  | true => simp
  | false =>
    by_cases hk : k < s.bufs.out.length <;> simp [hk]

/-- Settles O36: a read shows `readOutw`, and a write to the output window reaches nothing. -/
theorem outputWindowAccess : Obligations.OutputWindowAccess := by
  intro s rest k v hc hk
  have hloc : locate s.cfg (s.cfg.outBase + k) = some (.outw, k) := locate_outw hc hk
  refine ⟨fun h => ?_, step_of_write hloc (by simp)⟩
  rw [step_of_read hloc h, hostRead_outw, readOutw_zeroExtend]

/-! ### Accesses that are not admitted (R55) -/

theorem hostRead_of_not_admitted (s : State) {space : Space} {k width : Nat} (h : admitted space k width = false) :
    hostRead s space k width = none := by
  simp [hostRead, h]

theorem hostWrite_of_not_admitted (v : Word32) (s : State) {space : Space} {k width : Nat}
    (h : admitted space k width = false) : hostWrite space k width v s = s := by
  simp [hostWrite, h]

/-- R55, R56: an access that is not admitted, by the range its offset lies in. -/
theorem exists_locate_not_admitted {c : Config} (hc : c.Wf) {off width : Nat}
    (h : (off < 0x10000 ∧ (width ≠ 4 ∨ off % 4 ≠ 0)) ∨
      (c.inBase ≤ off ∧ off < c.inBase + 0x10000 ∧ width ≠ 1) ∨
      (c.outBase ≤ off ∧ off < c.outBase + 0x10000 ∧ width ≠ 1)) :
    ∃ space k, locate c off = some (space, k) ∧ admitted space k width = false := by
  rcases h with ⟨hoff, hw⟩ | ⟨hlo, hhi, hw⟩ | ⟨hlo, hhi, hw⟩
  · exact ⟨.reg, off, locate_reg c hoff, decide_eq_false (not_and_or.mpr hw)⟩
  · obtain ⟨k, rfl⟩ := Nat.exists_eq_add_of_le hlo
    exact ⟨.inw, k, locate_inw hc (Nat.lt_of_add_lt_add_left hhi), decide_eq_false hw⟩
  · obtain ⟨k, rfl⟩ := Nat.exists_eq_add_of_le hlo
    exact ⟨.outw, k, locate_outw hc (Nat.lt_of_add_lt_add_left hhi), decide_eq_false hw⟩

/-- A host write at an offset in none of the ranges (assumption 9). -/
theorem hostTurn_write_outside {s : State} {offset : Nat} (width : Nat) (v : Word32)
    (h : locate s.cfg offset = none) : hostTurn (.write offset width v) s = .fault (.outsideWindow offset) := by
  simp [hostTurn, commandWrite, hostAccess, h]

/-- R56: an offset in none of the three ranges lies nowhere. -/
theorem locate_eq_none {c : Config} {off : Nat} (hreg : 0x10000 ≤ off)
    (hinw : ¬ (c.inBase ≤ off ∧ off < c.inBase + 0x10000))
    (houtw : ¬ (c.outBase ≤ off ∧ off < c.outBase + 0x10000)) : locate c off = none := by
  rw [locate, if_neg (Nat.not_lt.mpr hreg), if_neg hinw, if_neg houtw]

/-- Settles O41: where the offset lies decides between the access that does nothing and the one that stops. -/
theorem refusedAccesses : Obligations.RefusedAccesses := by
  intro s rest off width v hc
  refine ⟨fun hrefused => ?_, fun hreg hinw houtw => ?_⟩
  · obtain ⟨space, k, hloc, hadm⟩ := exists_locate_not_admitted hc hrefused
    have hcmd : ¬ (space = .reg ∧ k = 0 ∧ width = 4) := by
      rintro ⟨rfl, rfl, rfl⟩
      exact absurd hadm (by decide)
    refine ⟨fun h => ?_, fun h => ?_⟩
    · rw [step_of_read hloc h, hostRead_of_not_admitted _ hadm]
    · rw [step_of_write hloc hcmd h, hostWrite_of_not_admitted v _ hadm]
  · have hloc : locate s.cfg off = none := locate_eq_none hreg hinw houtw
    exact ⟨fun h => (step_of_hostNext h).trans (hostTurn_read_outside width hloc),
      fun h => (step_of_hostNext h).trans (hostTurn_write_outside width v hloc)⟩

end Sys2Proof.Machine
end

section
/-! PROOF. The encodings of both levels and the legality of operands (30_encoding.md rules R70 to R78; R201, R238). The
opcode map R74 is said once, as two relations: which operation has explicit operands under which `op`, and which has
implied ones. What the decoder, the encoder, `Instr.wf` and `exec` make of a row of the map is a lemma over the
relation, and the statements follow by the cases of `decodeStep_cases` and `Instr.opcode_cases`. -/

namespace Sys2Proof

/-! ### The fields of a step word (R72) -/

theorem opField_toNat (w : StepWord) : (opField w).toNat = w.toNat / 256 := by
  have := w.isLt
  simp only [opField, BitVec.extractLsb'_toNat, Nat.shiftRight_eq_div_pow]
  omega

theorem dstField_toNat (w : StepWord) : (dstField w).toNat = w.toNat / 16 % 16 := by
  simp [dstField, BitVec.extractLsb'_toNat, Nat.shiftRight_eq_div_pow]

theorem srcField_toNat (w : StepWord) : (srcField w).toNat = w.toNat % 16 := by
  simp [srcField, BitVec.extractLsb'_toNat]

theorem stepWord_toNat (op : BitVec 8) (dst src : BitVec 4) :
    (stepWord op dst src).toNat = op.toNat * 256 + dst.toNat * 16 + src.toNat := by
  simp only [stepWord, Machine.toNat_append_eq_add]
  omega

@[simp] theorem opField_stepWord (op : BitVec 8) (dst src : BitVec 4) : opField (stepWord op dst src) = op := by
  apply BitVec.eq_of_toNat_eq
  rw [opField_toNat, stepWord_toNat]
  omega

@[simp] theorem dstField_stepWord (op : BitVec 8) (dst src : BitVec 4) : dstField (stepWord op dst src) = dst := by
  apply BitVec.eq_of_toNat_eq
  rw [dstField_toNat, stepWord_toNat]
  omega

@[simp] theorem srcField_stepWord (op : BitVec 8) (dst src : BitVec 4) : srcField (stepWord op dst src) = src := by
  apply BitVec.eq_of_toNat_eq
  rw [srcField_toNat, stepWord_toNat]
  omega

/-- The three fields are the whole word. -/
theorem stepWord_fields (w : StepWord) : stepWord (opField w) (dstField w) (srcField w) = w := by
  apply BitVec.eq_of_toNat_eq
  rw [stepWord_toNat, opField_toNat, dstField_toNat, srcField_toNat]
  omega

theorem dstField_eq_ofNat (w : StepWord) : dstField w = BitVec.ofNat 4 (w.toNat / 16) := by
  apply BitVec.eq_of_toNat_eq
  rw [dstField_toNat, BitVec.toNat_ofNat]

theorem srcField_eq_ofNat (w : StepWord) : srcField w = BitVec.ofNat 4 w.toNat := by
  apply BitVec.eq_of_toNat_eq
  rw [srcField_toNat, BitVec.toNat_ofNat]

/-! ### Buffer numbers (R73) -/

@[simp] theorem bufOfNumber_bufNumber (b : Buf) : bufOfNumber (bufNumber b) = .ok b := by
  cases b <;> rfl

theorem bufNumber_of_bufOfNumber {n : BitVec 4} {b : Buf} (h : bufOfNumber n = .ok b) : bufNumber b = n := by
  unfold bufOfNumber at h
  split at h <;> cases h <;> exact BitVec.eq_of_toNat_eq (Eq.symm ‹_›)

theorem bufNumber_injective : Function.Injective bufNumber := fun a b h => by
  simpa using congrArg bufOfNumber h

theorem bufNumber_toNat_le (b : Buf) : (bufNumber b).toNat ≤ 11 := by
  cases b <;> decide

/-- R73, R78: numbers 12 to 15 name no buffer. -/
theorem bufOfNumber_reserved {n : BitVec 4} (h : 12 ≤ n.toNat) : bufOfNumber n = .error (.reservedBuffer n) := by
  cases hb : bufOfNumber n with
  | ok b =>
    have := bufNumber_toNat_le b
    rw [bufNumber_of_bufOfNumber hb] at this
    omega
  | error e =>
    unfold bufOfNumber at hb
    split at hb <;> cases hb
    rfl

theorem exists_bufOfNumber {n : BitVec 4} (h : n.toNat < 12) : ∃ b, bufOfNumber n = .ok b := by
  unfold bufOfNumber
  split
  case h_13 =>
    simp only [imp_false] at *
    omega
  all_goals exact ⟨_, rfl⟩

/-! ### The opcode map (R74) -/

/-- R74: the operations with explicit operands, each with its `op`. -/
inductive ExplicitOp : BitVec 8 → (Buf → Buf → Instr) → Prop
  | move : ExplicitOp 0x02 .move
  | encrypt : ExplicitOp 0x20 .encrypt
  | decrypt : ExplicitOp 0x21 .decrypt
  | digest : ExplicitOp 0x30 .digest
  | hexenc : ExplicitOp 0x40 .hexenc
  | hexdec : ExplicitOp 0x41 .hexdec
  | b64enc : ExplicitOp 0x50 .b64enc
  | b64dec : ExplicitOp 0x51 .b64dec

/-- R74: the operations with implied operands, each with its `op`. -/
inductive ImpliedOp : BitVec 8 → Instr → Prop
  | done : ImpliedOp 0x01 .done
  | newseed : ImpliedOp 0x10 .newseed
  | derivekey : ImpliedOp 0x11 .derivekey
  | tagcmp : ImpliedOp 0x31 .tagcmp
  | join : ImpliedOp 0x60 .join
  | split : ImpliedOp 0x61 .split

/-- R70: an instruction stands in one of the two parts of the opcode map, or is a command. -/
theorem Instr.opcode_cases (i : Instr) :
    (∃ op mk dst src, ExplicitOp op mk ∧ i = mk dst src) ∨ (∃ op, ImpliedOp op i) ∨ i = .encode ∨ i = .decode := by
  cases i with
  | done => exact .inr (.inl ⟨_, .done⟩)
  | move dst src => exact .inl ⟨_, _, dst, src, .move, rfl⟩
  | newseed => exact .inr (.inl ⟨_, .newseed⟩)
  | derivekey => exact .inr (.inl ⟨_, .derivekey⟩)
  | encrypt dst src => exact .inl ⟨_, _, dst, src, .encrypt, rfl⟩
  | decrypt dst src => exact .inl ⟨_, _, dst, src, .decrypt, rfl⟩
  | digest dst src => exact .inl ⟨_, _, dst, src, .digest, rfl⟩
  | tagcmp => exact .inr (.inl ⟨_, .tagcmp⟩)
  | hexenc dst src => exact .inl ⟨_, _, dst, src, .hexenc, rfl⟩
  | hexdec dst src => exact .inl ⟨_, _, dst, src, .hexdec, rfl⟩
  | b64enc dst src => exact .inl ⟨_, _, dst, src, .b64enc, rfl⟩
  | b64dec dst src => exact .inl ⟨_, _, dst, src, .b64dec, rfl⟩
  | join => exact .inr (.inl ⟨_, .join⟩)
  | split => exact .inr (.inl ⟨_, .split⟩)
  | encode => exact .inr (.inr (.inl rfl))
  | decode => exact .inr (.inr (.inr rfl))

/-- The values of `op` with explicit operands. -/
theorem exists_explicitOp_iff (op : BitVec 8) :
    (∃ mk, ExplicitOp op mk) ↔ op.toNat ∈ [0x02, 0x20, 0x21, 0x30, 0x40, 0x41, 0x50, 0x51] := by
  constructor
  · rintro ⟨mk, hop⟩
    cases hop <;> decide
  · intro h
    have hop : op = BitVec.ofNat 8 op.toNat := by simp
    simp only [List.mem_cons, List.not_mem_nil, or_false] at h
    rw [hop]
    rcases h with h | h | h | h | h | h | h | h <;> rw [h]
    exacts [⟨_, .move⟩, ⟨_, .encrypt⟩, ⟨_, .decrypt⟩, ⟨_, .digest⟩, ⟨_, .hexenc⟩, ⟨_, .hexdec⟩, ⟨_, .b64enc⟩,
      ⟨_, .b64dec⟩]

/-- The values of `op` with implied operands. -/
theorem exists_impliedOp_iff (op : BitVec 8) :
    (∃ i, ImpliedOp op i) ↔ op.toNat ∈ [0x01, 0x10, 0x11, 0x31, 0x60, 0x61] := by
  constructor
  · rintro ⟨i, hop⟩
    cases hop <;> decide
  · intro h
    have hop : op = BitVec.ofNat 8 op.toNat := by simp
    simp only [List.mem_cons, List.not_mem_nil, or_false] at h
    rw [hop]
    rcases h with h | h | h | h | h | h <;> rw [h]
    exacts [⟨_, .done⟩, ⟨_, .newseed⟩, ⟨_, .derivekey⟩, ⟨_, .tagcmp⟩, ⟨_, .join⟩, ⟨_, .split⟩]

/-! ### The encoder and the decoder, by the rows of the map (R72, R74, R78) -/

theorem ExplicitOp.encode_eq {op : BitVec 8} {mk : Buf → Buf → Instr} (h : ExplicitOp op mk) (dst src : Buf) :
    encode (mk dst src) = .step (stepWord op (bufNumber dst) (bufNumber src)) := by
  cases h <;> rfl

theorem ImpliedOp.encode_eq {op : BitVec 8} {i : Instr} (h : ImpliedOp op i) :
    encode i = .step (stepWord op 0 0) := by
  cases h <;> rfl

theorem ExplicitOp.decodeStep_eq {w : StepWord} {mk : Buf → Buf → Instr} (h : ExplicitOp (opField w) mk) :
    decodeStep w = decodeExplicit w mk := by
  unfold decodeStep
  generalize opField w = op at h
  cases h <;> rfl

theorem ImpliedOp.decodeStep_eq {w : StepWord} {i : Instr} (h : ImpliedOp (opField w) i) :
    decodeStep w = decodeImplied w i := by
  unfold decodeStep
  generalize opField w = op at h
  cases h <;> rfl

/-- R74, R78: a value of `op` outside the opcode map. -/
theorem decodeStep_reservedOp {w : StepWord} (h : (opField w).toNat ∉
    [0x01, 0x02, 0x10, 0x11, 0x20, 0x21, 0x30, 0x31, 0x40, 0x41, 0x50, 0x51, 0x60, 0x61]) :
    decodeStep w = .error (.reservedOp (opField w)) := by
  unfold decodeStep
  split <;> simp_all

/-- All that the decoding of a step word can be, by its `op`. -/
theorem decodeStep_cases (w : StepWord) :
    (∃ mk, ExplicitOp (opField w) mk ∧ decodeStep w = decodeExplicit w mk) ∨
      (∃ i, ImpliedOp (opField w) i ∧ decodeStep w = decodeImplied w i) ∨
      decodeStep w = .error (.reservedOp (opField w)) := by
  by_cases he : ∃ mk, ExplicitOp (opField w) mk
  · obtain ⟨mk, h⟩ := he
    exact .inl ⟨mk, h, h.decodeStep_eq⟩
  by_cases hi : ∃ i, ImpliedOp (opField w) i
  · obtain ⟨i, h⟩ := hi
    exact .inr (.inl ⟨i, h, h.decodeStep_eq⟩)
  refine .inr (.inr (decodeStep_reservedOp ?_))
  rw [exists_explicitOp_iff] at he
  rw [exists_impliedOp_iff] at hi
  simp only [List.mem_cons, List.not_mem_nil, or_false] at he hi ⊢
  tauto

/-- What an explicit-operand word decodes to: the buffers its two fields number. -/
theorem decodeExplicit_eq_ok_iff {w : StepWord} {mk : Buf → Buf → Instr} {i : Instr} :
    decodeExplicit w mk = .ok i ↔
      ∃ dst src, bufNumber dst = dstField w ∧ bufNumber src = srcField w ∧ mk dst src = i := by
  unfold decodeExplicit
  constructor
  · intro h
    split at h
    case h_1 dst src hd hs =>
      exact ⟨dst, src, bufNumber_of_bufOfNumber hd, bufNumber_of_bufOfNumber hs, Except.ok.inj h⟩
    all_goals exact nomatch h
  · rintro ⟨dst, src, hd, hs, rfl⟩
    simp only [← hd, ← hs, bufOfNumber_bufNumber]

theorem decodeExplicit_reserved_dst {w : StepWord} (mk : Buf → Buf → Instr) (h : 12 ≤ (dstField w).toNat) :
    decodeExplicit w mk = .error (.reservedBuffer (dstField w)) := by
  simp only [decodeExplicit, bufOfNumber_reserved h]

theorem decodeExplicit_reserved_src {w : StepWord} (mk : Buf → Buf → Instr) (hd : (dstField w).toNat < 12)
    (hs : 12 ≤ (srcField w).toNat) : decodeExplicit w mk = .error (.reservedBuffer (srcField w)) := by
  obtain ⟨dst, hdst⟩ := exists_bufOfNumber hd
  simp only [decodeExplicit, hdst, bufOfNumber_reserved hs]

theorem decodeImplied_eq_ok_iff {w : StepWord} {i j : Instr} :
    decodeImplied w i = .ok j ↔ dstField w = 0 ∧ srcField w = 0 ∧ i = j := by
  unfold decodeImplied
  by_cases h : dstField w = 0 ∧ srcField w = 0
  · simp [h]
  · rw [if_neg h]
    exact ⟨nofun, fun ⟨hd, hs, _⟩ => absurd ⟨hd, hs⟩ h⟩

theorem decodeImplied_of_ne_zero {w : StepWord} (i : Instr) (h : ¬ (dstField w = 0 ∧ srcField w = 0)) :
    decodeImplied w i = .error (.operandNotZero (dstField w) (srcField w)) := if_neg h

/-- The two operand fields are the low byte of the word. -/
theorem operands_eq_zero_iff (w : StepWord) : (dstField w = 0 ∧ srcField w = 0) ↔ w.toNat % 256 = 0 := by
  simp only [BitVec.toNat_eq, dstField_toNat, srcField_toNat, BitVec.ofNat_eq_ofNat, BitVec.toNat_ofNat]
  omega

/-! ### Decoding and encoding undo each other (R70 to R74) -/

/-- Settles O1: a row's fields are read back from the word it writes, and buffer numbers name their buffers. -/
theorem decodeOfEncode : Obligations.DecodeOfEncode := by
  intro i
  rcases i.opcode_cases with ⟨op, mk, dst, src, hop, rfl⟩ | ⟨op, hop⟩ | rfl | rfl
  · rw [hop.encode_eq, decode, ExplicitOp.decodeStep_eq (by rwa [opField_stepWord]), decodeExplicit_eq_ok_iff]
    exact ⟨dst, src, by simp⟩
  · rw [hop.encode_eq, decode, ImpliedOp.decodeStep_eq (by rwa [opField_stepWord]), decodeImplied_eq_ok_iff]
    simp
  · rfl
  · rfl

theorem encode_of_decodeStep {w : StepWord} {i : Instr} (h : decodeStep w = .ok i) : encode i = .step w := by
  rcases decodeStep_cases w with ⟨mk, hop, hw⟩ | ⟨j, hop, hw⟩ | hw <;> rw [hw] at h
  · obtain ⟨dst, src, hd, hs, rfl⟩ := decodeExplicit_eq_ok_iff.1 h
    rw [hop.encode_eq, hd, hs, stepWord_fields]
  · obtain ⟨hd, hs, rfl⟩ := decodeImplied_eq_ok_iff.1 h
    have hfields := stepWord_fields w
    rw [hd, hs] at hfields
    rw [hop.encode_eq, hfields]
  · exact nomatch h

theorem encode_of_decodeCmd {c : Word32} {i : Instr} (h : decodeCmd c = .ok i) : encode i = .cmd c := by
  unfold decodeCmd at h
  split_ifs at h with h1 h2
  · cases h; rw [h1]; rfl
  · cases h; rw [h2]; rfl

/-- Settles O2: a word that decodes is made of the fields it decodes by. -/
theorem encodeOfDecode : Obligations.EncodeOfDecode := by
  intro w i h
  cases w with
  | step w => exact encode_of_decodeStep h
  | cmd c => exact encode_of_decodeCmd h

/-- Settles O3: each class of R78, by the part of the opcode map its `op` lies in. -/
theorem reservedWordsRejected : Obligations.ReservedWordsRejected := by
  refine ⟨fun w => ?_, fun c h1 h2 => ?_⟩
  · simp only [← opField_toNat, ← dstField_toNat, ← srcField_toNat, ← dstField_eq_ofNat, ← srcField_eq_ofNat,
      ← exists_explicitOp_iff, ← exists_impliedOp_iff, decode]
    refine ⟨fun hop => ?_, ?_, ?_, ?_⟩
    · rw [decodeStep_reservedOp hop, BitVec.ofNat_toNat, BitVec.setWidth_eq]
    · rintro ⟨mk, hop⟩ hd
      rw [hop.decodeStep_eq, decodeExplicit_reserved_dst mk hd]
    · rintro ⟨mk, hop⟩ hd hs
      rw [hop.decodeStep_eq, decodeExplicit_reserved_src mk hd hs]
    · rintro ⟨i, hop⟩ hne
      rw [hop.decodeStep_eq, decodeImplied_of_ne_zero i (mt (operands_eq_zero_iff w).1 hne)]
  · exact (if_neg h1).trans (if_neg h2)

/-! ### The words R77 and R76 write out -/

/-- Settles O4: the encoder gives the words of R77, and decoding undoes it (`decodeOfEncode`). -/
theorem wordsDecode : Obligations.WordsDecode := by
  intro p hp
  have hencode : encode p.1 = .step p.2 := by
    revert p
    decide
  exact ⟨hencode, hencode ▸ decodeOfEncode p.1⟩

/-- Settles O5: the encoder gives the words of R76, and decoding undoes it (`decodeOfEncode`); the words around them
are 0, whose `op` is reserved. -/
theorem romContents : Obligations.RomContents := by
  refine ⟨fun p hp => ?_, fun a ha => ?_⟩
  · obtain ⟨hword, hwf⟩ : encode p.2 = .step Machine.sequenceRom[p.1] ∧ p.2.wf = true := by
      revert p
      decide
    exact ⟨hword ▸ decodeOfEncode p.2, hwf⟩
  · have hzero : Machine.sequenceRom[a] = 0 := by
      revert a
      decide
    rw [hzero]
    exact ⟨rfl, decodeStep_reservedOp (w := 0) (by decide)⟩

/-! ### Operand legality (R75) -/

theorem dstLegal_iff (dst : Buf) :
    dstLegal dst = true ↔ 1 ≤ (bufNumber dst).toNat ∧ (bufNumber dst).toNat ≤ 11 := by
  cases dst <;> decide

theorem srcLegal_iff (src : Buf) : srcLegal src = true ↔
    (bufNumber src).toNat = 0 ∨ (2 ≤ (bufNumber src).toNat ∧ (bufNumber src).toNat ≤ 11) := by
  cases src <;> decide

theorem digestDstLegal_iff (dst : Buf) :
    digestDstLegal dst = true ↔ (bufNumber dst).toNat = 10 ∨ (bufNumber dst).toNat = 11 := by
  cases dst <;> decide

theorem pairLegal_iff (dst src : Buf) : pairLegal dst src = true ↔
    (1 ≤ (bufNumber dst).toNat ∧ (bufNumber dst).toNat ≤ 11) ∧
      ((bufNumber src).toNat = 0 ∨ (2 ≤ (bufNumber src).toNat ∧ (bufNumber src).toNat ≤ 11)) ∧
      bufNumber dst ≠ bufNumber src := by
  rw [pairLegal, Bool.and_eq_true, Bool.and_eq_true, decide_eq_true_eq, dstLegal_iff, srcLegal_iff, and_assoc,
    bufNumber_injective.ne_iff]

/-- Settles O6: the three checks of `pairLegal` and the one of `DIGEST`, each in the numbers of R73. -/
theorem operandLegality : Obligations.OperandLegality := by
  refine ⟨fun dst src => ⟨fun i hi => ?_, ?_⟩, by decide⟩
  · have hwf : i.wf = pairLegal dst src := by
      revert i
      simp [Instr.wf]
    rw [hwf, pairLegal_iff]
  · rw [Instr.wf, Bool.and_eq_true, pairLegal_iff, digestDstLegal_iff]

theorem ImpliedOp.wf {op : BitVec 8} {i : Instr} (h : ImpliedOp op i) : i.wf = true := by
  cases h <;> rfl

end Sys2Proof

namespace Sys2Proof.Machine

/-! ### What the machine makes of an instruction (R71, R75, R201) -/

/-- Settles O9: a write to `CMD` is the acceptance of its code, which is what `ENCODE` and `DECODE` do. -/
theorem stepRunsWrittenCommand : Obligations.StepRunsWrittenCommand := fun _ _ =>
  ⟨fun h => (step_of_hostNext h).trans (hostTurn_command _ _),
    fun h => (step_of_hostNext h).trans (hostTurn_command _ _)⟩

/-- R75, R78: every explicit-operand operation checks its operands before it does anything. -/
theorem exec_of_explicitOp {op : BitVec 8} {mk : Buf → Buf → Instr} (h : ExplicitOp op mk) (dst src : Buf)
    (s : State) : ∃ t, exec (mk dst src) s = .next (whenLegal (mk dst src) s t) := by
  cases h <;> exact ⟨_, rfl⟩

/-- R202, R238: a sequencer fault is a completion that leaves nothing in `OUT`. -/
theorem seqFault_completedWith (cause : Cause) (s : State) :
    CompletedWith .seqFault cause [] s (seqFault cause s) :=
  complete_completedWith .seqFault cause s

/-- Settles O32: only an explicit-operand operation can be ill-formed, and its check is `whenLegal`. -/
theorem illFormedFaults : Obligations.IllFormedFaults := by
  intro s i hwf
  rcases i.opcode_cases with ⟨op, mk, dst, src, hop, rfl⟩ | ⟨op, hop⟩ | rfl | rfl
  · obtain ⟨t, ht⟩ := exec_of_explicitOp hop dst src s
    rw [whenLegal_of_not_wf hwf] at ht
    exact ⟨_, ht, seqFault_completedWith .stepReserved s⟩
  · simp [hop.wf] at hwf
  · exact nomatch hwf
  · exact nomatch hwf

end Sys2Proof.Machine
end

section
/-! PROOF. The digest core (40_digest.md rules R92 to R105): DIGEST writes the SHA-1 of its source (R100), TAGCMP
compares two tags by the accumulator `DIFF` (R30, R103); and the known answers and alphabets the spec writes out for the
functions the other statements name (R105, R135, R142, R161, R164, R171, R176). -/

namespace Sys2Proof.Machine

/-! ### DIGEST (R100) -/

theorem exec_digest (dst src : Buf) (s : State) : exec (.digest dst src) s = execDigest dst src s := rfl

/-- R20, R75: both buffers `DIGEST` may write hold exactly a tag. -/
theorem capacity_of_digestDstLegal (c : Config) {dst : Buf} (h : digestDstLegal dst = true) :
    capacity c dst = tagLen := by
  rcases of_decide_eq_true h with rfl | rfl <;> rfl

/-- R98: a digest always fits a legal destination, so only the wrap of `UPC` can stop `DIGEST`. -/
theorem fits_sha1 {dst src : Buf} {s : State} (m : Bytes) (hwf : (Instr.digest dst src).wf = true)
    (hu : s.upc ≠ 31#5) : Fits dst (sha1 m) s := by
  obtain ⟨-, hdst⟩ : pairLegal dst src = true ∧ digestDstLegal dst = true := by
    simpa only [Instr.wf, Bool.and_eq_true] using hwf
  refine ⟨?_, hu⟩
  rw [sha1_length, capacity_of_digestDstLegal s.cfg hdst, tagLen]

/-- Settles O16: the digest fits its destination, so the step is a store beside the digest core's registers. -/
theorem digestResult : Obligations.DigestResult := by
  intro s dst src hwf hu
  have hfits : Fits dst (sha1 (readBuf s.bufs src)) { s with digest := digestRegsAfter (readBuf s.bufs src) } :=
    fits_sha1 _ hwf hu
  obtain ⟨hwrites, hsource, hcipher, -⟩ := store_writesOnly hfits
  refine ⟨_, ?_, hwrites, ?_, hsource, hcipher⟩
  · rw [exec_digest, execDigest, whenLegal_of_wf hwf]
  · rw [hwrites.1, sha1_length]

/-! ### TAGCMP (R103) -/

theorem exec_tagcmp (s : State) : exec .tagcmp s = execTagcmp s := rfl

theorem exec_tagcmp_of_lengths {s : State} (hx : s.bufs.xtag.length = 20) (ht : s.bufs.tag.length = 20) :
    exec .tagcmp s = .next (tagcmpStep s) := by
  rw [exec_tagcmp, execTagcmp, whenHolds_of_true (decide_eq_true ⟨hx, ht⟩)]

/-- R30: the accumulator is 0 at the end exactly if it was 0 at first and no pair of bytes differs. -/
theorem foldl_diff_eq_zero_iff (ps : List (Byte × Byte)) (d : Byte) :
    ps.foldl (fun diff p => diff ||| (p.1 ^^^ p.2)) d = 0 ↔ d = 0 ∧ ∀ p ∈ ps, p.1 = p.2 := by
  induction ps generalizing d with
  | nil => simp
  | cons p ps ih =>
    have hor : d ||| (p.1 ^^^ p.2) = 0 ↔ d = 0 ∧ p.1 = p.2 := by
      rw [← BitVec.xor_eq_zero_iff (x := p.1)]
      exact BitVec.or_eq_zero_iff
    rw [List.foldl_cons, ih, hor, List.forall_mem_cons, and_assoc]

/-- R30, R103: on tags of one length `DIFF` is 0 exactly if the tags are equal. -/
theorem diffOf_eq_zero_iff {xtag tag : Bytes} (h : xtag.length = tag.length) : diffOf xtag tag = 0 ↔ xtag = tag := by
  calc diffOf xtag tag = 0
    _ ↔ ∀ p ∈ List.zip xtag tag, p.1 = p.2 := (foldl_diff_eq_zero_iff _ 0).trans (by simp)
    _ ↔ List.Forall₂ (· = ·) xtag tag := by simp [List.forall₂_iff_zip, h, Prod.forall]
    _ ↔ xtag = tag := by rw [List.forall₂_eq_eq_eq]

theorem tagcmpStep_of_eq {s : State} (h : s.bufs.tag = s.bufs.xtag) :
    tagcmpStep s = advance { s with diff := 0 } := by
  have hd : diffOf s.bufs.xtag s.bufs.tag = 0 := (diffOf_eq_zero_iff (by rw [h])).2 h.symm
  simp [tagcmpStep, hd]

theorem tagcmpStep_of_ne {s : State} (hlen : s.bufs.xtag.length = s.bufs.tag.length) (h : s.bufs.tag ≠ s.bufs.xtag) :
    tagcmpStep s = complete .tampered .tagMismatch { s with diff := diffOf s.bufs.xtag s.bufs.tag } :=
  if_neg fun hd => h ((diffOf_eq_zero_iff hlen).1 hd).symm

/-- Settles O27: equal tags leave `DIFF` 0, and the sequencer moves on. -/
theorem tagcmpEqual : Obligations.TagcmpEqual := by
  intro s hx heq hu
  rw [exec_tagcmp_of_lengths hx (heq ▸ hx), tagcmpStep_of_eq heq, advance, if_neg hu]

/-- Settles O28: tags that differ leave `DIFF` other than 0, and the abort of a tampered packet is a completion. -/
theorem tagcmpMismatch : Obligations.TagcmpMismatch := by
  intro s hx ht hne
  refine ⟨_, exec_tagcmp_of_lengths hx ht, ?_⟩
  rw [tagcmpStep_of_ne (hx.trans ht.symm) hne]
  exact ⟨complete_completedWith .tampered .tagMismatch { s with diff := diffOf s.bufs.xtag s.bufs.tag }, rfl⟩

/-! ### The alphabets (R161, R164, R171, R176) -/

/-- R161: the digits in the order of their values. -/
theorem hexAlphabet_getElem? (upper : Bool) (d : BitVec 4) :
    (hexAlphabet upper)[d.toNat]? = some (hexDigit upper d) := by
  revert upper d
  decide

/-- R164: a character's value is its place among the digits. -/
theorem hexVal_eq_idxOf? (upper : Bool) (ch : Byte) :
    hexVal upper ch = ((hexAlphabet upper).idxOf? ch).map (BitVec.ofNat 4) := by
  revert upper ch
  decide +kernel

theorem highNibble_eq (v : Byte) : v.extractLsb' 4 4 = BitVec.ofNat 4 (v.toNat / 16) := by
  apply BitVec.eq_of_toNat_eq
  rw [BitVec.extractLsb'_toNat, BitVec.toNat_ofNat, Nat.shiftRight_eq_div_pow]

theorem lowNibble_eq (v : Byte) : v.extractLsb' 0 4 = BitVec.ofNat 4 (v.toNat % 16) := by
  apply BitVec.eq_of_toNat_eq
  rw [BitVec.extractLsb'_toNat, BitVec.toNat_ofNat, Nat.shiftRight_zero]
  omega

/-- R161: the high nibble first. -/
theorem hexEnc_singleton (upper : Bool) (v : Byte) : hexEnc upper [v] =
    [hexDigit upper (BitVec.ofNat 4 (v.toNat / 16)), hexDigit upper (BitVec.ofNat 4 (v.toNat % 16))] := by
  simp [hexEnc, hexPair, highNibble_eq, lowNibble_eq]

/-- R171: the characters in the order of their values. -/
theorem b64Alphabet_getElem? (v : BitVec 6) : b64Alphabet[v.toNat]? = some (b64Char v) := by
  revert v
  decide +kernel

/-- R176: a character's value is its place in the alphabet. -/
theorem b64Val_eq_idxOf? (ch : Byte) : b64Val ch = (b64Alphabet.idxOf? ch).map (BitVec.ofNat 6) := by
  revert ch
  decide +kernel

/-! ### Known answers (R105, R135) -/

/-- R135: the key of the known answer, which is also that of the worked examples of the chaining. -/
def knownKey : Bytes := (List.range 32).map (BitVec.ofNat 8)

/-- R135: the plaintext block. -/
def knownBlock : Bytes :=
  [0x00, 0x11, 0x22, 0x33, 0x44, 0x55, 0x66, 0x77, 0x88, 0x99, 0xaa, 0xbb, 0xcc, 0xdd, 0xee, 0xff]

/-- R135: the ciphertext block. -/
def knownAnswer : Bytes :=
  [0x8e, 0xa2, 0xb7, 0xca, 0x51, 0x67, 0x45, 0xbf, 0xea, 0xfc, 0x49, 0x90, 0x4b, 0x49, 0x60, 0x89]

/-- R135: the state after `AddRoundKey` 0. -/
def knownState0 : Bytes := addRoundKey (keyExpansion knownKey) knownBlock 0

/-- R105: the digests of the three messages. -/
theorem sha1_known :
    hexEnc false (sha1 []) = asciiBytes "da39a3ee5e6b4b0d3255bfef95601890afd80709" ∧
      hexEnc false (sha1 (asciiBytes "abc")) = asciiBytes "a9993e364706816aba3e25717850c26c9cd0d89d" ∧
      hexEnc false (sha1 (asciiBytes "hello world")) = asciiBytes "2aae6c35c94fcfb415dbe95f408b9ce91ee846ed" := by
  decide +kernel

/-- R135: the state as it enters the rounds, and after rounds 1, 2 and 13. -/
theorem encRounds_known :
    knownState0 =
        [0x00, 0x10, 0x20, 0x30, 0x40, 0x50, 0x60, 0x70, 0x80, 0x90, 0xa0, 0xb0, 0xc0, 0xd0, 0xe0, 0xf0] ∧
      encRounds (keyExpansion knownKey) knownState0 1 =
        [0x4f, 0x63, 0x76, 0x06, 0x43, 0xe0, 0xaa, 0x85, 0xef, 0xa7, 0x21, 0x32, 0x01, 0xa4, 0xe7, 0x05] ∧
      encRounds (keyExpansion knownKey) knownState0 2 =
        [0x18, 0x59, 0xfb, 0xc2, 0x8a, 0x1c, 0x00, 0xa0, 0x78, 0xed, 0x8a, 0xad, 0xc4, 0x2f, 0x61, 0x09] ∧
      encRounds (keyExpansion knownKey) knownState0 13 =
        [0x62, 0x7b, 0xce, 0xb9, 0x99, 0x9d, 0x5a, 0xaa, 0xc9, 0x45, 0xec, 0xf4, 0x23, 0xf5, 0x6d, 0xa5] := by
  decide +kernel

/-- R133, R135: the last round, from the state after round 13. -/
theorem aesEnc_known : aesEnc (keyExpansion knownKey) knownBlock = knownAnswer := by
  obtain ⟨-, -, -, h13⟩ := encRounds_known
  unfold knownState0 at h13
  rw [aesEnc, h13]
  decide +kernel

theorem aesDec_known : aesDec (keyExpansion knownKey) knownAnswer = knownBlock := by
  decide +kernel

/-! ### The worked examples of the chaining (R142, R144) -/

theorem xorBytes_comm (x y : Bytes) : xorBytes x y = xorBytes y x :=
  List.zipWith_comm_of_comm BitVec.xor_comm

/-- R142: only the sum of the chaining value and the first block matters. -/
theorem cbcEncBlocks_swap (w : List RoundWord) (cv p : Bytes) (ps : List Bytes) :
    cbcEncBlocks w cv (p :: ps) = cbcEncBlocks w p (cv :: ps) := by
  simp only [cbcEncBlocks, xorBytes_comm p cv]

/-- R140, R145: a message of one block is encrypted with a block of padding after it. -/
theorem encryptBytes_of_block (c : Config) (key : Bytes) {m : Bytes} (h : m.length = 16) :
    encryptBytes c key m = (encryptBlocks c (keyExpansion key) [m, List.replicate 16 0x10]).flatten := by
  have hpad : pad m = [m, List.replicate 16 0x10].flatten := by simp [pad, h]
  have hblocks : blocksOf 16 2 (pad m) = [m, List.replicate 16 0x10] := by
    rw [hpad]
    exact blocksOf_of_flatten 16 [m, List.replicate 16 0x10] (by simp [h])
  rw [encryptBytes, pad_length, h, hblocks]

/-- R142: in CBC a message of one block and `CFG_IV` can be exchanged. -/
theorem encryptBytes_swap_iv {c : Config} (hc : c.mode = .cbc) (key : Bytes) (iv m : Vector Byte 16) :
    encryptBytes { c with iv := iv } key m.toList = encryptBytes { c with iv := m } key iv.toList := by
  rw [encryptBytes_of_block _ _ m.length_toList, encryptBytes_of_block _ _ iv.length_toList]
  simp only [encryptBlocks, hc, cbcEncBlocks_swap _ iv.toList]

/-- Vector E4. -/
theorem encryptBytes_known_block :
    hexEnc false (encryptBytes Config.pinned knownKey (List.replicate 16 0x61)) =
      asciiBytes "e753c48bbea23420a22b1e6120c649a88127873f8ceb9cb7f15c7675b5e418ac" := by
  decide +kernel

/-- Vectors E1 and E5, in CBC. -/
theorem encryptBytes_known_cbc :
    hexEnc false (encryptBytes Config.pinned knownKey []) = asciiBytes "9f3b7504926f8bd36e3118e903a4cd4a" ∧
      hexEnc false (encryptBytes Config.pinned knownKey (List.replicate 17 0x61)) =
        asciiBytes "e753c48bbea23420a22b1e6120c649a8068f9c52206263375afd8b25f078e0a4" := by
  decide +kernel

/-- Vector E9: in ECB equal blocks have equal ciphertexts. -/
theorem encryptBytes_known_ecb :
    hexEnc false (encryptBytes { Config.pinned with mode := .ecb } knownKey (List.replicate 32 0x61)) =
      asciiBytes ("e753c48bbea23420a22b1e6120c649a8" ++ "e753c48bbea23420a22b1e6120c649a8" ++
        "9f3b7504926f8bd36e3118e903a4cd4a") := by
  decide +kernel

/-- R142: `CFG_IV` the plaintext of E4, and the message the pinned `CFG_IV`: the ciphertext is that of E4. -/
theorem encryptBytes_known_iv :
    hexEnc false (encryptBytes { Config.pinned with iv := Vector.replicate 16 0x61#8 } knownKey
        (List.replicate 16 0x00)) =
      asciiBytes "e753c48bbea23420a22b1e6120c649a88127873f8ceb9cb7f15c7675b5e418ac" := by
  have hswap := encryptBytes_swap_iv (c := Config.pinned) rfl knownKey (Vector.replicate 16 0x61#8)
    (Vector.replicate 16 0x00#8)
  rw [Vector.toList_replicate, Vector.toList_replicate] at hswap
  exact (congrArg (hexEnc false) hswap).trans encryptBytes_known_block

/-- Settles O53: the alphabets character by character, and each worked example by its evaluation. -/
theorem knownAnswers : Obligations.KnownAnswers := by
  obtain ⟨he1, he5⟩ := encryptBytes_known_cbc
  obtain ⟨hround0, hround1, hround2, hround13⟩ := encRounds_known
  exact ⟨sha1_known, fun upper => ⟨hexAlphabet_getElem? upper, hexVal_eq_idxOf? upper, hexEnc_singleton upper⟩, rfl,
    ⟨b64Alphabet_getElem?, b64Val_eq_idxOf?, rfl, rfl⟩, by decide, by decide,
    ⟨rfl, rfl, he1, encryptBytes_known_block, he5, encryptBytes_known_ecb, encryptBytes_known_iv⟩,
    hround0, hround1, hround2, hround13, aesEnc_known, aesDec_known⟩

end Sys2Proof.Machine
end

section
/-! PROOF. The key generator (41_keygen.md rules R110 to R112): NEWSEED draws the next 32 bytes of the random source into
`SEED` or waits, DERIVEKEY takes the first 32 bytes of `SEED` into `KEY`; each is one store that fits its destination. -/

namespace Sys2Proof.Machine

/-- R8, R20: in a buffer of 32 bytes, as `SEED` and `KEY` are, only the wrap of `UPC` can stop the write of a 32-byte
prefix. -/
theorem fits_take_of_capacity {dst : Buf} {s : State} (v : Bytes) (hcap : capacity s.cfg dst = 32)
    (hu : s.upc ≠ 31#5) : Fits dst (v.take 32) s :=
  ⟨hcap ▸ List.length_take_le 32 v, hu⟩

/-! ### NEWSEED (R110, R111) -/

theorem exec_newseed (s : State) : exec .newseed s = execNewseed s := rfl

theorem drawReady_iff (s : State) : drawReady s = true ↔ 32 ≤ s.rng.length := decide_eq_true_iff

theorem exec_newseed_of_ready {s : State} (h : 32 ≤ s.rng.length) :
    exec .newseed s = .next (store .seed (s.rng.take 32) { s with rng := s.rng.drop 32 }) := by
  rw [exec_newseed, execNewseed, if_pos ((drawReady_iff s).2 h), seedLen]

theorem exec_newseed_of_not_ready {s : State} (h : s.rng.length < 32) : exec .newseed s = .next s := by
  rw [exec_newseed, execNewseed, if_neg fun hready => absurd ((drawReady_iff s).1 hready) (Nat.not_le_of_lt h)]

/-- Settles O24: the draw fits `SEED`, so the step is a store beside the source's having given those bytes. -/
theorem newseedResult : Obligations.NewseedResult := by
  intro s hready hu
  have hfits : Fits .seed (s.rng.take 32) { s with rng := s.rng.drop 32 } := fits_take_of_capacity _ rfl hu
  obtain ⟨hwrites, hsource, hworking⟩ := store_writesOnly hfits
  exact ⟨_, exec_newseed_of_ready hready, hwrites, hsource, hworking⟩

/-- Settles O25: a source that is not ready leaves the whole state as it is. -/
theorem newseedWaits : Obligations.NewseedWaits := fun _ => exec_newseed_of_not_ready

/-! ### DERIVEKEY (R112) -/

theorem exec_derivekey (s : State) : exec .derivekey s = execDerivekey s := rfl

theorem exec_derivekey_of_length {s : State} (h : 32 ≤ s.bufs.seed.length) :
    exec .derivekey s = .next (store .key (s.bufs.seed.take 32) s) := by
  rw [exec_derivekey, execDerivekey, keyLen, whenHolds_of_true (decide_eq_true h)]

/-- Settles O26: the prefix of the seed fits `KEY`, so the step is a store and nothing else. -/
theorem derivekeyResult : Obligations.DerivekeyResult := by
  intro s hseed hu
  exact ⟨_, exec_derivekey_of_length hseed, store_writesOnly (fits_take_of_capacity _ rfl hu)⟩

end Sys2Proof.Machine
end

section
/-! PROOF. The cipher engine (42_cipher.md rules R120 to R154): the block function and its inverse undo each other for
every key schedule (R134), decryption undoes encryption in either mode (R151), and what ENCRYPT and DECRYPT do to the
machine, with the failures of DECRYPT (R145 to R150, R154, R236). -/

namespace Sys2Proof.Machine

/-! ### The block function and its inverse (R126 to R134)

The rounds of R134 stand against those of R133 shifted by half a round: `decRound` undoes `encRound` between states to
which `SubBytes` and `ShiftRows` have been applied. -/

theorem invSubBytes_invShiftRows_shiftRows_subBytes {s : Bytes} (hs : s.length = 16) :
    invSubBytes (invShiftRows (shiftRows (subBytes s))) = s := by
  rw [invShiftRows_shiftRows (by simpa using hs), invSubBytes_subBytes]

theorem shiftRows_subBytes_invSubBytes_invShiftRows {s : Bytes} (hs : s.length = 16) :
    shiftRows (subBytes (invSubBytes (invShiftRows s))) = s := by
  rw [subBytes_invSubBytes, shiftRows_invShiftRows hs]

/-- R133, R134: a round of `AES_DEC` takes back a round of `AES_ENC`. -/
theorem decRound_encRound {w : List RoundWord} (hw : w.length = 60) {s : Bytes} {k : Nat} (hk : k ≤ 13) :
    decRound w (shiftRows (subBytes (encRound w s k))) k = shiftRows (subBytes s) := by
  have hmix : (mixColumns (shiftRows (subBytes s))).length = 16 := mixColumns_length (shiftRows_length _)
  have hround : (encRound w s k).length = 16 := addRoundKey_length hw hmix (by omega)
  rw [decRound, invSubBytes_invShiftRows_shiftRows_subBytes hround, encRound, addRoundKey_twice hw hmix (by omega),
    invMixColumns_mixColumns (shiftRows_length _)]

/-- R133, R134: a round of `AES_ENC` takes back a round of `AES_DEC`. -/
theorem encRound_decRound {w : List RoundWord} (hw : w.length = 60) {y : Bytes} {k : Nat} (hk : k ≤ 13) :
    encRound w (invSubBytes (invShiftRows (decRound w y k))) k = invSubBytes (invShiftRows y) := by
  have hsub : (invSubBytes (invShiftRows y)).length = 16 := by simp
  have hadd : (addRoundKey w (invSubBytes (invShiftRows y)) k).length = 16 := addRoundKey_length hw hsub (by omega)
  have hround : (decRound w y k).length = 16 := invMixColumns_length hadd
  rw [encRound, shiftRows_subBytes_invSubBytes_invShiftRows hround, decRound, mixColumns_invMixColumns hadd,
    addRoundKey_twice hw hsub (by omega)]

theorem decRounds_encRounds {w : List RoundWord} (hw : w.length = 60) (s : Bytes) {n : Nat} (hn : n ≤ 13) :
    decRounds w n (shiftRows (subBytes (encRounds w s n))) = shiftRows (subBytes s) := by
  induction n with
  | zero => rfl
  | succ n ih => rw [encRounds, decRounds, decRound_encRound hw hn, ih (by omega)]

theorem encRounds_decRounds {w : List RoundWord} (hw : w.length = 60) {n : Nat} (hn : n ≤ 13) (y : Bytes) :
    encRounds w (invSubBytes (invShiftRows (decRounds w n y))) n = invSubBytes (invShiftRows y) := by
  induction n generalizing y with
  | zero => rfl
  | succ n ih => rw [decRounds, encRounds, ih (by omega), encRound_decRound hw hn]

/-- R134: `AES_DEC(W, AES_ENC(W, x)) = x`. -/
theorem aesDec_aesEnc {w : List RoundWord} (hw : w.length = 60) {x : Bytes} (hx : x.length = 16) :
    aesDec w (aesEnc w x) = x := by
  have hfirst : (addRoundKey w x 0).length = 16 := addRoundKey_length hw hx (by omega)
  rw [aesDec, aesEnc, addRoundKey_twice hw (shiftRows_length _) (by omega), decRounds_encRounds hw _ le_rfl,
    invSubBytes_invShiftRows_shiftRows_subBytes hfirst, addRoundKey_twice hw hx (by omega)]

/-- R134: `AES_ENC(W, AES_DEC(W, y)) = y`. -/
theorem aesEnc_aesDec {w : List RoundWord} (hw : w.length = 60) {y : Bytes} (hy : y.length = 16) :
    aesEnc w (aesDec w y) = y := by
  have hlast : (addRoundKey w y 14).length = 16 := addRoundKey_length hw hy (by omega)
  rw [aesEnc, aesDec, addRoundKey_twice hw (by simp) (by omega), encRounds_decRounds hw le_rfl,
    shiftRows_subBytes_invSubBytes_invShiftRows hlast, addRoundKey_twice hw hy (by omega)]

/-- Settles O51: each layer is undone by its inverse, in reverse order. -/
theorem blockInverse : Obligations.BlockInverse := fun _ _ hw hx => ⟨aesDec_aesEnc hw hx, aesEnc_aesDec hw hx⟩

/-! ### Padding and chaining undone (R140 to R147) -/

/-- R141: `n` bytes of value `n`, for `n` in 1 to 16, are taken off. -/
theorem unpad_append_replicate (m : Bytes) {n : Nat} (h1 : 1 ≤ n) (h16 : n ≤ 16) :
    unpad (m ++ List.replicate n (BitVec.ofNat 8 n)) = .ok m := by
  have hlast : ((m ++ List.replicate n (BitVec.ofNat 8 n)).getLastD 0).toNat = n := by
    rw [List.getLastD_eq_getLast?, List.getLast?_append, List.getLast?_replicate, if_neg (by omega)]
    simp only [Option.some_or, Option.getD_some, BitVec.toNat_ofNat]; omega
  simp only [unpad, hlast, List.length_append, List.length_replicate, Nat.add_sub_cancel, List.drop_left,
    List.take_left]
  exact if_neg (by simp only [ne_eq, not_true_eq_false, or_false]; omega)

/-- R141: for every message `m`, `UNPAD(PAD(m)) = m`. -/
theorem unpad_pad (m : Bytes) : unpad (pad m) = .ok m := unpad_append_replicate m (by omega) (by omega)

/-- R142, R147: both directions carry the same chaining values, the ciphertext blocks. -/
theorem cbcDecBlocks_cbcEncBlocks {w : List RoundWord} (hw : w.length = 60) {ps : List Bytes}
    (hps : ∀ p ∈ ps, p.length = 16) {cv : Bytes} (hcv : cv.length = 16) :
    cbcDecBlocks w cv (cbcEncBlocks w cv ps) = ps := by
  induction ps generalizing cv with
  | nil => rfl
  | cons p ps ih =>
    obtain ⟨hp, hps⟩ := List.forall_mem_cons.1 hps
    have hsum : (xorBytes p cv).length = 16 := by rw [xorBytes_length (hp.trans hcv.symm), hp]
    rw [cbcEncBlocks, cbcDecBlocks, aesDec_aesEnc hw hsum, xorBytes_self_right (hp.trans hcv.symm),
      ih hps (aesEnc_length hw _)]

/-- R142, R144, R147: block by block decryption undoes encryption, in either mode. -/
theorem decryptBlocks_encryptBlocks (c : Config) {w : List RoundWord} (hw : w.length = 60) {ps : List Bytes}
    (hps : ∀ p ∈ ps, p.length = 16) : decryptBlocks c w (encryptBlocks c w ps) = ps := by
  unfold decryptBlocks encryptBlocks
  cases c.mode with
  | cbc => exact cbcDecBlocks_cbcEncBlocks hw hps c.iv.length_toList
  | ecb =>
    have hundo : ∀ p ∈ ps, (aesDec w ∘ aesEnc w) p = id p := fun p hp => aesDec_aesEnc hw (hps p hp)
    simp only [List.map_map, List.map_congr_left hundo, List.map_id]

/-- R149: the padded message of a message's ciphertext is the message's padding. -/
theorem decryptPadded_encryptBytes (c : Config) (key m : Bytes) :
    decryptPadded c key (encryptBytes c key m) = pad m := by
  have hpad : (pad m).length = 16 * ((pad m).length / 16) := by rw [pad_length]; omega
  have hps := length_of_mem_blocksOf 16 _ _ hpad
  have hw := keyExpansion_length key
  obtain ⟨hcount, hcs⟩ := encryptBlocks_shape c hw (blocksOf 16 ((pad m).length / 16) (pad m))
  have hlen : (encryptBytes c key m).length / 16 = (pad m).length / 16 := by rw [encryptBytes_length, pad_length]
  have hcut : blocksOf 16 ((pad m).length / 16) (encryptBytes c key m) =
      encryptBlocks c (keyExpansion key) (blocksOf 16 ((pad m).length / 16) (pad m)) := by
    have hcut := blocksOf_of_flatten 16 _ hcs
    rwa [hcount, blocksOf_length] at hcut
  rw [decryptPadded, hlen, hcut, decryptBlocks_encryptBlocks c hw hps, blocksOf_flatten 16 _ _ hpad]

/-- R149, R150. -/
theorem ctLengthOk_iff (x : Bytes) : ctLengthOk x = true ↔ x.length ≠ 0 ∧ x.length % 16 = 0 := decide_eq_true_iff

/-- R146: a ciphertext passes the length check. -/
theorem ctLengthOk_encryptBytes (c : Config) (key m : Bytes) : ctLengthOk (encryptBytes c key m) = true := by
  rw [ctLengthOk_iff, encryptBytes_length]; omega

/-- Settles O52: the length check passes, the chaining gives the padded message back, and its padding is accepted. -/
theorem cipherRoundTrip : Obligations.CipherRoundTrip := by
  intro c key m _
  rw [decryptBytes, if_pos (ctLengthOk_encryptBytes c key m), decryptPadded_encryptBytes, unpad_pad]

/-! ### ENCRYPT (R145) -/

/-- R69: the frame of a store that the cipher engine makes beside its registers. -/
theorem store_cipher_writesOnly {dst : Buf} {v : Bytes} {s : State} (h : Fits dst v s) (cipher : CipherRegs) :
    WritesOnly dst v s (store dst v { s with cipher := cipher }) ∧
      SameSource s (store dst v { s with cipher := cipher }) ∧
      (store dst v { s with cipher := cipher }).digest = s.digest := by
  obtain ⟨hwrites, hsource, -, hdigest⟩ := store_writesOnly (s := { s with cipher := cipher }) h
  exact ⟨hwrites, hsource, hdigest⟩

theorem exec_encrypt (dst src : Buf) (s : State) : exec (.encrypt dst src) s = execEncrypt dst src s := rfl

theorem exec_encrypt_of_key {dst src : Buf} {s : State} (hwf : (Instr.encrypt dst src).wf = true)
    (hkey : s.bufs.key.length = 32) :
    ∃ cipher, exec (.encrypt dst src) s =
      .next (store dst (encryptBytes s.cfg s.bufs.key (readBuf s.bufs src)) { s with cipher := cipher }) := by
  rw [exec_encrypt, execEncrypt, whenLegal_of_wf hwf, keyLen, whenHolds_of_true (decide_eq_true hkey)]
  exact ⟨_, rfl⟩

/-- Settles O17: the step is a store of the ciphertext beside the cipher engine's registers. -/
theorem encryptResult : Obligations.EncryptResult := by
  intro s dst src hwf hkey hfits
  obtain ⟨cipher, hexec⟩ := exec_encrypt_of_key hwf hkey
  obtain ⟨hwrites, hsource, hdigest⟩ := store_cipher_writesOnly hfits cipher
  refine ⟨_, hexec, hwrites, ?_, hsource, hdigest⟩
  rw [hwrites.1, encryptBytes_length]

/-! ### DECRYPT (R149, R150) -/

theorem exec_decrypt (dst src : Buf) (s : State) : exec (.decrypt dst src) s = execDecrypt dst src s := rfl

theorem exec_decrypt_of_lengths {dst src : Buf} {s : State} (hwf : (Instr.decrypt dst src).wf = true)
    (hct : ctLengthOk (readBuf s.bufs src) = true) (hkey : s.bufs.key.length = 32) :
    ∃ cipher, exec (.decrypt dst src) s =
      .next (storeResult dst (decryptBytes s.cfg s.bufs.key (readBuf s.bufs src)) { s with cipher := cipher }) := by
  rw [exec_decrypt, execDecrypt, whenLegal_of_wf hwf, if_pos hct, keyLen, whenHolds_of_true (decide_eq_true hkey)]
  exact ⟨_, rfl⟩

theorem exec_decrypt_of_ctLength {dst src : Buf} {s : State} (hwf : (Instr.decrypt dst src).wf = true)
    (hct : ctLengthOk (readBuf s.bufs src) = false) :
    exec (.decrypt dst src) s = .next (abort ⟨.badCipherText, .ctLength⟩ s) := by
  rw [exec_decrypt, execDecrypt, whenLegal_of_wf hwf, if_neg (by simp [hct])]

/-- R149, R150: only a ciphertext of whole blocks, at least one, can be accepted. -/
theorem ctLengthOk_of_decryptBytes_ok {c : Config} {key x m : Bytes} (h : decryptBytes c key x = .ok m) :
    ctLengthOk x = true := by
  obtain ⟨hblocks, hlt, -⟩ := decryptBytes_ok_length h
  exact (ctLengthOk_iff x).2 ⟨by omega, hblocks⟩

/-- Settles O18: the step is a store of the plaintext beside the cipher engine's registers. -/
theorem decryptResult : Obligations.DecryptResult := by
  intro s dst src m hwf hkey hm hfits
  obtain ⟨cipher, hexec⟩ := exec_decrypt_of_lengths hwf (ctLengthOk_of_decryptBytes_ok hm) hkey
  obtain ⟨hwrites, hsource, hdigest⟩ := store_cipher_writesOnly hfits cipher
  obtain ⟨-, hlt, hle⟩ := decryptBytes_ok_length hm
  rw [hm] at hexec
  exact ⟨_, hexec, hwrites, hle, hlt, hsource, hdigest⟩

/-! ### The failures of DECRYPT (R154, R236) -/

/-- R149, R150: a decryption that fails aborts, and before that has changed at most the cipher engine's registers. -/
theorem exec_decrypt_of_error {dst src : Buf} {s : State} {f : Failure} (hwf : (Instr.decrypt dst src).wf = true)
    (hkey : ctLengthOk (readBuf s.bufs src) = true → s.bufs.key.length = 32)
    (hf : decryptBytes s.cfg s.bufs.key (readBuf s.bufs src) = .error f) :
    ∃ cipher, exec (.decrypt dst src) s = .next (abort f { s with cipher := cipher }) := by
  cases hct : ctLengthOk (readBuf s.bufs src) with
  | true =>
    obtain ⟨cipher, hexec⟩ := exec_decrypt_of_lengths hwf hct (hkey hct)
    exact ⟨cipher, by rw [hexec, hf, storeResult]⟩
  | false =>
    rw [decryptBytes, if_neg (by simp [hct])] at hf
    exact ⟨s.cipher, by rw [exec_decrypt_of_ctLength hwf hct, ← Except.error.inj hf]⟩

/-- R236: the result of a cipher failure, by the latched command. -/
theorem CipherFailureCode.by_command {r : CmdReg} {code : ResultCode} (h : CipherFailureCode r code) :
    (r = .decode → code = .malformed) ∧ (r = .encode → code = .badCipherText) ∧
      (code = .malformed ∨ code = .badCipherText) := by
  cases h <;> simp

/-- R154, R202, R236: the abort of a cipher failure is a completion that leaves nothing in `OUT`, with the result the
latched command gives it. -/
theorem abort_badCipherText (f : Failure) (s : State) (hk : f.kind = .badCipherText) :
    ∃ code, CipherFailureCode s.cmdreg code ∧ CompletedWith code f.cause [] s (abort f s) ∧
      SameSource s (abort f s) := by
  obtain ⟨code, n, habort, hcase⟩ := abort_cases f s
  have hcode : CipherFailureCode s.cmdreg code := by
    rcases hcase with ⟨hk', -⟩ | ⟨hk', -⟩ | ⟨-, hcode, -⟩
    · exact nomatch hk.symm.trans hk'
    · exact nomatch hk.symm.trans hk'
    · exact hcode
  have hok : code ≠ .ok := by
    rcases hcode.by_command.2.2 with rfl | rfl <;> simp
  have hdone := complete_completedWith code f.cause { s with freeCount := n }
  rw [if_neg hok] at hdone
  rw [habort]
  exact ⟨code, hcode, hdone, rfl⟩

/-- Settles O19: a failed decryption aborts with a cipher failure, whose result is R236's and whose cause is the length
exactly if the length check fails. -/
theorem decryptFails : Obligations.DecryptFails := by
  intro s dst src f hwf hkey hf
  obtain ⟨cipher, hexec⟩ := exec_decrypt_of_error hwf hkey hf
  obtain ⟨hkind, hcause⟩ := decryptBytes_error hf
  obtain ⟨code, hcode, hdone, hsource⟩ := abort_badCipherText f { s with cipher := cipher } hkind
  obtain ⟨hdecode, hencode, heither⟩ := hcode.by_command
  refine ⟨_, code, hexec, hdone, hsource, hdecode, hencode, heither, ?_⟩
  have hlength := ctLengthOk_iff (readBuf s.bufs src)
  rcases hcause with ⟨hct, hcause⟩ | ⟨hct, hcause⟩
  · rw [hcause, if_pos]
    by_contra h
    push Not at h
    exact absurd (hlength.2 h) (by simp [hct])
  · obtain ⟨hne, hmod⟩ := hlength.1 hct
    rw [hcause, if_neg (by omega)]

end Sys2Proof.Machine
end

section
/-! PROOF. The text units: the strict hex decoder accepts exactly what the encoder emits (43_hex.md rules R161 to R167);
HEXENC, HEXDEC, B64ENC and B64DEC each store one text or its bytes (R162, R165, R174, R178); and the failures of HEXDEC,
B64DEC and SPLIT end the command with `MALFORMED` (R165, R177, R192, R236). -/

namespace Sys2Proof.Machine

/-! ### Hex texts and nibbles (R161 to R167)

Both directions pass through the nibbles of the bytes: the text is their digits, one character each, and the bytes are
their pairs. -/

/-- R161, R164: every nibble is the value of its digit. -/
theorem hexVal_hexDigit (upper : Bool) (v : BitVec 4) : hexVal upper (hexDigit upper v) = some v := by
  revert upper v
  decide

theorem hexAlphabet_length (upper : Bool) : (hexAlphabet upper).length = 16 := by
  cases upper <;> rfl

/-- R161, R164: a character with a value is the digit of that value. -/
theorem eq_hexDigit_of_hexVal {upper : Bool} {c : Byte} {v : BitVec 4} (h : hexVal upper c = some v) :
    c = hexDigit upper v := by
  rw [hexVal_eq_idxOf?, Option.map_eq_some_iff] at h
  obtain ⟨i, hi, rfl⟩ := h
  obtain ⟨hlt, hget, -⟩ := List.idxOf?_eq_some_iff.1 hi
  have hi16 : i < 2 ^ 4 := hlt.trans_eq (hexAlphabet_length upper)
  have hdigit := hexAlphabet_getElem? upper (BitVec.ofNat 4 i)
  rw [BitVec.toNat_ofNat, Nat.mod_eq_of_lt hi16, List.getElem?_eq_getElem hlt, hget] at hdigit
  exact Option.some.inj hdigit

theorem hexVal_eq_some_iff (upper : Bool) (c : Byte) (v : BitVec 4) :
    hexVal upper c = some v ↔ c = hexDigit upper v :=
  ⟨eq_hexDigit_of_hexVal, fun h => h ▸ hexVal_hexDigit upper v⟩

theorem hexVals_cons_eq_some_iff (upper : Bool) (c : Byte) (t : Bytes) (vs : List (BitVec 4)) :
    hexVals upper (c :: t) = some vs ↔
      ∃ v vs', hexVal upper c = some v ∧ hexVals upper t = some vs' ∧ v :: vs' = vs := by
  rw [hexVals]
  cases hexVal upper c <;> cases hexVals upper t <;> simp

/-- R165: the characters have values exactly if they are the digits of those values. -/
theorem hexVals_eq_some_iff (upper : Bool) (t : Bytes) (vs : List (BitVec 4)) :
    hexVals upper t = some vs ↔ t = vs.map (hexDigit upper) := by
  induction t generalizing vs with
  | nil => cases vs <;> simp [hexVals]
  | cons c t ih =>
    simp only [hexVals_cons_eq_some_iff, hexVal_eq_some_iff, ih]
    cases vs <;> simp

/-- R161: the nibbles of a byte string, the high one of each byte first. -/
def nibbles (b : Bytes) : List (BitVec 4) := b.flatMap fun v => [v.extractLsb' 4 4, v.extractLsb' 0 4]

theorem hexEnc_eq_map_nibbles (upper : Bool) (b : Bytes) : hexEnc upper b = (nibbles b).map (hexDigit upper) := by
  rw [hexEnc, nibbles, List.map_flatMap]
  rfl

theorem nibblePairs_nibbles (b : Bytes) : nibblePairs (nibbles b) = b := by
  induction b with
  | nil => rfl
  | cons v b ih =>
    have hbyte : v.extractLsb' 4 4 ++ v.extractLsb' 0 4 = v := by
      rw [BitVec.extractLsb'_append_extractLsb'_eq_extractLsb' (by omega)]
      exact BitVec.extractLsb'_eq_self
    exact congrArg₂ List.cons hbyte ih

theorem nibbles_nibblePairs : ∀ {vs : List (BitVec 4)}, vs.length % 2 = 0 → nibbles (nibblePairs vs) = vs
  | [], _ => rfl
  | [_], h => nomatch h
  | hi :: lo :: rest, h => by
    have hrest : nibbles (nibblePairs rest) = rest :=
      nibbles_nibblePairs (by rw [List.length_cons, List.length_cons] at h; omega)
    have hhigh : (hi ++ lo).extractLsb' 4 4 = hi := BitVec.extractLsb'_append_eq_left
    have hlow : (hi ++ lo).extractLsb' 0 4 = lo := BitVec.extractLsb'_append_eq_right
    calc nibbles ((hi ++ lo) :: nibblePairs rest)
      _ = (hi ++ lo).extractLsb' 4 4 :: (hi ++ lo).extractLsb' 0 4 :: nibbles (nibblePairs rest) := rfl
      _ = hi :: lo :: rest := by rw [hhigh, hlow, hrest]

/-- R165: `HEXDEC` accepts an even number of digits, and gives the pairs of their values. -/
theorem hexDec_eq_ok_iff (upper : Bool) (t b : Bytes) :
    hexDec upper t = .ok b ↔ t.length % 2 = 0 ∧ ∃ vs, hexVals upper t = some vs ∧ nibblePairs vs = b := by
  rw [hexDec]
  split
  · next hodd => simp [hodd]
  · next hodd =>
    have heven : t.length % 2 = 0 := by omega
    cases hexVals upper t <;> simp [heven]

/-- R166, R167: the decoder accepts exactly the encoder's texts. -/
theorem hexDec_eq_ok_iff_eq_hexEnc (upper : Bool) (t b : Bytes) : hexDec upper t = .ok b ↔ t = hexEnc upper b := by
  simp only [hexDec_eq_ok_iff, hexVals_eq_some_iff, hexEnc_eq_map_nibbles]
  constructor
  · rintro ⟨heven, vs, rfl, rfl⟩
    rw [List.length_map] at heven
    rw [nibbles_nibblePairs heven]
  · rintro rfl
    refine ⟨?_, nibbles b, rfl, nibblePairs_nibbles b⟩
    rw [← hexEnc_eq_map_nibbles, hexEnc_length, Nat.mul_mod_right]

/-- Settles O48: text and bytes both determine the nibbles between them. -/
theorem hexImage : Obligations.HexImage := fun upper b t =>
  ⟨hexDec_eq_ok_iff_eq_hexEnc upper t b, hexEnc_length upper b⟩

/-! ### What each text unit does (R162, R165, R174, R178, R192) -/

theorem exec_hexenc_of_wf {dst src : Buf} {s : State} (hwf : (Instr.hexenc dst src).wf = true) :
    exec (.hexenc dst src) s = .next (store dst (hexEnc s.cfg.hexUpper (readBuf s.bufs src)) s) :=
  congrArg _ (whenLegal_of_wf hwf)

theorem exec_b64enc_of_wf {dst src : Buf} {s : State} (hwf : (Instr.b64enc dst src).wf = true) :
    exec (.b64enc dst src) s = .next (store dst (b64Enc (readBuf s.bufs src)) s) :=
  congrArg _ (whenLegal_of_wf hwf)

theorem exec_hexdec_of_wf {dst src : Buf} {s : State} (hwf : (Instr.hexdec dst src).wf = true) :
    exec (.hexdec dst src) s = .next (storeResult dst (hexDec s.cfg.hexUpper (readBuf s.bufs src)) s) :=
  congrArg _ (whenLegal_of_wf hwf)

theorem exec_b64dec_of_wf {dst src : Buf} {s : State} (hwf : (Instr.b64dec dst src).wf = true) :
    exec (.b64dec dst src) s = .next (storeResult dst (b64Dec (readBuf s.bufs src)) s) :=
  congrArg _ (whenLegal_of_wf hwf)

theorem exec_split_of_short {s : State} (h : s.bufs.blob.length < 104) :
    exec .split s = .next (abort ⟨.malformed, .blobShort⟩ s) :=
  congrArg _ (if_pos h)

@[simp] theorem storeResult_ok (dst : Buf) (v : Bytes) (s : State) : storeResult dst (.ok v) s = store dst v s := rfl

@[simp] theorem storeResult_error (dst : Buf) (f : Failure) (s : State) : storeResult dst (.error f) s = abort f s :=
  rfl

/-! ### Texts that are emitted or accepted (R69) -/

/-- Settles O15: either encoder is a store of its text. -/
theorem textEncodersResult : Obligations.TextEncodersResult := fun _ _ _ =>
  ⟨fun hwf hfits => ⟨_, exec_hexenc_of_wf hwf, store_writesOnly hfits⟩,
    fun hwf hfits => ⟨_, exec_b64enc_of_wf hwf, store_writesOnly hfits⟩⟩

/-- Settles O20: either decoder is a store of the bytes it accepts. -/
theorem textDecodersResult : Obligations.TextDecodersResult := fun _ _ _ _ hfits =>
  ⟨fun hwf hb => ⟨_, by rw [exec_hexdec_of_wf hwf, hb, storeResult_ok], store_writesOnly hfits⟩,
    fun hwf hb => ⟨_, by rw [exec_b64dec_of_wf hwf, hb, storeResult_ok], store_writesOnly hfits⟩⟩

/-! ### Texts that are rejected (R236) -/

/-- R202, R236: the abort of a malformed text is a completion that leaves nothing in `OUT`. -/
theorem abort_malformed {f : Failure} (s : State) (hk : f.kind = .malformed) :
    CompletedWith .malformed f.cause [] s (abort f s) ∧ SameSource s (abort f s) := by
  have habort : abort f s = complete .malformed f.cause s := by simp only [abort, hk]
  rw [habort]
  exact ⟨complete_completedWith .malformed f.cause s, rfl⟩

/-- Settles O21: each rejected text raises a malformed failure, whose cause is that of the first check it fails. -/
theorem textUnitsFail : Obligations.TextUnitsFail := by
  refine ⟨fun s dst src f hwf hf => ?_, fun s dst src f hwf hf => ?_, fun s hshort => ?_⟩
  · obtain ⟨hkind, hcause⟩ := hexDec_error hf
    obtain ⟨hdone, hsource⟩ := abort_malformed s hkind
    refine ⟨_, by rw [exec_hexdec_of_wf hwf, hf, storeResult_error], hdone, hsource, ?_⟩
    rcases hcause with ⟨hodd, hcause⟩ | ⟨heven, hcause⟩
    · rw [hcause, if_pos hodd]
    · rw [hcause, if_neg (by omega)]
  · obtain ⟨hkind, hcause⟩ := b64Dec_error hf
    obtain ⟨hdone, hsource⟩ := abort_malformed s hkind
    exact ⟨_, by rw [exec_b64dec_of_wf hwf, hf, storeResult_error], hdone, hsource, hcause⟩
  · exact ⟨_, exec_split_of_short hshort, abort_malformed s rfl⟩

end Sys2Proof.Machine
end

section
/-! PROOF. The strict base64 decoder accepts exactly what the encoder emits (44_base64.md rules R171 to R181). Both
directions pass through the 6-bit values of a byte string: the text is their characters with the padding behind them,
and the bytes are read back from their groups. -/

namespace Sys2Proof.Machine

/-! ### Characters and their values (R171, R176) -/

/-- R171, R176: every 6-bit value is the value of its character. -/
theorem b64Val_b64Char (v : BitVec 6) : b64Val (b64Char v) = some v := by
  revert v
  decide

/-- R171: no value has the pad character. -/
theorem b64Char_ne_b64PadChar (v : BitVec 6) : b64Char v ≠ b64PadChar := by
  revert v
  decide

theorem b64Alphabet_length : b64Alphabet.length = 64 := by decide

/-- R171, R176: a character with a value is the character of that value. -/
theorem eq_b64Char_of_b64Val {c : Byte} {v : BitVec 6} (h : b64Val c = some v) : c = b64Char v := by
  rw [b64Val_eq_idxOf?, Option.map_eq_some_iff] at h
  obtain ⟨i, hi, rfl⟩ := h
  obtain ⟨hlt, hget, -⟩ := List.idxOf?_eq_some_iff.1 hi
  have hchar := b64Alphabet_getElem? (BitVec.ofNat 6 i)
  rw [BitVec.toNat_ofNat, Nat.mod_eq_of_lt (hlt.trans_eq b64Alphabet_length), List.getElem?_eq_getElem hlt, hget]
    at hchar
  exact Option.some.inj hchar

theorem b64Val_eq_some_iff (c : Byte) (v : BitVec 6) : b64Val c = some v ↔ c = b64Char v :=
  ⟨eq_b64Char_of_b64Val, fun h => h ▸ b64Val_b64Char v⟩

theorem b64Vals_cons_eq_some_iff (c : Byte) (t : Bytes) (vs : List (BitVec 6)) :
    b64Vals (c :: t) = some vs ↔ ∃ v vs', b64Val c = some v ∧ b64Vals t = some vs' ∧ v :: vs' = vs := by
  rw [b64Vals]
  cases b64Val c <;> cases b64Vals t <;> simp

/-- R177: the characters have values exactly if they are the characters of those values. -/
theorem b64Vals_eq_some_iff (t : Bytes) (vs : List (BitVec 6)) : b64Vals t = some vs ↔ t = vs.map b64Char := by
  induction t generalizing vs with
  | nil => cases vs <;> simp [b64Vals]
  | cons c t ih =>
    simp only [b64Vals_cons_eq_some_iff, b64Val_eq_some_iff, ih]
    cases vs <;> simp

/-! ### One group of 24 bits (R172)

A group is three bytes and it is four fields. A final group has zeros in the place of its absent bytes, and the unused
bits of its last character lie in them. -/

/-- R172: the three bytes of a group, `g[23:16]` first. -/
def groupBytes (g : BitVec 24) : Bytes := [g.extractLsb' 16 8, g.extractLsb' 8 8, g.extractLsb' 0 8]

theorem groupBytes_append (x0 x1 x2 : Byte) : groupBytes (x0 ++ x1 ++ x2) = [x0, x1, x2] := by
  have h0 : (x0 ++ x1 ++ x2).extractLsb' 16 8 = x0 :=
    (BitVec.extractLsb'_append_eq_of_le (by omega)).trans BitVec.extractLsb'_append_eq_left
  have h1 : (x0 ++ x1 ++ x2).extractLsb' 8 8 = x1 :=
    (BitVec.extractLsb'_append_eq_of_le (by omega)).trans BitVec.extractLsb'_append_eq_right
  have h2 : (x0 ++ x1 ++ x2).extractLsb' 0 8 = x2 := BitVec.extractLsb'_append_eq_right
  rw [groupBytes, h0, h1, h2]

theorem groupFields_append (c0 c1 c2 c3 : BitVec 6) : groupFields (c0 ++ c1 ++ c2 ++ c3) = [c0, c1, c2, c3] := by
  have hupper {i : Nat} : (c0 ++ c1 ++ c2 ++ c3).extractLsb' (i + 6) 6 = (c0 ++ c1 ++ c2).extractLsb' i 6 :=
    BitVec.extractLsb'_append_eq_of_le (by omega)
  have h0 : (c0 ++ c1 ++ c2 ++ c3).extractLsb' 18 6 = c0 :=
    hupper.trans ((BitVec.extractLsb'_append_eq_of_le (by omega)).trans BitVec.extractLsb'_append_eq_left)
  have h1 : (c0 ++ c1 ++ c2 ++ c3).extractLsb' 12 6 = c1 :=
    hupper.trans ((BitVec.extractLsb'_append_eq_of_le (by omega)).trans BitVec.extractLsb'_append_eq_right)
  have h2 : (c0 ++ c1 ++ c2 ++ c3).extractLsb' 6 6 = c2 := hupper.trans BitVec.extractLsb'_append_eq_right
  have h3 : (c0 ++ c1 ++ c2 ++ c3).extractLsb' 0 6 = c3 := BitVec.extractLsb'_append_eq_right
  rw [groupFields, h0, h1, h2, h3]

/-- R172: a group is made of its three bytes. -/
theorem append_groupBytes (g : BitVec 24) : g.extractLsb' 16 8 ++ g.extractLsb' 8 8 ++ g.extractLsb' 0 8 = g := by
  rw [BitVec.extractLsb'_append_extractLsb'_eq_extractLsb' (by omega),
    BitVec.extractLsb'_append_extractLsb'_eq_extractLsb' (by omega)]
  exact BitVec.extractLsb'_eq_self

/-- R172: a group is made of its four fields. -/
theorem append_groupFields (g : BitVec 24) :
    g.extractLsb' 18 6 ++ g.extractLsb' 12 6 ++ g.extractLsb' 6 6 ++ g.extractLsb' 0 6 = g := by
  rw [BitVec.extractLsb'_append_extractLsb'_eq_extractLsb' (by omega),
    BitVec.extractLsb'_append_extractLsb'_eq_extractLsb' (by omega),
    BitVec.extractLsb'_append_extractLsb'_eq_extractLsb' (by omega)]
  exact BitVec.extractLsb'_eq_self

theorem toNat_append_field {n : Nat} (g : BitVec n) (c : BitVec 6) : (g ++ c).toNat = 64 * g.toNat + c.toNat := by
  rw [BitVec.toNat_append, ← Nat.shiftLeft_add_eq_or_of_lt c.isLt, Nat.shiftLeft_eq, Nat.mul_comm]

/-- R173, R177: the absent byte behind three characters is 0 exactly if the unused bits are. -/
theorem lastByte_eq_zero_iff (c0 c1 c2 : BitVec 6) :
    (c0 ++ c1 ++ c2 ++ 0#6).extractLsb' 0 8 = 0#8 ↔ c2.toNat % 4 = 0 := by
  rw [← BitVec.toNat_inj, BitVec.extractLsb'_toNat, Nat.shiftRight_zero, toNat_append_field, toNat_append_field,
    BitVec.toNat_ofNat, BitVec.toNat_ofNat]
  omega

/-- R173, R177: the two absent bytes behind two characters are 0 exactly if the unused bits are. -/
theorem lastTwoBytes_eq_zero_iff (c0 c1 : BitVec 6) :
    (c0 ++ c1 ++ 0#6 ++ 0#6).extractLsb' 8 8 = 0#8 ∧ (c0 ++ c1 ++ 0#6 ++ 0#6).extractLsb' 0 8 = 0#8 ↔
      c1.toNat % 16 = 0 := by
  simp only [← BitVec.toNat_inj, BitVec.extractLsb'_toNat, Nat.shiftRight_eq_div_pow, toNat_append_field,
    BitVec.toNat_ofNat]
  omega

/-- R177: the absent fields of the group of two characters, one by one. -/
theorem append_zero_fields (c0 c1 : BitVec 6) : c0 ++ c1 ++ 0#12 = c0 ++ c1 ++ 0#6 ++ 0#6 := by
  rw [BitVec.append_assoc (x₁ := c0 ++ c1), BitVec.zero_append_zero]
  rfl

/-- R173: the last field of the group of two bytes is 0. -/
theorem append_groupFields_two (x0 x1 : Byte) :
    (x0 ++ x1 ++ 0#8).extractLsb' 18 6 ++ (x0 ++ x1 ++ 0#8).extractLsb' 12 6 ++ (x0 ++ x1 ++ 0#8).extractLsb' 6 6 ++ 0#6
      = x0 ++ x1 ++ 0#8 := by
  have hzero : (x0 ++ x1 ++ 0#8).extractLsb' 0 6 = 0#6 := BitVec.extractLsb'_append_eq_of_add_le (by omega)
  simpa only [hzero] using append_groupFields (x0 ++ x1 ++ 0#8)

/-- R173: the last two fields of the group of one byte are 0. -/
theorem append_groupFields_one (x0 : Byte) :
    (x0 ++ 0#8 ++ 0#8).extractLsb' 18 6 ++ (x0 ++ 0#8 ++ 0#8).extractLsb' 12 6 ++ 0#6 ++ 0#6 = x0 ++ 0#8 ++ 0#8 := by
  have hzero : (x0 ++ 0#8 ++ 0#8).extractLsb' 6 6 = 0#6 := by
    rw [BitVec.append_assoc, BitVec.zero_append_zero]
    exact BitVec.extractLsb'_append_eq_of_add_le (xhi := x0) (xlo := 0#16) (by omega)
  simpa only [hzero] using append_groupFields_two x0 0#8

/-! ### The values of a byte string (R172, R173, R177) -/

/-- R172, R173: the values of the characters before the padding. -/
def b64Sextets : Bytes → List (BitVec 6)
  | x0 :: x1 :: x2 :: rest => groupFields (x0 ++ x1 ++ x2) ++ b64Sextets rest
  | [x0, x1] => (groupFields (x0 ++ x1 ++ 0#8)).take 3
  | [x0] => (groupFields (x0 ++ 0#8 ++ 0#8)).take 2
  | [] => []

/-- R173: the number of pad characters behind the text of `n` bytes. -/
def b64Padding (n : Nat) : Nat := (3 - n % 3) % 3

theorem b64Padding_add_three (n : Nat) : b64Padding (n + 3) = b64Padding n := by
  rw [b64Padding, Nat.add_mod_right, b64Padding]

/-- R171 to R174: the text is the characters of the values, and the padding. -/
theorem b64Enc_eq_append : ∀ b : Bytes,
    b64Enc b = (b64Sextets b).map b64Char ++ List.replicate (b64Padding b.length) b64PadChar
  | [] => rfl
  | [_] => rfl
  | [_, _] => rfl
  | x0 :: x1 :: x2 :: rest => by
    rw [b64Enc, b64Sextets, b64Enc_eq_append rest, List.length_cons, List.length_cons, List.length_cons,
      b64Padding_add_three, b64Group, List.map_append, List.append_assoc]

/-- R177: the conditions on the values `vs` of a text with `n` pad characters. -/
structure WellPadded (n : Nat) (vs : List (BitVec 6)) : Prop where
  le_two : n ≤ 2
  length_mod : (vs.length + n) % 4 = 0
  trailing : b64Trailing n vs = false

/-- R177: only the last group of values counts. -/
theorem wellPadded_group_iff (n : Nat) (c0 c1 c2 c3 : BitVec 6) (rest : List (BitVec 6)) :
    WellPadded n (c0 :: c1 :: c2 :: c3 :: rest) ↔ WellPadded n rest := by
  have hlength : ((c0 :: c1 :: c2 :: c3 :: rest).length + n) % 4 = 0 ↔ (rest.length + n) % 4 = 0 := by
    simp only [List.length_cons]; omega
  have htrailing (hle : n ≤ 2) (hmod : (rest.length + n) % 4 = 0) :
      b64Trailing n (c0 :: c1 :: c2 :: c3 :: rest) = b64Trailing n rest := by
    cases rest with
    | nil =>
      obtain rfl : n = 0 := by rw [List.length_nil] at hmod; omega
      rfl
    | cons c rest => simp only [b64Trailing, List.getLastD_cons]
  exact ⟨fun ⟨hle, hmod, ht⟩ => ⟨hle, hlength.1 hmod, htrailing hle (hlength.1 hmod) ▸ ht⟩,
    fun ⟨hle, hmod, ht⟩ => ⟨hle, hlength.2 hmod, (htrailing hle hmod).trans ht⟩⟩

theorem wellPadded_two_iff (c0 c1 : BitVec 6) : WellPadded 2 [c0, c1] ↔ c1.toNat % 16 = 0 :=
  ⟨fun h => by simpa [b64Trailing] using h.trailing, fun h => ⟨le_rfl, by simp, by simpa [b64Trailing] using h⟩⟩

theorem wellPadded_one_iff (c0 c1 c2 : BitVec 6) : WellPadded 1 [c0, c1, c2] ↔ c2.toNat % 4 = 0 :=
  ⟨fun h => by simpa [b64Trailing] using h.trailing, fun h => ⟨by omega, by simp, by simpa [b64Trailing] using h⟩⟩

theorem b64Bytes_two (c0 c1 : BitVec 6) : b64Bytes [c0, c1] = (groupBytes (c0 ++ c1 ++ 0#6 ++ 0#6)).take 1 := by
  rw [← append_zero_fields]
  rfl

theorem b64Bytes_three (c0 c1 c2 : BitVec 6) :
    b64Bytes [c0, c1, c2] = (groupBytes (c0 ++ c1 ++ c2 ++ 0#6)).take 2 := rfl

theorem b64Bytes_group (c0 c1 c2 c3 : BitVec 6) (rest : List (BitVec 6)) :
    b64Bytes (c0 :: c1 :: c2 :: c3 :: rest) = groupBytes (c0 ++ c1 ++ c2 ++ c3) ++ b64Bytes rest := rfl

/-- R180: the bytes come back from their values. -/
theorem b64Bytes_b64Sextets : ∀ b : Bytes, b64Bytes (b64Sextets b) = b
  | [] => rfl
  | [x0] => by
    rw [b64Sextets, groupFields, List.take_succ_cons, List.take_succ_cons, List.take_zero, b64Bytes_two,
      append_groupFields_one, groupBytes_append]
    rfl
  | [x0, x1] => by
    rw [b64Sextets, groupFields, List.take_succ_cons, List.take_succ_cons, List.take_succ_cons, List.take_zero,
      b64Bytes_three, append_groupFields_two, groupBytes_append]
    rfl
  | x0 :: x1 :: x2 :: rest => by
    change b64Bytes (_ :: _ :: _ :: _ :: b64Sextets rest) = _
    rw [b64Bytes_group, append_groupFields, groupBytes_append, b64Bytes_b64Sextets rest]
    rfl

/-- R173, R177: the values of a byte string meet the conditions of the decoder. -/
theorem wellPadded_b64Sextets : ∀ b : Bytes, WellPadded (b64Padding b.length) (b64Sextets b)
  | [] => ⟨Nat.zero_le 2, rfl, rfl⟩
  | [x0] => by
    refine (wellPadded_two_iff ..).2 ((lastTwoBytes_eq_zero_iff ((x0 ++ 0#8 ++ 0#8).extractLsb' 18 6) _).1 ?_)
    rw [append_groupFields_one]
    exact ⟨(BitVec.extractLsb'_append_eq_of_le (by omega)).trans BitVec.extractLsb'_append_eq_right,
      BitVec.extractLsb'_append_eq_right⟩
  | [x0, x1] => by
    refine (wellPadded_one_iff ..).2 ((lastByte_eq_zero_iff ((x0 ++ x1 ++ 0#8).extractLsb' 18 6)
      ((x0 ++ x1 ++ 0#8).extractLsb' 12 6) _).1 ?_)
    rw [append_groupFields_two]
    exact BitVec.extractLsb'_append_eq_right
  | x0 :: x1 :: x2 :: rest => by
    rw [List.length_cons, List.length_cons, List.length_cons, b64Padding_add_three]
    exact (wellPadded_group_iff ..).2 (wellPadded_b64Sextets rest)

/-- R177: the padding is known from the number of values of the last group. -/
theorem WellPadded.eq_mod {n : Nat} {vs : List (BitVec 6)} (h : WellPadded n vs) : n = (4 - vs.length % 4) % 4 := by
  have hle := h.le_two
  have hmod := h.length_mod
  omega

/-- R181: values that meet the conditions come back from their bytes, and so does their padding. -/
theorem b64Sextets_b64Bytes : ∀ {n : Nat} {vs : List (BitVec 6)}, WellPadded n vs →
    b64Sextets (b64Bytes vs) = vs ∧ b64Padding (b64Bytes vs).length = n
  | _, [], h => ⟨rfl, h.eq_mod.symm⟩
  | _, [_], h => absurd (h.eq_mod ▸ h.le_two) (by simp)
  | _, [c0, c1], h => by
    obtain rfl : _ = 2 := h.eq_mod
    obtain ⟨hmiddle, hlast⟩ := (lastTwoBytes_eq_zero_iff c0 c1).2 ((wellPadded_two_iff c0 c1).1 h)
    have hgroup := append_groupBytes (c0 ++ c1 ++ 0#6 ++ 0#6)
    rw [hmiddle, hlast] at hgroup
    rw [b64Bytes_two, groupBytes, List.take_succ_cons, List.take_zero, b64Sextets, hgroup, groupFields_append]
    exact ⟨rfl, rfl⟩
  | _, [c0, c1, c2], h => by
    obtain rfl : _ = 1 := h.eq_mod
    have hlast := (lastByte_eq_zero_iff c0 c1 c2).2 ((wellPadded_one_iff c0 c1 c2).1 h)
    have hgroup := append_groupBytes (c0 ++ c1 ++ c2 ++ 0#6)
    rw [hlast] at hgroup
    rw [b64Bytes_three, groupBytes, List.take_succ_cons, List.take_succ_cons, List.take_zero, b64Sextets, hgroup,
      groupFields_append]
    exact ⟨rfl, rfl⟩
  | n, c0 :: c1 :: c2 :: c3 :: rest, h => by
    obtain ⟨hrest, hpad⟩ := b64Sextets_b64Bytes ((wellPadded_group_iff n c0 c1 c2 c3 rest).1 h)
    rw [b64Bytes_group, groupBytes, List.cons_append, List.cons_append, List.cons_append, List.nil_append, b64Sextets,
      append_groupBytes, groupFields_append, hrest]
    exact ⟨rfl, (b64Padding_add_three _).trans hpad⟩

/-- R180, R181: well-padded values and byte strings determine each other. -/
theorem wellPadded_and_b64Bytes_iff (n : Nat) (vs : List (BitVec 6)) (b : Bytes) :
    WellPadded n vs ∧ b64Bytes vs = b ↔ vs = b64Sextets b ∧ n = b64Padding b.length := by
  constructor
  · rintro ⟨h, rfl⟩
    obtain ⟨hvs, hn⟩ := b64Sextets_b64Bytes h
    exact ⟨hvs.symm, hn.symm⟩
  · rintro ⟨rfl, rfl⟩
    exact ⟨wellPadded_b64Sextets b, b64Bytes_b64Sextets b⟩

/-! ### The padding of a text (R177) -/

/-- R177: `npad` is read off the last two characters. -/
theorem b64PadCount_append_pair (s : Bytes) (a c : Byte) :
    b64PadCount (s ++ [a, c]) = if c = b64PadChar then if a = b64PadChar then 2 else 1 else 0 := by
  simp [b64PadCount]

theorem eq_nil_or_append_pair {α : Type} {t : List α} (h : t.length % 4 = 0) : t = [] ∨ ∃ s a c, t = s ++ [a, c] := by
  rcases List.eq_nil_or_concat' t with rfl | ⟨u, c, rfl⟩
  · exact .inl rfl
  · rcases List.eq_nil_or_concat' u with rfl | ⟨s, a, rfl⟩
    · exact absurd h (by simp)
    · exact .inr ⟨s, a, c, by simp⟩

/-- R177: what is cut off in front of the decoding is pad characters. -/
theorem take_append_padding {t : Bytes} (h : t.length % 4 = 0) :
    t.take (t.length - b64PadCount t) ++ List.replicate (b64PadCount t) b64PadChar = t := by
  obtain rfl | ⟨s, a, c, rfl⟩ := eq_nil_or_append_pair h
  · rfl
  · rw [b64PadCount_append_pair]
    split
    · next hc =>
      split
      · next ha => simp [hc, ha, List.replicate]
      · simp [hc, List.take_append]
    · simp

/-- R177: in a text of values and padding, `npad` is the padding. -/
theorem WellPadded.b64PadCount_eq {n : Nat} {vs : List (BitVec 6)} (h : WellPadded n vs) :
    b64PadCount (vs.map b64Char ++ List.replicate n b64PadChar) = n := by
  obtain rfl | ⟨us, w, rfl⟩ := List.eq_nil_or_concat' vs
  · obtain rfl : n = 0 := h.eq_mod
    rfl
  · match n, h.le_two with
    | 0, _ =>
      obtain hnil | ⟨s, u, v, hs⟩ := eq_nil_or_append_pair (t := us ++ [w]) h.length_mod
      · exact absurd hnil (by simp)
      · have ht : (us ++ [w]).map b64Char ++ List.replicate 0 b64PadChar =
            s.map b64Char ++ [b64Char u, b64Char v] := by simp [hs]
        rw [ht, b64PadCount_append_pair, if_neg (b64Char_ne_b64PadChar v)]
    | 1, _ =>
      have ht : (us ++ [w]).map b64Char ++ List.replicate 1 b64PadChar =
          us.map b64Char ++ [b64Char w, b64PadChar] := by simp
      rw [ht, b64PadCount_append_pair, if_pos rfl, if_neg (b64Char_ne_b64PadChar w)]
    | 2, _ => exact (b64PadCount_append_pair _ b64PadChar b64PadChar).trans rfl

/-! ### The decoder and the encoder (R177, R180, R181) -/

/-- R177: `B64DEC` accepts the characters of well-padded values with their padding, and gives their bytes. -/
theorem b64Dec_eq_ok_iff (t b : Bytes) :
    b64Dec t = .ok b ↔
      ∃ n vs, t = vs.map b64Char ++ List.replicate n b64PadChar ∧ WellPadded n vs ∧ b64Bytes vs = b := by
  constructor
  · intro h
    obtain ⟨hmod, -⟩ := b64Dec_ok_length h
    have hpad := take_append_padding hmod
    rw [b64Dec, if_neg (by omega)] at h
    split at h
    · exact absurd h (by simp)
    · next vs hvs =>
      rw [(b64Vals_eq_some_iff _ _).1 hvs] at hpad
      split at h
      · exact absurd h (by simp)
      · next htrailing =>
        have hlength : (vs.length + b64PadCount t) % 4 = 0 := by
          rw [← hpad] at hmod
          simpa using hmod
        exact ⟨_, vs, hpad.symm, ⟨b64PadCount_le t, hlength, by simpa using htrailing⟩, Except.ok.inj h⟩
  · rintro ⟨n, vs, rfl, h, rfl⟩
    have htake : (vs.map b64Char ++ List.replicate n b64PadChar).take
        ((vs.map b64Char ++ List.replicate n b64PadChar).length - n) = vs.map b64Char := by
      simp
    rw [b64Dec, if_neg (by simpa using h.length_mod), h.b64PadCount_eq, htake, (b64Vals_eq_some_iff _ _).2 rfl]
    simp [h.trailing]

/-- R180, R181: the decoder accepts exactly the encoder's texts. -/
theorem b64Dec_eq_ok_iff_eq_b64Enc (t b : Bytes) : b64Dec t = .ok b ↔ t = b64Enc b := by
  simp only [b64Dec_eq_ok_iff, wellPadded_and_b64Bytes_iff, b64Enc_eq_append]
  constructor
  · rintro ⟨n, vs, rfl, rfl, rfl⟩
    rfl
  · exact fun h => ⟨_, _, h, rfl, rfl⟩

/-- Settles O49: text and bytes both determine the values between them, and the padding. -/
theorem base64Image : Obligations.Base64Image := fun b t =>
  ⟨b64Dec_eq_ok_iff_eq_b64Enc t b, b64Enc_length b, fun h => (b64Dec_ok_length h).2⟩

end Sys2Proof.Machine
end

section
/-! PROOF. The packet framer (45_framer.md rules R186 to R195): joining and splitting are inverse to each other, and
what JOIN and SPLIT do to the machine when neither is stopped. -/

namespace Sys2Proof.Machine

/-! ### Blobs and their fields (R186, R195) -/

theorem joinFields_length (t c k : Bytes) : (joinFields t c k).length = t.length + c.length + k.length := by
  simp only [joinFields, List.length_append]

theorem tagField_joinFields {t : Bytes} (c k : Bytes) (ht : t.length = tagHexLen) :
    tagField (joinFields t c k) = t := by
  rw [tagField, joinFields, List.append_assoc, List.take_left' ht]

/-- R186: the end of the key field is the end of the blob, so before it stand the tag and the ciphertext. -/
theorem joinFields_length_sub (t c : Bytes) {k : Bytes} (hk : k.length = keyHexLen) :
    (joinFields t c k).length - keyHexLen = (t ++ c).length := by
  rw [joinFields_length, hk, Nat.add_sub_cancel, List.length_append]

theorem ctField_joinFields {t k : Bytes} (c : Bytes) (ht : t.length = tagHexLen) (hk : k.length = keyHexLen) :
    ctField (joinFields t c k) = c := by
  rw [ctField, joinFields_length_sub t c hk, joinFields, List.take_left, List.drop_left' ht]

theorem keyField_joinFields (t c : Bytes) {k : Bytes} (hk : k.length = keyHexLen) :
    keyField (joinFields t c k) = k := by
  rw [keyField, joinFields_length_sub t c hk, joinFields, List.drop_left]

/-- R193: the cuts at 40 and at `L - 64` do not cross, so the tag field is also the beginning of what stands before the
key field. -/
theorem joinFields_of_blob {x : Bytes} (h : minBlob ≤ x.length) :
    joinFields (tagField x) (ctField x) (keyField x) = x := by
  have hcuts : tagHexLen ≤ x.length - keyHexLen := Nat.le_sub_of_add_le h
  have htag : tagField x = (x.take (x.length - keyHexLen)).take tagHexLen := by
    rw [tagField, List.take_take, Nat.min_eq_left hcuts]
  rw [joinFields, htag, ctField, List.take_append_drop, keyField, List.take_append_drop]

/-- Settles O50: the two cuts of a joined blob fall between its fields, and those of a long enough blob do not cross. -/
theorem framerLaws : Obligations.FramerLaws := by
  refine ⟨fun t c k ht hk => ⟨?_, tagField_joinFields c k ht, ctField_joinFields c ht hk, keyField_joinFields t c hk⟩,
    fun x hx => joinFields_of_blob hx⟩
  rw [joinFields_length, ht, hk]
  omega

/-! ### JOIN (R190) -/

theorem exec_join (s : State) : exec .join s = execJoin s := rfl

theorem exec_join_of_lengths {s : State} (ht : s.bufs.tagHex.length = 40) (hk : s.bufs.keyHex.length = 64) :
    exec .join s = .next (store .blob (joinFields s.bufs.tagHex s.bufs.ctHex s.bufs.keyHex) s) := by
  rw [exec_join, execJoin, whenHolds_of_true (decide_eq_true ⟨ht, hk⟩)]

/-- Settles O22: with a tag and a key of their lengths the step is a store of the joined blob. -/
theorem joinResult : Obligations.JoinResult := by
  intro s ht hk hfits
  exact ⟨_, exec_join_of_lengths ht hk, store_writesOnly hfits⟩

/-! ### SPLIT (R192, R193) -/

theorem exec_split (s : State) : exec .split s = execSplit s := rfl

theorem exec_split_of_length {s : State} (h : 104 ≤ s.bufs.blob.length) : exec .split s = .next (splitStep s) := by
  rw [exec_split, execSplit, minBlob, if_neg (Nat.not_lt_of_le h)]

/-- R10, R20: `CTHEX` is as much smaller than `BLOB` as the other two fields are long, so the ciphertext field of a blob
within its capacity fits. -/
theorem ctField_length_le_capacity {c : Config} {x : Bytes} (hlen : minBlob ≤ x.length) (hcap : x.length ≤ blobCap c) :
    (ctField x).length ≤ capacity c .ctHex := by
  obtain ⟨-, -, hct⟩ := fields_of_blob hlen
  exact hct ▸ Nat.sub_le_sub_right hcap 104

/-- The machine with the first and the last field of `BLOB` in their buffers: what SPLIT stores the ciphertext field
in (R192). -/
def withOuterFields (s : State) : State :=
  { s with bufs := writeBuf (writeBuf s.bufs .tagHex (tagField s.bufs.blob)) .keyHex (keyField s.bufs.blob) }

theorem splitStep_eq_store (s : State) : splitStep s = store .ctHex (ctField s.bufs.blob) (withOuterFields s) := rfl

theorem readBuf_withOuterFields_of_ne (s : State) {b : Buf} (ht : b ≠ .tagHex) (hk : b ≠ .keyHex) :
    readBuf (withOuterFields s).bufs b = readBuf s.bufs b :=
  (readBuf_writeBuf_of_ne _ _ hk).trans (readBuf_writeBuf_of_ne _ _ ht)

/-- Settles O23: the ciphertext field fits, so the step writes the three fields of the blob, which make it up. -/
theorem splitResult : Obligations.SplitResult := by
  intro s hlen hcap hu
  have hfits : Fits .ctHex (ctField s.bufs.blob) (withOuterFields s) := ⟨ctField_length_le_capacity hlen hcap, hu⟩
  obtain ⟨⟨hwritten, hothers, hupc, hcontrol, hout⟩, hsource, hworking⟩ := store_writesOnly hfits
  rw [← splitStep_eq_store] at hwritten hothers hupc hcontrol hout hsource hworking
  have htag : (splitStep s).bufs.tagHex = tagField s.bufs.blob := hothers .tagHex (by decide)
  have hkey : (splitStep s).bufs.keyHex = keyField s.bufs.blob := hothers .keyHex (by decide)
  have hct : (splitStep s).bufs.ctHex = ctField s.bufs.blob := hwritten
  have hblob : (splitStep s).bufs.tagHex ++ (splitStep s).bufs.ctHex ++ (splitStep s).bufs.keyHex = s.bufs.blob := by
    rw [htag, hct, hkey, ← joinFields, joinFields_of_blob hlen]
  obtain ⟨htagLen, hkeyLen, hctLen⟩ := fields_of_blob hlen
  exact ⟨_, exec_split_of_length hlen, htag, hkey, hblob, htag ▸ htagLen, hkey ▸ hkeyLen, hct ▸ hctLen,
    fun b ht hc hk => (hothers b hc).trans (readBuf_withOuterFields_of_ne s ht hk), hupc, hcontrol, hout (by decide),
    hsource, hworking⟩

end Sys2Proof.Machine
end

section
/-! PROOF. The orchestrator step by step (46_orchestrator.md rules R201 to R203, R210, R211; R237, R238): what a turn of
the sequencer is, MOVE and DONE, and the acceptance or refusal of a command. -/

namespace Sys2Proof.Machine

/-! ### A turn of the sequencer (R203) -/

theorem engineTurn_of_decode {s : State} {i : Instr} (hb : s.busy = true) (hi : decode (.step (fetch s)) = .ok i) :
    engineTurn s = exec i s := by
  rw [engineTurn, if_pos hb, hi]

theorem engineTurn_of_reserved {s : State} {e : DecodeError} (hb : s.busy = true)
    (he : decode (.step (fetch s)) = .error e) : engineTurn s = .next (seqFault .stepReserved s) := by
  rw [engineTurn, if_pos hb, he]

theorem engineTurn_of_idle {s : State} (hb : s.busy = false) : engineTurn s = .next s := by
  rw [engineTurn, if_neg (by simp [hb])]

/-- Settles O7: taking the event off the list does not change which word is fetched. -/
theorem stepRunsFetchedInstruction : Obligations.StepRunsFetchedInstruction := fun _ _ hnext hb hi =>
  (step_of_sequencerNext hnext).trans (engineTurn_of_decode hb hi)

/-- Settles O8: a word that names no instruction is a sequencer fault, which is a completion. -/
theorem reservedWordFaults : Obligations.ReservedWordFaults := fun _ _ hnext hb he =>
  ⟨_, (step_of_sequencerNext hnext).trans (engineTurn_of_reserved hb he), seqFault_completedWith .stepReserved _, rfl⟩

/-! ### MOVE and DONE (R210, R211) -/

theorem exec_move_of_wf {dst src : Buf} {s : State} (hwf : (Instr.move dst src).wf = true) :
    exec (.move dst src) s = .next (store dst (readBuf s.bufs src) s) :=
  congrArg _ (whenLegal_of_wf hwf)

/-- Settles O14: the step is a store of the source's bytes, and `OLEN` is the length of what `OUT` holds. -/
theorem moveResult : Obligations.MoveResult := by
  intro s dst src hwf hfits
  obtain ⟨hwrites, hsource, hworking⟩ := store_writesOnly hfits
  refine ⟨_, exec_move_of_wf hwf, hwrites, hsource, hworking, fun hdst => ?_⟩
  subst hdst
  exact congrArg (fun v : Bytes => BitVec.ofNat 32 v.length) hwrites.1

theorem exec_done (s : State) : exec .done s = .next (complete .ok .none s) := rfl

/-- Settles O29: a completion with `OK` keeps `OUT`. -/
theorem doneCompletes : Obligations.DoneCompletes := fun s =>
  ⟨_, exec_done s, complete_completedWith .ok .none s, rfl⟩

/-! ### Acceptance and refusal (R201, R237) -/

theorem exec_encode (s : State) : exec .encode s = .next (acceptCommand 1#32 s) := rfl

theorem exec_decode (s : State) : exec .decode s = .next (acceptCommand 2#32 s) := rfl

/-- R71: a command's code fixes the sequence it starts and the longest input it takes. -/
theorem Command.eq_of_code {c : Config} {v : Word32} {r r' : CmdReg} {entry entry' : BitVec 5} {cap cap' : Nat}
    (h : Command c v r entry cap) (h' : Command c v r' entry' cap') : r' = r ∧ entry' = entry ∧ cap' = cap := by
  cases h <;> cases h' <;> exact ⟨rfl, rfl, rfl⟩

theorem Command.code {c : Config} {v : Word32} {r : CmdReg} {entry : BitVec 5} {cap : Nat}
    (h : Command c v r entry cap) : v = 1#32 ∨ v = 2#32 := by
  cases h <;> simp

/-- R201: what an idle engine makes of a command's code, by the length of its input. -/
theorem acceptCommand_of_command {s : State} {v : Word32} {r : CmdReg} {entry : BitVec 5} {cap : Nat}
    (hf : s.fatal = false) (hb : s.busy = false) (hcmd : Command s.cfg v r entry cap) :
    (s.ilen.toNat ≤ cap → acceptCommand v s = startCommand r entry (beginCommand s)) ∧
      (cap < s.ilen.toNat → acceptCommand v s = complete .capacity .inTooLong (beginCommand s)) := by
  rcases acceptCommand_cases v s with
    ⟨hdead, -⟩ | ⟨-, hbusy, -⟩ | ⟨-, -, h1, h2, -⟩ | ⟨-, -, r', entry', cap', hcmd', hcase⟩
  · exact absurd hdead (by simp [hf])
  · exact absurd hbusy (by simp [hb])
  · exact (hcmd.code.elim h1 h2).elim
  · obtain ⟨rfl, rfl, rfl⟩ := hcmd.eq_of_code hcmd'
    rcases hcase with ⟨hlong, he⟩ | ⟨hshort, he⟩
    · exact ⟨fun h => absurd hlong (Nat.not_lt.mpr h), fun _ => he⟩
    · exact ⟨fun _ => he, fun h => absurd h (Nat.not_lt.mpr hshort)⟩

/-- R71, R201: what an idle engine makes of a code that is no command's. -/
theorem acceptCommand_of_reserved {s : State} {v : Word32} (hf : s.fatal = false) (hb : s.busy = false)
    (h1 : v ≠ 1#32) (h2 : v ≠ 2#32) : acceptCommand v s = complete .illegalCmd .cmdReserved (beginCommand s) := by
  simp [acceptCommand, hf, hb, h1, h2]

/-- R201: a host write to `CMD`, as a step. -/
theorem step_of_command {s : State} {rest : List Event} {v : Word32} (h : HostNext (.write 0 4 v) rest s) :
    step s = .next (acceptCommand v { s with env := rest, reply := none }) :=
  (step_of_hostNext h).trans (hostTurn_command _ _)

/-- R201, R202: a refusal is a completion that leaves nothing in `OUT`. -/
theorem refusal_completedWith {code : ResultCode} (cause : Cause) (s : State) (hc : code ≠ .ok) :
    CompletedWith code cause [] s (complete code cause (beginCommand s)) ∧
      SameSource s (complete code cause (beginCommand s)) := by
  have hdone := complete_completedWith code cause (beginCommand s)
  rw [if_neg hc] at hdone
  exact ⟨hdone, rfl⟩

/-- Settles O30: an input within the capacity starts the command's sequence. -/
theorem commandsAccepted : Obligations.CommandsAccepted := by
  intro s hf hb
  refine ⟨fun hlen => ?_, fun hlen => ?_⟩
  · rw [exec_encode, (acceptCommand_of_command hf hb .encode).1 hlen]
    rfl
  · rw [exec_decode, (acceptCommand_of_command hf hb .decode).1 hlen]
    rfl

/-- Settles O31: a longer input, or a reserved code, completes at once. -/
theorem commandsRefused : Obligations.CommandsRefused := by
  intro s hf hb
  have hlong := refusal_completedWith (code := .capacity) .inTooLong s (by simp)
  refine ⟨fun hlen => ⟨_, ?_, hlong⟩, fun hlen => ⟨_, ?_, hlong⟩, fun v rest h1 h2 hnext => ⟨_, ?_,
    refusal_completedWith (code := .illegalCmd) .cmdReserved { s with env := rest, reply := none } (by simp)⟩⟩
  · rw [exec_encode, (acceptCommand_of_command hf hb .encode).2 hlen]
  · rw [exec_decode, (acceptCommand_of_command hf hb .decode).2 hlen]
  · exact (step_of_command hnext).trans (congrArg _ (acceptCommand_of_reserved hf hb h1 h2))

end Sys2Proof.Machine
end

section
/-! PROOF. The two sequences of the ROM (30_encoding.md rule R76; 46_orchestrator.md rules R203 to R207, R211): what
each turn of the sequencer does to the buffers, said once by its address. The lengths of R216 and R217 make every length
precondition and every capacity hold, so a turn moves on, raises a failure of R209, or ends with `DONE`. -/

namespace Sys2Proof.Machine

/-! ### A step that moves on -/

/-- R203: `t` is `s` one address further, with `bufs` in its buffers and `rng` at its random source. What the host and
the later steps can tell of the rest stands as before. -/
structure MovesOn (s : State) (bufs : Buffers) (rng : Bytes) (t : State) : Prop where
  bufs : t.bufs = bufs
  rng : t.rng = rng
  upc : t.upc = s.upc + 1
  cfg : t.cfg = s.cfg
  rom : t.rom = s.rom
  cmdreg : t.cmdreg = s.cmdreg
  busy : t.busy = s.busy
  input : windowPrefix t.inw t.ilen.toNat = windowPrefix s.inw s.ilen.toNat
  resultCode : t.resultCode = s.resultCode
  pending : t.initPending = s.initPending
  env : t.env = s.env

/-- R69: a step moves on when it keeps the control state and leaves these buffers. -/
theorem movesOn_of_sameControl {s t : State} {bufs : Buffers} (hbufs : t.bufs = bufs) (hupc : t.upc = s.upc + 1)
    (hsame : SameControl s t) : MovesOn s bufs t.rng t := by
  obtain ⟨hcfg, hrom, hilen, hcmdreg, hbusy, -, -, -, hcode, -, -, -, hread, hpending, -, -, -, henv, -⟩ := hsame
  have hinput : windowPrefix t.inw t.ilen.toNat = windowPrefix s.inw s.ilen.toNat := by
    rw [hilen]
    exact List.map_congr_left fun k _ => hread k
  exact ⟨hbufs, rfl, hupc, hcfg, hrom, hcmdreg, hbusy, hinput, hcode, hpending, henv⟩

theorem movesOn_of_writesOnly {s t : State} {dst : Buf} {v : Bytes} (h : WritesOnly dst v s t) :
    MovesOn s (writeBuf s.bufs dst v) t.rng t := by
  obtain ⟨hdst, hothers, hupc, hsame, -⟩ := h
  refine movesOn_of_sameControl (buffers_ext fun b => ?_) hupc hsame
  by_cases hb : b = dst
  · rw [hb, hdst, readBuf_writeBuf_same]
  · rw [hothers b hb, readBuf_writeBuf_of_ne _ _ hb]

/-- R203: the turn at the address of an operation that writes one buffer. -/
theorem engineTurn_of_writesOnly {s t : State} (hb : s.busy = true) (hr : s.rom = sequenceRom) {u : BitVec 5}
    (hu : s.upc = u) {i : Instr} (hi : decode (.step (sequenceRom[u.toNat]'u.isLt)) = .ok i) (he : exec i s = .next t)
    {dst : Buf} {v rng : Bytes} (hw : WritesOnly dst v s t) (hrng : t.rng = rng) :
    ∃ t, engineTurn s = .next t ∧ MovesOn s (writeBuf s.bufs dst v) rng t :=
  ⟨t, (engineTurn_of_rom hb hr hu hi).trans he, hrng ▸ movesOn_of_writesOnly hw⟩

/-- The turn at the address of HEXENC, whose text is twice as long as its source (R163). -/
theorem engineTurn_of_hexenc {s : State} (hb : s.busy = true) (hr : s.rom = sequenceRom) {u : BitVec 5}
    (hu : s.upc = u) {dst src : Buf} (hi : decode (.step (sequenceRom[u.toNat]'u.isLt)) = .ok (.hexenc dst src))
    (hwf : (Instr.hexenc dst src).wf = true) (hlast : s.upc ≠ 31#5)
    (hcap : 2 * (readBuf s.bufs src).length ≤ capacity s.cfg dst) :
    ∃ t, engineTurn s = .next t ∧
      MovesOn s (writeBuf s.bufs dst (hexEnc s.cfg.hexUpper (readBuf s.bufs src))) s.rng t := by
  have hfits : Fits dst (hexEnc s.cfg.hexUpper (readBuf s.bufs src)) s := ⟨(hexEnc_length _ _).trans_le hcap, hlast⟩
  obtain ⟨t, he, hw, hs, -⟩ := (textEncodersResult s dst src).1 hwf hfits
  exact engineTurn_of_writesOnly hb hr hu hi he hw hs

/-! ### The steps of `ENCODE` (R206) -/

/-- R76, R206: what the step of `ENCODE` at each address but the last leaves in the buffers and at the random
source. -/
inductive EncodeStep (s : State) : BitVec 5 → Buffers → Bytes → Prop
  | newseed (h : 32 ≤ s.rng.length) : EncodeStep s 0x00#5 { s.bufs with seed := s.rng.take 32 } (s.rng.drop 32)
  | derivekey : EncodeStep s 0x01#5 { s.bufs with key := s.bufs.seed.take 32 } s.rng
  | encrypt : EncodeStep s 0x02#5 { s.bufs with ct := encryptBytes s.cfg s.bufs.key s.bufs.inp } s.rng
  | decrypt : EncodeStep s 0x03#5 { s.bufs with pt := s.bufs.inp } s.rng
  | digest : EncodeStep s 0x04#5 { s.bufs with tag := sha1 s.bufs.pt } s.rng
  | hexTag : EncodeStep s 0x05#5 { s.bufs with tagHex := hexEnc s.cfg.hexUpper s.bufs.tag } s.rng
  | hexCt : EncodeStep s 0x06#5 { s.bufs with ctHex := hexEnc s.cfg.hexUpper s.bufs.ct } s.rng
  | hexSeed : EncodeStep s 0x07#5 { s.bufs with keyHex := hexEnc s.cfg.hexUpper s.bufs.seed } s.rng
  | join : EncodeStep s 0x08#5 { s.bufs with blob := joinFields s.bufs.tagHex s.bufs.ctHex s.bufs.keyHex } s.rng
  | b64enc : EncodeStep s 0x09#5 { s.bufs with out := b64Enc s.bufs.blob } s.rng

/-- The addresses of R76 that `ENCODE` runs through. -/
theorem encode_address {u : BitVec 5} (h : u.toNat ≤ 0x0A) :
    u = 0x00#5 ∨ u = 0x01#5 ∨ u = 0x02#5 ∨ u = 0x03#5 ∨ u = 0x04#5 ∨ u = 0x05#5 ∨ u = 0x06#5 ∨ u = 0x07#5 ∨
      u = 0x08#5 ∨ u = 0x09#5 ∨ u = 0x0A#5 := by
  revert u; decide

/-- R10, R216: what `ENCODE` makes of `n` bytes within `MAX_PT` is within the capacities. -/
theorem encode_sizes {c : Config} {n ctLen blobLen : Nat} (hn : n ≤ c.maxPt) (hct : ctLen = 16 * (n / 16 + 1))
    (hblob : blobLen = 104 + 2 * ctLen) :
    ctLen ≤ ctCap c ∧ 2 * ctLen ≤ ctHexCap c ∧ blobLen ≤ blobCap c ∧ 4 * ((blobLen + 2) / 3) ≤ maxPkt c := by
  have hmax : ctLen ≤ maxCt c := by unfold maxCt; omega
  have hcap := maxBlob_le_blobCap c
  unfold ctCap ctHexCap maxPkt
  unfold maxBlob at hcap ⊢
  omega

/-- R204, R206: all that a turn of a running `ENCODE` can do: wait for the draw, move on, or complete. -/
inductive EncodeTurn (s : State) : Prop
  | waits (hu : s.upc = 0x00#5) (hrng : s.rng.length < 32) (h : engineTurn s = .next s)
  | moves {bufs : Buffers} {rng : Bytes} (hstep : EncodeStep s s.upc bufs rng)
      (h : ∃ t, engineTurn s = .next t ∧ MovesOn s bufs rng t)
  | done (hu : s.upc = 0x0A#5) (h : engineTurn s = .next (complete .ok .none s))

/-- R206, R216: with the lengths of R216 no turn of `ENCODE` fails. -/
theorem encodeTurn {s : State} (hb : s.busy = true) (hr : s.rom = sequenceRom) (hsh : EncodeShape s) :
    EncodeTurn s := by
  obtain ⟨hu, hn, hseed, hkey, hct, hpt, htag, htagHex, hctHex, hkeyHex, hblob, -⟩ := hsh
  obtain ⟨hctCap, hctHexCap, hblobCap, houtCap⟩ := encode_sizes hn rfl rfl
  rcases encode_address hu with hu | hu | hu | hu | hu | hu | hu | hu | hu | hu | hu <;>
    simp only [hu, BitVec.reduceToNat, Nat.reduceLeDiff, forall_const]
      at hseed hkey hct hpt htag htagHex hctHex hkeyHex hblob <;>
    have hlast : s.upc ≠ 31#5 := by simp [hu]
  · by_cases hready : 32 ≤ s.rng.length
    · obtain ⟨t, he, hw, hs, -⟩ := newseedResult s hready hlast
      exact .moves (hu ▸ .newseed hready) (engineTurn_of_writesOnly hb hr hu rfl he hw hs)
    · have hwait := Nat.lt_of_not_le hready
      exact .waits hu hwait ((engineTurn_of_rom hb hr hu rfl).trans (newseedWaits s hwait))
  · obtain ⟨t, he, hw, hs, -⟩ := derivekeyResult s hseed.ge hlast
    exact .moves (hu ▸ .derivekey) (engineTurn_of_writesOnly hb hr hu rfl he hw hs)
  · have hfits : Fits .ct (encryptBytes s.cfg s.bufs.key s.bufs.inp) s :=
      ⟨(encryptBytes_length _ _ _).trans_le hctCap, hlast⟩
    obtain ⟨t, he, hw, -, hs, -⟩ := encryptResult s .ct .inp rfl hkey hfits
    exact .moves (hu ▸ .encrypt) (engineTurn_of_writesOnly hb hr hu rfl he hw hs)
  · have hok : decryptBytes s.cfg s.bufs.key s.bufs.ct = .ok s.bufs.inp := hct.1 ▸ cipherRoundTrip _ _ _ hkey
    have hfits : Fits .pt s.bufs.inp s := ⟨hn.trans ((maxPt_lt_maxCt _).le.trans (maxCt_le_ctCap _)), hlast⟩
    obtain ⟨t, he, hw, -, -, hs, -⟩ := decryptResult s .pt .ct _ rfl hkey hok hfits
    exact .moves (hu ▸ .decrypt) (engineTurn_of_writesOnly hb hr hu rfl he hw hs)
  · obtain ⟨t, he, hw, -, hs, -⟩ := digestResult s .tag .pt rfl hlast
    exact .moves (hu ▸ .digest) (engineTurn_of_writesOnly hb hr hu rfl he hw hs)
  · have hcap : 2 * s.bufs.tag.length ≤ tagHexLen := by rw [htag]; rfl
    exact .moves (hu ▸ .hexTag) (engineTurn_of_hexenc hb hr hu rfl rfl hlast hcap)
  · obtain ⟨-, hctLen⟩ := hct
    rw [← hctLen] at hctHexCap
    exact .moves (hu ▸ .hexCt) (engineTurn_of_hexenc hb hr hu rfl rfl hlast hctHexCap)
  · have hcap : 2 * s.bufs.seed.length ≤ keyHexLen := by rw [hseed]; rfl
    exact .moves (hu ▸ .hexSeed) (engineTurn_of_hexenc hb hr hu rfl rfl hlast hcap)
  · have hfits : Fits .blob (joinFields s.bufs.tagHex s.bufs.ctHex s.bufs.keyHex) s :=
      ⟨by rw [joinFields_length, htagHex, hctHex, hkeyHex]; simp only [capacity]; omega, hlast⟩
    obtain ⟨t, he, hw, hs, -⟩ := joinResult s htagHex hkeyHex hfits
    exact .moves (hu ▸ .join) (engineTurn_of_writesOnly hb hr hu rfl he hw hs)
  · have hfits : Fits .out (b64Enc s.bufs.blob) s := ⟨by rw [b64Enc_length, hblob, hct.2]; exact houtCap, hlast⟩
    obtain ⟨t, he, hw, hs, -⟩ := (textEncodersResult s .out .blob).2 rfl hfits
    exact .moves (hu ▸ .b64enc) (engineTurn_of_writesOnly hb hr hu rfl he hw hs)
  · exact .done hu ((engineTurn_of_rom hb hr hu rfl).trans (exec_done s))

/-! ### The steps of `DECODE` (R207) -/

/-- R76, R207: what the step of `DECODE` at each address but the last leaves in the buffers when it does not fail. -/
inductive DecodeStep (s : State) : BitVec 5 → Buffers → Prop
  | b64dec {x : Bytes} (h : b64Dec s.bufs.inp = .ok x) : DecodeStep s 0x10#5 { s.bufs with blob := x }
  | split (h : 104 ≤ s.bufs.blob.length) : DecodeStep s 0x11#5 { s.bufs with
      tagHex := tagField s.bufs.blob, ctHex := ctField s.bufs.blob, keyHex := keyField s.bufs.blob }
  | hexTag {v : Bytes} (h : hexDec s.cfg.hexUpper s.bufs.tagHex = .ok v) : DecodeStep s 0x12#5 { s.bufs with tag := v }
  | hexSeed {v : Bytes} (h : hexDec s.cfg.hexUpper s.bufs.keyHex = .ok v) :
      DecodeStep s 0x13#5 { s.bufs with seed := v }
  | hexCt {v : Bytes} (h : hexDec s.cfg.hexUpper s.bufs.ctHex = .ok v) : DecodeStep s 0x14#5 { s.bufs with ct := v }
  | derivekey : DecodeStep s 0x15#5 { s.bufs with key := s.bufs.seed.take 32 }
  | decrypt {m : Bytes} (h : decryptBytes s.cfg s.bufs.key s.bufs.ct = .ok m) :
      DecodeStep s 0x16#5 { s.bufs with pt := m }
  | digest : DecodeStep s 0x17#5 { s.bufs with xtag := sha1 s.bufs.pt }
  | tagcmp (h : s.bufs.tag = s.bufs.xtag) : DecodeStep s 0x18#5 s.bufs
  | move : DecodeStep s 0x19#5 { s.bufs with out := s.bufs.pt }

/-- R209, R236: the failures of `DECODE`, each at the address of the step that raises it. -/
inductive DecodeFailure (s : State) : BitVec 5 → ResultCode → Cause → Prop
  | base64 {f : Failure} (h : b64Dec s.bufs.inp = .error f) : DecodeFailure s 0x10#5 .malformed f.cause
  | short (h : s.bufs.blob.length < 104) : DecodeFailure s 0x11#5 .malformed .blobShort
  | hexTag {f : Failure} (h : hexDec s.cfg.hexUpper s.bufs.tagHex = .error f) :
      DecodeFailure s 0x12#5 .malformed f.cause
  | hexSeed {f : Failure} (h : hexDec s.cfg.hexUpper s.bufs.keyHex = .error f) :
      DecodeFailure s 0x13#5 .malformed f.cause
  | hexCt {f : Failure} (h : hexDec s.cfg.hexUpper s.bufs.ctHex = .error f) :
      DecodeFailure s 0x14#5 .malformed f.cause
  | cipher {f : Failure} (h : decryptBytes s.cfg s.bufs.key s.bufs.ct = .error f) :
      DecodeFailure s 0x16#5 .malformed f.cause
  | tag (h : s.bufs.tag ≠ s.bufs.xtag) : DecodeFailure s 0x18#5 .tampered .tagMismatch

/-- The addresses of R76 that `DECODE` runs through. -/
theorem decode_address {u : BitVec 5} (h : 0x10 ≤ u.toNat) (h' : u.toNat ≤ 0x1A) :
    u = 0x10#5 ∨ u = 0x11#5 ∨ u = 0x12#5 ∨ u = 0x13#5 ∨ u = 0x14#5 ∨ u = 0x15#5 ∨ u = 0x16#5 ∨ u = 0x17#5 ∨
      u = 0x18#5 ∨ u = 0x19#5 ∨ u = 0x1A#5 := by
  revert u; decide

/-- R10, R217: what `DECODE` makes of `n` characters within `MAX_PKT` is within the capacities. -/
theorem decode_sizes {c : Config} {n blobLen ctHexLen : Nat} (hn : n ≤ maxPkt c) (hblob : blobLen ≤ 3 * (n / 4))
    (hct : ctHexLen = blobLen - 104) :
    blobLen ≤ blobCap c ∧ ctHexLen / 2 ≤ ctCap c ∧ ctHexLen / 2 ≤ maxPkt c := by
  unfold ctCap ctHexCap blobCap
  omega

/-- R202, R236: the turn ends the command with a failure, and leaves nothing in `OUT`. -/
def TurnFails (s : State) (code : ResultCode) (cause : Cause) : Prop :=
  ∃ t, engineTurn s = .next t ∧ CompletedWith code cause [] s t ∧ SameSource s t

/-- R192: the turn at the address of SPLIT, on a blob long enough and within its capacity. -/
theorem engineTurn_of_split {s : State} (hb : s.busy = true) (hr : s.rom = sequenceRom) (hu : s.upc = 0x11#5)
    (hlen : 104 ≤ s.bufs.blob.length) (hcap : s.bufs.blob.length ≤ blobCap s.cfg) :
    ∃ t, engineTurn s = .next t ∧ MovesOn s { s.bufs with
      tagHex := tagField s.bufs.blob, ctHex := ctField s.bufs.blob, keyHex := keyField s.bufs.blob } s.rng t := by
  have hfits : Fits .ctHex (ctField s.bufs.blob) (withOuterFields s) :=
    ⟨ctField_length_le_capacity hlen hcap, hu.trans_ne (by decide)⟩
  refine ⟨_, (engineTurn_of_rom hb hr hu rfl).trans (exec_split_of_length hlen), ?_⟩
  rw [splitStep_eq_store, store_of_fits hfits]
  exact ⟨rfl, rfl, rfl, rfl, rfl, rfl, rfl, rfl, rfl, rfl, rfl⟩

/-- R103: the turn at the address of TAGCMP, on equal tags: only `DIFF` is written. -/
theorem engineTurn_of_tagcmp {s : State} (hb : s.busy = true) (hr : s.rom = sequenceRom) (hu : s.upc = 0x18#5)
    (hlen : s.bufs.xtag.length = 20) (h : s.bufs.tag = s.bufs.xtag) :
    ∃ t, engineTurn s = .next t ∧ MovesOn s s.bufs s.rng t :=
  ⟨_, (engineTurn_of_rom hb hr hu rfl).trans (tagcmpEqual s hlen h (hu.trans_ne (by decide))),
    rfl, rfl, rfl, rfl, rfl, rfl, rfl, rfl, rfl, rfl, rfl⟩

/-- R165: the turn at an address of HEXDEC stores the bytes of the text or raises its failure. -/
theorem engineTurn_of_hexdec {s : State} (hb : s.busy = true) (hr : s.rom = sequenceRom) {u : BitVec 5}
    (hu : s.upc = u) {dst src : Buf} (hi : decode (.step (sequenceRom[u.toNat]'u.isLt)) = .ok (.hexdec dst src))
    (hwf : (Instr.hexdec dst src).wf = true) (hlast : s.upc ≠ 31#5)
    (hcap : (readBuf s.bufs src).length / 2 ≤ capacity s.cfg dst) :
    (∃ v, hexDec s.cfg.hexUpper (readBuf s.bufs src) = .ok v ∧
      ∃ t, engineTurn s = .next t ∧ MovesOn s (writeBuf s.bufs dst v) s.rng t) ∨
      ∃ f, hexDec s.cfg.hexUpper (readBuf s.bufs src) = .error f ∧ TurnFails s .malformed f.cause := by
  have hturn := engineTurn_of_rom hb hr hu hi
  cases hv : hexDec s.cfg.hexUpper (readBuf s.bufs src) with
  | ok v =>
    have hfits : Fits dst v s := ⟨by have := hexDec_ok_length hv; omega, hlast⟩
    obtain ⟨t, he, hw, hs, -⟩ := (textDecodersResult s dst src v hfits).1 hwf hv
    exact .inl ⟨v, rfl, engineTurn_of_writesOnly hb hr hu hi he hw hs⟩
  | error f =>
    obtain ⟨t, he, hc, hs, -⟩ := textUnitsFail.1 s dst src f hwf hv
    exact .inr ⟨f, rfl, t, hturn.trans he, hc, hs⟩

/-- R204, R207, R217: all that a turn of a running `DECODE` can do: move on, fail, or complete. -/
inductive DecodeTurn (s : State) : Prop
  | moves {bufs : Buffers} (hstep : DecodeStep s s.upc bufs)
      (h : ∃ t, engineTurn s = .next t ∧ MovesOn s bufs s.rng t)
  | fails {code : ResultCode} {cause : Cause} (hfail : DecodeFailure s s.upc code cause) (h : TurnFails s code cause)
  | done (hu : s.upc = 0x1A#5) (h : engineTurn s = .next (complete .ok .none s))

/-- R207, R217: with the lengths of R217 a turn of `DECODE` fails only as R209 says. -/
theorem decodeTurn {s : State} (hb : s.busy = true) (hr : s.rom = sequenceRom) (hcmd : s.cmdreg = .decode)
    (hsh : DecodeShape s) : DecodeTurn s := by
  obtain ⟨hlo, hhi, hn, hblob, hfields, htag, hseed, hct, hkey, hpt, hxtag, -⟩ := hsh
  rcases decode_address hlo hhi with hu | hu | hu | hu | hu | hu | hu | hu | hu | hu | hu <;>
    simp only [hu, BitVec.reduceToNat, Nat.reduceLeDiff, forall_const]
      at hblob hfields htag hseed hct hkey hpt hxtag <;>
    have hlast : s.upc ≠ 31#5 := by simp [hu]
  · cases hx : b64Dec s.bufs.inp with
    | ok x =>
      have hcap := (decode_sizes hn ((b64Dec_ok_length hx).2.trans_le (Nat.sub_le _ _)) rfl).1
      have hfits : Fits .blob x s := ⟨hcap, hlast⟩
      obtain ⟨t, he, hw, hs, -⟩ := (textDecodersResult s .blob .inp x hfits).2 rfl hx
      exact .moves (hu ▸ .b64dec hx) (engineTurn_of_writesOnly hb hr hu rfl he hw hs)
    | error f =>
      obtain ⟨t, he, hc, hs, -⟩ := textUnitsFail.2.1 s .blob .inp f rfl hx
      exact .fails (hu ▸ .base64 hx) ⟨t, (engineTurn_of_rom hb hr hu rfl).trans he, hc, hs⟩
  · by_cases hlen : 104 ≤ s.bufs.blob.length
    · exact .moves (hu ▸ .split hlen) (engineTurn_of_split hb hr hu hlen (decode_sizes hn hblob rfl).1)
    · have hshort := Nat.lt_of_not_le hlen
      obtain ⟨t, he, hc, hs⟩ := textUnitsFail.2.2 s hshort
      exact .fails (hu ▸ .short hshort) ⟨t, (engineTurn_of_rom hb hr hu rfl).trans he, hc, hs⟩
  · obtain ⟨-, htagHex, -⟩ := hfields
    have hcap : s.bufs.tagHex.length / 2 ≤ tagLen := by rw [htagHex]; rfl
    rcases engineTurn_of_hexdec hb hr hu rfl rfl hlast hcap with ⟨v, hv, h⟩ | ⟨f, hf, h⟩
    · exact .moves (hu ▸ .hexTag hv) h
    · exact .fails (hu ▸ .hexTag hf) h
  · obtain ⟨-, -, hkeyHex, -⟩ := hfields
    have hcap : s.bufs.keyHex.length / 2 ≤ seedLen := by rw [hkeyHex]; rfl
    rcases engineTurn_of_hexdec hb hr hu rfl rfl hlast hcap with ⟨v, hv, h⟩ | ⟨f, hf, h⟩
    · exact .moves (hu ▸ .hexSeed hv) h
    · exact .fails (hu ▸ .hexSeed hf) h
  · obtain ⟨-, -, -, hctHex⟩ := hfields
    obtain ⟨-, hcap, -⟩ := decode_sizes hn hblob hctHex
    rcases engineTurn_of_hexdec hb hr hu rfl rfl hlast hcap with ⟨v, hv, h⟩ | ⟨f, hf, h⟩
    · exact .moves (hu ▸ .hexCt hv) h
    · exact .fails (hu ▸ .hexCt hf) h
  · obtain ⟨t, he, hw, hs, -⟩ := derivekeyResult s hseed.ge hlast
    exact .moves (hu ▸ .derivekey) (engineTurn_of_writesOnly hb hr hu rfl he hw hs)
  · cases hm : decryptBytes s.cfg s.bufs.key s.bufs.ct with
    | ok m =>
      obtain ⟨-, hlt, -⟩ := decryptBytes_ok_length hm
      obtain ⟨-, -, -, hctHex⟩ := hfields
      obtain ⟨-, hcap, -⟩ := decode_sizes hn hblob hctHex
      have hfits : Fits .pt m s := ⟨by simp only [capacity, ptCap]; omega, hlast⟩
      obtain ⟨t, he, hw, -, -, hs, -⟩ := decryptResult s .pt .ct m rfl hkey hm hfits
      exact .moves (hu ▸ .decrypt hm) (engineTurn_of_writesOnly hb hr hu rfl he hw hs)
    | error f =>
      obtain ⟨t, code, he, hc, hs, hcode, -⟩ := decryptFails s .pt .ct f rfl (fun _ => hkey) hm
      rw [hcode hcmd] at hc
      exact .fails (hu ▸ .cipher hm) ⟨t, (engineTurn_of_rom hb hr hu rfl).trans he, hc, hs⟩
  · obtain ⟨t, he, hw, -, hs, -⟩ := digestResult s .xtag .pt rfl hlast
    exact .moves (hu ▸ .digest) (engineTurn_of_writesOnly hb hr hu rfl he hw hs)
  · by_cases heq : s.bufs.tag = s.bufs.xtag
    · exact .moves (hu ▸ .tagcmp heq) (engineTurn_of_tagcmp hb hr hu hxtag heq)
    · obtain ⟨t, he, hc, hs⟩ := tagcmpMismatch s hxtag htag heq
      exact .fails (hu ▸ .tag heq) ⟨t, (engineTurn_of_rom hb hr hu rfl).trans he, hc, hs⟩
  · obtain ⟨-, -, -, hctHex⟩ := hfields
    obtain ⟨-, -, hcap⟩ := decode_sizes hn hblob hctHex
    have hfits : Fits .out s.bufs.pt s := ⟨by simp only [capacity]; omega, hlast⟩
    obtain ⟨t, he, hw, hs, -⟩ := moveResult s .out .pt rfl hfits
    exact .moves (hu ▸ .move) (engineTurn_of_writesOnly hb hr hu rfl he hw hs)
  · exact .done hu ((engineTurn_of_rom hb hr hu rfl).trans (exec_done s))

end Sys2Proof.Machine
end

section
/-! PROOF. The invariant of the two sequences (46_orchestrator.md rules R216, R217; R151, R206, R209): every buffer a
step writes has the length the rules give, so the sequencer fault and the cipher failure of `ENCODE` are never reached.
What a turn does is said by `encodeTurn` and `decodeTurn`; what the other agents do, by `step_cases`. -/

namespace Sys2Proof.Machine

/-! ### The lengths of R216 and R217, one step on -/

/-- R216: each step of `ENCODE` gives the buffer it writes its length, and leaves the others theirs. -/
theorem encodeShape_of_step {s t : State} {bufs : Buffers} {rng : Bytes} (h : EncodeShape s)
    (hstep : EncodeStep s s.upc bufs rng) (hm : MovesOn s bufs rng t) : EncodeShape t := by
  unfold EncodeShape at h ⊢
  rw [hm.bufs, hm.cfg, hm.upc]
  clear hm
  generalize s.upc = u at h hstep
  cases hstep <;>
    simp only [BitVec.reduceAdd, BitVec.reduceToNat, Nat.reduceLeDiff, forall_const, IsEmpty.forall_iff, true_and,
      and_true] at h ⊢
  case newseed hready => exact ⟨h, List.length_take_of_le hready⟩
  case derivekey | decrypt => grind
  case encrypt => grind [encryptBytes_length]
  case digest => grind [sha1_length]
  case hexTag | hexCt | hexSeed => grind [hexEnc_length]
  case join => grind [joinFields_length]
  case b64enc =>
    obtain ⟨-, -, -, hout⟩ := encode_sizes h.1 rfl rfl
    grind [b64Enc_length]

/-- R217: each step of `DECODE` that does not fail gives the buffer it writes its length, and leaves the others
theirs. -/
theorem decodeShape_of_step {s t : State} {bufs : Buffers} (h : DecodeShape s) (hstep : DecodeStep s s.upc bufs)
    (hm : MovesOn s bufs s.rng t) : DecodeShape t := by
  unfold DecodeShape at h ⊢
  rw [hm.bufs, hm.cfg, hm.upc]
  clear hm
  generalize s.upc = u at h hstep
  cases hstep <;>
    simp only [BitVec.reduceAdd, BitVec.reduceToNat, Nat.reduceLeDiff, forall_const, IsEmpty.forall_iff, true_and,
      and_true] at h ⊢
  case b64dec hx =>
    have hlen := (b64Dec_ok_length hx).2
    omega
  case split hlen => exact ⟨h.1, h.2, hlen, fields_of_blob hlen⟩
  case hexTag hv | hexSeed hv | hexCt hv =>
    have hlen := hexDec_ok_length hv
    grind
  case decrypt hm =>
    obtain ⟨-, hlt, -⟩ := decryptBytes_ok_length hm
    grind
  case derivekey | tagcmp => grind
  case digest => grind [sha1_length]
  case move => grind [decode_sizes]

/-! ### Which updates keep the invariant of the sequences -/

/-- An engine that is not busy is on neither sequence: only the result of its latest command is left to hold. -/
theorem sequenceInv_of_idle {s t : State} (h : SequenceInv s) (hcfg : t.cfg = s.cfg) (hrom : t.rom = s.rom)
    (hb : t.busy = false) (hfault : t.resultCode ≠ .seqFault) (hcipher : t.resultCode ≠ .badCipherText) :
    SequenceInv t where
  cfg := hcfg ▸ h.cfg
  rom := hrom.trans h.rom
  sampled hbusy := absurd hbusy (by simp [hb])
  shape hbusy := absurd hbusy (by simp [hb])
  noFault := hfault
  noCipherFailure := hcipher

/-- The invariant is about the engine's own state: the ports, the model's records and the flags other than `BUSY` do not
bear on it. -/
theorem sequenceInv_ports {s : State} (h : SequenceInv s)
    (done fatal ovr ie initPending rngOk cipherOk digestOk : Bool) (rng : Bytes) (env : List Event)
    (reply : Option Word32) :
    SequenceInv { s with
      done := done, fatal := fatal, ovr := ovr, ie := ie, initPending := initPending, rngOk := rngOk
      cipherOk := cipherOk, digestOk := digestOk, rng := rng, env := env, reply := reply } :=
  ⟨h.cfg, h.rom, h.sampled, h.shape, h.noFault, h.noCipherFailure⟩

/-- A step that moves on leaves the command, its input and the cleared `RESULT` as they are. -/
theorem sequenceInv_of_movesOn {s t : State} {bufs : Buffers} {rng : Bytes} (h : SequenceInv s) (hb : s.busy = true)
    (hm : MovesOn s bufs rng t) (hinp : bufs.inp = s.bufs.inp)
    (hshape : (s.cmdreg = .encode ∧ EncodeShape t) ∨ (s.cmdreg = .decode ∧ DecodeShape t)) : SequenceInv t where
  cfg := hm.cfg ▸ h.cfg
  rom := hm.rom.trans h.rom
  sampled _ := by rw [hm.bufs, hinp, hm.input, h.sampled hb]
  shape _ := by rw [hm.cmdreg]; exact hshape
  noFault := by rw [hm.resultCode]; exact h.noFault
  noCipherFailure := by rw [hm.resultCode]; exact h.noCipherFailure

theorem EncodeStep.inp_eq {s : State} {u : BitVec 5} {bufs : Buffers} {rng : Bytes} (h : EncodeStep s u bufs rng) :
    bufs.inp = s.bufs.inp := by
  cases h <;> rfl

theorem DecodeStep.inp_eq {s : State} {u : BitVec 5} {bufs : Buffers} (h : DecodeStep s u bufs) :
    bufs.inp = s.bufs.inp := by
  cases h <;> rfl

/-- R209: no failure of `DECODE` is a sequencer fault or the cipher failure of `ENCODE`. -/
theorem DecodeFailure.code {s : State} {u : BitVec 5} {code : ResultCode} {cause : Cause}
    (h : DecodeFailure s u code cause) : code = .malformed ∨ code = .tampered := by
  cases h <;> simp

/-! ### Each agent -/

/-- R216, R217: no turn of either sequence ends in a sequencer fault, so a turn of the sequencer keeps the invariant. -/
theorem sequenceInv_engineTurn {s t : State} (h : SequenceInv s) (ht : engineTurn s = .next t) : SequenceInv t := by
  rcases Bool.eq_false_or_eq_true s.busy with hb | hb
  case inr => cases (engineTurn_of_idle hb).symm.trans ht; exact h
  have completed : engineTurn s = .next (complete .ok .none s) → SequenceInv t := fun he => by
    cases he.symm.trans ht
    exact sequenceInv_of_idle h rfl rfl rfl (by simp) (by simp)
  rcases h.shape hb with ⟨hcmd, hsh⟩ | ⟨hcmd, hsh⟩
  · rcases encodeTurn hb h.rom hsh with ⟨-, -, he⟩ | ⟨hstep, u, he, hm⟩ | ⟨-, he⟩
    · cases he.symm.trans ht; exact h
    · cases he.symm.trans ht
      exact sequenceInv_of_movesOn h hb hm hstep.inp_eq (.inl ⟨hcmd, encodeShape_of_step hsh hstep hm⟩)
    · exact completed he
  · rcases decodeTurn hb h.rom hcmd hsh with ⟨hstep, u, he, hm⟩ | ⟨hfail, u, he, hc, -⟩ | ⟨-, he⟩
    · cases he.symm.trans ht
      exact sequenceInv_of_movesOn h hb hm hstep.inp_eq (.inr ⟨hcmd, decodeShape_of_step hsh hstep hm⟩)
    · cases he.symm.trans ht
      obtain ⟨hcode, -, -, hbusy, -, -, -, -, hcfg, hrom, -⟩ := hc
      refine sequenceInv_of_idle h hcfg hrom hbusy ?_ ?_ <;> rw [hcode] <;> rcases hfail.code with rfl | rfl <;> simp
    · exact completed he

/-- R201, R216, R217: an accepted command stands at its entry address, where no buffer has been written yet. -/
theorem sequenceInv_startCommand {s : State} (h : SequenceInv s) {v : Word32} {c : CmdReg} {entry : BitVec 5}
    {cap : Nat} (hcmd : Command s.cfg v c entry cap) (hlen : s.ilen.toNat ≤ cap) :
    SequenceInv (startCommand c entry (beginCommand s)) where
  cfg := h.cfg
  rom := h.rom
  sampled _ := rfl
  shape _ := by
    cases hcmd with
    | encode => exact .inl ⟨rfl, by simpa [EncodeShape] using hlen⟩
    | decode => exact .inr ⟨rfl, by simpa [DecodeShape] using hlen⟩
  noFault := by simp
  noCipherFailure := by simp

theorem sequenceInv_acceptCommand {s : State} (h : SequenceInv s) (v : Word32) :
    SequenceInv (acceptCommand v s) := by
  rcases acceptCommand_cases v s with
    ⟨-, he⟩ | ⟨-, -, he⟩ | ⟨-, -, -, -, he⟩ | ⟨-, -, c, entry, cap, hcmd, ⟨-, he⟩ | ⟨hlen, he⟩⟩ <;> rw [he]
  · exact h
  · exact sequenceInv_ports h s.done s.fatal true s.ie s.initPending s.rngOk s.cipherOk s.digestOk s.rng s.env s.reply
  · exact sequenceInv_of_idle h rfl rfl rfl (by simp) (by simp)
  · exact sequenceInv_of_idle h rfl rfl rfl (by simp) (by simp)
  · exact sequenceInv_startCommand h hcmd hlen

/-- R59, R61: while a command runs, a host write other than a command reaches nothing but `OVR` and `IE`: `DONE` is 0,
so there is nothing to release. -/
theorem sequenceInv_hostWrite {s : State} (h : SequenceInv s) (hdone : s.done = true → s.busy = false) (space : Space)
    (k width : Nat) (v : Word32) : SequenceInv (hostWrite space k width v s) := by
  have flags (ovr ie : Bool) : SequenceInv { s with ovr := ovr, ie := ie } :=
    sequenceInv_ports h s.done s.fatal ovr ie s.initPending s.rngOk s.cipherOk s.digestOk s.rng s.env s.reply
  rcases hostWrite_cases space k width v s with
    he | ⟨-, -, he⟩ | ⟨-, hb, he⟩ | ⟨-, hb, -, b, he⟩ | ⟨b, he⟩ | he <;> rw [he]
  · exact h
  · exact flags true s.ie
  · exact sequenceInv_of_idle h rfl rfl hb h.noFault h.noCipherFailure
  · exact sequenceInv_of_idle h rfl rfl hb h.noFault h.noCipherFailure
  · exact flags s.ovr b
  · obtain ⟨ovr, hw | ⟨hd, hw⟩⟩ := writeStatus_cases v s <;> rw [hw]
    · exact flags ovr s.ie
    · exact sequenceInv_of_idle h rfl rfl (hdone hd) h.noFault h.noCipherFailure

theorem sequenceInv_hostTurn {s t : State} {a : HostAccess} (h : SequenceInv s)
    (hdone : s.done = true → s.busy = false) (ht : hostTurn a s = .next t) : SequenceInv t := by
  have reply {u : State} (hu : SequenceInv u) (r : Option Word32) : SequenceInv { u with reply := r } :=
    sequenceInv_ports hu u.done u.fatal u.ovr u.ie u.initPending u.rngOk u.cipherOk u.digestOk u.rng u.env r
  rcases hostTurn_cases ht with ⟨v, rfl⟩ | ⟨r, rfl⟩ | ⟨space, k, width, v, rfl⟩
  · exact sequenceInv_acceptCommand (reply h none) v
  · exact reply h r
  · exact reply (sequenceInv_hostWrite h hdone space k width v) none

/-- Settles O44: each agent that can take the step keeps the invariant. -/
theorem sequenceInvKept : Obligations.SequenceInvKept := by
  intro s t hinv h hstep
  have hport (fatal pending r c d : Bool) (rng : Bytes) (env : List Event) :
      SequenceInv { s with
        fatal := fatal, initPending := pending, rngOk := r, cipherOk := c, digestOk := d, rng := rng, env := env } :=
    sequenceInv_ports h s.done fatal s.ovr s.ie pending r c d rng env s.reply
  have hnext := hport s.fatal s.initPending s.rngOk s.cipherOk s.digestOk s.rng s.env.tail
  have hdone : s.done = true → s.busy = false := fun hd => Bool.eq_false_iff.mpr fun hb => hinv.busyDone ⟨hb, hd⟩
  rcases step_cases hstep with
    ⟨-, rfl⟩ | ⟨-, hengine | ⟨a, hhost⟩ | rfl | ⟨bytes, rfl⟩ | ⟨r, c, d, rfl⟩⟩
  · exact hport _ false s.rngOk s.cipherOk s.digestOk s.rng s.env
  · exact sequenceInv_engineTurn hnext hengine
  · exact sequenceInv_hostTurn hnext hdone hhost
  · exact sequenceInv_of_silent h.cfg h.rom rfl rfl
  · exact hport s.fatal s.initPending s.rngOk s.cipherOk s.digestOk (s.rng ++ bytes) s.env.tail
  · exact hport s.fatal s.initPending r c d s.rng s.env.tail

end Sys2Proof.Machine
end

section
/-! PROOF. The packets of the closed forms (46_orchestrator.md rules R208, R209, R219, R221, R222): every layer of a
packet is strict, so a packet determines its tag, its ciphertext and its key, and `DECODE` accepts a text exactly if it
is the packet of a plaintext. -/

namespace Sys2Proof.Machine

/-! ### The cipher is strict (R141, R147, R149) -/

/-- R141: an accepted padding is the padding of the message it leaves. -/
theorem pad_of_unpad {p m : Bytes} (h : unpad p = .ok m) (hp : p.length % 16 = 0) : pad m = p := by
  obtain ⟨n, h1, h16, -, hdrop, rfl⟩ := unpad_ok h
  have hlen := congrArg List.length hdrop
  rw [List.length_drop, List.length_replicate] at hlen
  have hn : 16 - (p.take (p.length - n)).length % 16 = n := by rw [List.length_take]; omega
  rw [pad, hn, ← hdrop, List.take_append_drop]

/-- R142, R147: both directions carry the same chaining values, the ciphertext blocks. -/
theorem cbcEncBlocks_cbcDecBlocks {w : List RoundWord} (hw : w.length = 60) {cs : List Bytes}
    (hcs : ∀ b ∈ cs, b.length = 16) {cv : Bytes} (hcv : cv.length = 16) :
    cbcEncBlocks w cv (cbcDecBlocks w cv cs) = cs := by
  induction cs generalizing cv with
  | nil => rfl
  | cons b cs ih =>
    obtain ⟨hb, hcs⟩ := List.forall_mem_cons.1 hcs
    rw [cbcDecBlocks, cbcEncBlocks, xorBytes_self_right ((aesDec_length hw b).trans hcv.symm), aesEnc_aesDec hw hb,
      ih hcs hb]

/-- R142, R144, R147: block by block encryption undoes decryption, in either mode. -/
theorem encryptBlocks_decryptBlocks (c : Config) {w : List RoundWord} (hw : w.length = 60) {cs : List Bytes}
    (hcs : ∀ b ∈ cs, b.length = 16) : encryptBlocks c w (decryptBlocks c w cs) = cs := by
  unfold decryptBlocks encryptBlocks
  cases c.mode with
  | cbc => exact cbcEncBlocks_cbcDecBlocks hw hcs c.iv.length_toList
  | ecb =>
    have hundo : ∀ b ∈ cs, (aesEnc w ∘ aesDec w) b = id b := fun b hb => aesEnc_aesDec hw (hcs b hb)
    simp only [List.map_map, List.map_congr_left hundo, List.map_id]

/-- R149: what `DECRYPT` accepts is the ciphertext of the message it gives. -/
theorem encryptBytes_of_decryptBytes {c : Config} {key x m : Bytes} (h : decryptBytes c key x = .ok m) :
    encryptBytes c key m = x := by
  obtain ⟨hmod, -⟩ := decryptBytes_ok_length h
  rw [decryptBytes, if_pos (ctLengthOk_of_decryptBytes_ok h)] at h
  have hx : x.length = 16 * (x.length / 16) := by omega
  have hcs := length_of_mem_blocksOf 16 _ x hx
  have hw := keyExpansion_length key
  obtain ⟨hcount, hps⟩ := decryptBlocks_shape c hw hcs
  have hpad : pad m = decryptPadded c key x := pad_of_unpad h (by rw [decryptPadded_length c key hmod, hmod])
  have hcut : blocksOf 16 (x.length / 16) (decryptPadded c key x) =
      decryptBlocks c (keyExpansion key) (blocksOf 16 (x.length / 16) x) := by
    have hcut := blocksOf_of_flatten 16 _ hps
    rwa [hcount, blocksOf_length] at hcut
  rw [encryptBytes, hpad, decryptPadded_length c key hmod, hcut, encryptBlocks_decryptBlocks c hw hcs,
    blocksOf_flatten 16 _ x hx]

/-! ### The texts are strict (R166, R180) -/

theorem b64Dec_b64Enc (b : Bytes) : b64Dec (b64Enc b) = .ok b := (b64Dec_eq_ok_iff_eq_b64Enc _ _).2 rfl

theorem hexDec_hexEnc (upper : Bool) (b : Bytes) : hexDec upper (hexEnc upper b) = .ok b :=
  (hexDec_eq_ok_iff_eq_hexEnc upper _ _).2 rfl

theorem b64Enc_injective : Function.Injective b64Enc := fun b b' h =>
  Except.ok.inj <| (b64Dec_b64Enc b).symm.trans ((congrArg b64Dec h).trans (b64Dec_b64Enc b'))

theorem hexEnc_injective (upper : Bool) : Function.Injective (hexEnc upper) := fun b b' h =>
  Except.ok.inj <| (hexDec_hexEnc upper b).symm.trans ((congrArg (hexDec upper) h).trans (hexDec_hexEnc upper b'))

/-- R163, R186: a tag fills its field of the blob. -/
theorem hexEnc_tag_length (upper : Bool) {tag : Bytes} (h : tag.length = 20) :
    (hexEnc upper tag).length = tagHexLen := by
  rw [hexEnc_length, h]; rfl

/-- R163, R186: a key fills its field of the blob. -/
theorem hexEnc_key_length (upper : Bool) {key : Bytes} (h : key.length = 32) :
    (hexEnc upper key).length = keyHexLen := by
  rw [hexEnc_length, h]; rfl

/-- R186: fields of the lengths of a tag and a key can be told from the blob they make up. -/
theorem joinFields_injective {t c k t' c' k' : Bytes} (ht : t.length = tagHexLen) (hk : k.length = keyHexLen)
    (ht' : t'.length = tagHexLen) (hk' : k'.length = keyHexLen) (h : joinFields t c k = joinFields t' c' k') :
    t = t' ∧ c = c' ∧ k = k' := by
  have htag := congrArg tagField h
  have hct := congrArg ctField h
  have hkey := congrArg keyField h
  rw [tagField_joinFields _ _ ht, tagField_joinFields _ _ ht'] at htag
  rw [ctField_joinFields _ ht hk, ctField_joinFields _ ht' hk'] at hct
  rw [keyField_joinFields _ _ hk, keyField_joinFields _ _ hk'] at hkey
  exact ⟨htag, hct, hkey⟩

/-- R185, R208: the packet of a tag, a ciphertext and a key. -/
def packetOf (c : Config) (tag ct key : Bytes) : Bytes :=
  b64Enc (joinFields (hexEnc c.hexUpper tag) (hexEnc c.hexUpper ct) (hexEnc c.hexUpper key))

/-- R208: the packet of the closed form. -/
theorem encodePacket_eq (c : Config) (plain seed : Bytes) :
    encodePacket c plain seed = packetOf c (sha1 plain) (encryptBytes c seed plain) seed := rfl

/-! ### `DECODE` of a packet (R209) -/

/-- R209: on the packet of a plaintext's ciphertext only the tag is left to decide. -/
theorem decodeResult_packetOf (c : Config) {tag key : Bytes} (plain : Bytes) (ht : tag.length = 20)
    (hk : key.length = 32) : decodeResult c (packetOf c tag (encryptBytes c key plain) key) =
      if sha1 plain = tag then (.ok, .none, plain) else (.tampered, .tagMismatch, []) := by
  have htag := hexEnc_tag_length c.hexUpper ht
  have hkey := hexEnc_key_length c.hexUpper hk
  have hlen : ¬ (joinFields (hexEnc c.hexUpper tag) (hexEnc c.hexUpper (encryptBytes c key plain))
      (hexEnc c.hexUpper key)).length < minBlob := by
    rw [joinFields_length, htag, hkey, tagHexLen, keyHexLen, minBlob]; omega
  simp only [decodeResult, packetOf, b64Dec_b64Enc, if_neg hlen, tagField_joinFields _ _ htag,
    keyField_joinFields _ _ hkey, ctField_joinFields _ htag hkey, hexDec_hexEnc, cipherRoundTrip c key plain hk]

/-- R209, R218: `DECODE` of the packet of the closed form gives the plaintext back. -/
theorem decodeResult_encodePacket (c : Config) (plain : Bytes) {seed : Bytes} (hs : seed.length = 32) :
    decodeResult c (encodePacket c plain seed) = (.ok, .none, plain) := by
  rw [encodePacket_eq, decodeResult_packetOf c plain (sha1_length plain) hs, if_pos rfl]

/-- R186, R222: a packet determines its tag, its ciphertext and its key. -/
theorem packetOf_injective {c : Config} {tag ct key tag' ct' key' : Bytes} (ht : tag.length = 20) (hk : key.length = 32)
    (ht' : tag'.length = 20) (hk' : key'.length = 32) (h : packetOf c tag ct key = packetOf c tag' ct' key') :
    tag = tag' ∧ ct = ct' ∧ key = key' := by
  obtain ⟨htag, hct, hkey⟩ := joinFields_injective (hexEnc_tag_length _ ht) (hexEnc_key_length _ hk)
    (hexEnc_tag_length _ ht') (hexEnc_key_length _ hk') (b64Enc_injective h)
  exact ⟨hexEnc_injective _ htag, hexEnc_injective _ hct, hexEnc_injective _ hkey⟩

/-- R209, R222: a text that `DECODE` accepts is the packet of its plaintext under a 32-byte key. -/
theorem exists_key_of_decodeResult_ok {c : Config} {t x : Bytes} (h : decodeResult c t = (.ok, .none, x)) :
    ∃ key, key.length = 32 ∧ t = encodePacket c x key := by
  unfold decodeResult at h
  split at h
  · simp at h
  next b hb =>
  split at h
  · simp at h
  next hlen =>
  split at h
  · simp at h
  · simp at h
  · simp at h
  next tag key ct htag hkey hct =>
  split at h
  · simp at h
  next plain hplain =>
  split at h
  next heq =>
    obtain ⟨-, -, rfl⟩ : ResultCode.ok = .ok ∧ Cause.none = .none ∧ plain = x := by simpa using h
    have hblob := joinFields_of_blob (Nat.le_of_not_lt hlen)
    have hkeyLen := hexDec_ok_length hkey
    obtain ⟨-, hfield, -⟩ := fields_of_blob (Nat.le_of_not_lt hlen)
    rw [hexDec_eq_ok_iff_eq_hexEnc] at htag hkey hct
    refine ⟨key, by omega, ?_⟩
    rw [encodePacket_eq, packetOf, heq, encryptBytes_of_decryptBytes hplain, ← htag, ← hct, ← hkey, hblob]
    exact (b64Dec_eq_ok_iff_eq_b64Enc t b).1 hb
  · simp at h

/-! ### Packets of one plaintext (R219, R221, R222) -/

/-- Settles O58: the key is the one the packet carries, and a packet determines its fields. -/
theorem canonicalParse : Obligations.CanonicalParse := by
  intro c t x h
  obtain ⟨key, hkey, rfl⟩ := exists_key_of_decodeResult_ok h
  refine ⟨encryptBytes c key x, key, hkey, rfl, rfl, fun ct' key' hkey' heq => ?_⟩
  obtain ⟨-, hct, hk⟩ := packetOf_injective (sha1_length x) hkey (sha1_length x) hkey' heq
  exact ⟨hct.symm, hk.symm⟩

/-- Settles O59: the packets carry different keys, and each is decoded under its own. -/
theorem differentDraws : Obligations.DifferentDraws := by
  intro c x s1 s2 h1 h2 hne
  refine ⟨fun heq => ?_, decodeResult_encodePacket c x h1, decodeResult_encodePacket c x h2⟩
  obtain ⟨-, -, hseed⟩ := packetOf_injective (sha1_length x) h1 (sha1_length x) h2 heq
  exact hne hseed

/-- Settles O60: every line of R209 before the comparison of the tags is passed. -/
theorem changedTagDetected : Obligations.ChangedTagDetected := by
  intro c x seed tag hseed htag hne
  exact (decodeResult_packetOf c x htag hseed).trans (if_neg hne.symm)

end Sys2Proof.Machine
end

section
/-! PROOF. The two commands as a whole (46_orchestrator.md rules R208, R209, R218, R220): a command written to a quiet
engine runs its sequence turn by turn, the buffers holding at each address what the closed form says, until it ends.
What a turn does is said by `encodeTurn` and `decodeTurn`. -/

namespace Sys2Proof.Machine

/-! ### Runs of an engine left alone -/

/-- Initialisation is over, and nothing but the engine's own turns is to come. -/
structure LeftAlone (s : State) : Prop where
  pending : s.initPending = false
  env : s.env = []

theorem step_of_leftAlone {s : State} (h : LeftAlone s) : step s = engineTurn s := by
  have hnext : { s with env := s.env.tail } = s := by rw [h.env, List.tail_nil, ← h.env]
  rw [step_of_sequencerNext ⟨h.pending, .inl h.env⟩, hnext]

theorem leftAlone_of_movesOn {s t : State} {bufs : Buffers} {rng : Bytes} (h : LeftAlone s)
    (hm : MovesOn s bufs rng t) : LeftAlone t :=
  ⟨hm.pending.trans h.pending, hm.env.trans h.env⟩

theorem toNat_upc_of_movesOn {s t : State} {bufs : Buffers} {rng : Bytes} (hm : MovesOn s bufs rng t)
    (h : s.upc.toNat ≤ 0x1A) : t.upc.toNat = s.upc.toNat + 1 := by
  rw [hm.upc]
  bv_omega

/-- A run is its first step and the run from there. -/
theorem run_succ {s t : State} (h : step s = .next t) (n : Nat) :
    Host.Core.run Sys2Proof.core (n + 1) s = Host.Core.run Sys2Proof.core n t := by
  have hcore : Sys2Proof.core.step s = .next t := h
  simp only [Host.Core.run, hcore]

/-- R260: an engine that is not busy stays as it is. -/
theorem run_of_idle {s : State} (h : LeftAlone s) (hb : s.busy = false) (n : Nat) :
    Host.Core.run Sys2Proof.core n s = .next s := by
  induction n with
  | zero => rfl
  | succ n ih => rw [run_succ ((step_of_leftAlone h).trans (engineTurn_of_idle hb)), ih]

/-- R202, R213: a command has ended with this result, cause and `OUT`, and left these bytes at the random source. -/
structure EndedWith (result : ResultCode × Cause × Bytes) (rng : Bytes) (t : State) : Prop where
  leftAlone : LeftAlone t
  result : (t.resultCode, t.resultCause, t.bufs.out) = result
  done : t.done = true
  busy : t.busy = false
  clear : InternalClear t
  rng : t.rng = rng

theorem EndedWith.fields {code : ResultCode} {cause : Cause} {out rng : Bytes} {t : State}
    (h : EndedWith (code, cause, out) rng t) : t.resultCode = code ∧ t.resultCause = cause ∧ t.bufs.out = out := by
  simpa only [Prod.mk.injEq] using h.result

/-- R202: a completion ends the command, and leaves the ports as they are. -/
theorem endedWith_of_completedWith {s t : State} {code : ResultCode} {cause : Cause} {out : Bytes} (h : LeftAlone s)
    (hc : CompletedWith code cause out s t) (hs : SameSource s t) : EndedWith (code, cause, out) s.rng t := by
  obtain ⟨hcode, hcause, hout, hbusy, hdone, hclear, -, -, -, -, -, -, -, hpending, henv, -⟩ := hc
  exact ⟨⟨hpending.trans h.pending, henv.trans h.env⟩, by rw [hcode, hcause, hout], hdone, hbusy, hclear, hs⟩

/-- R204: an invariant that every turn either carries to the next address or ends the command from holds of a run up to
the last address. -/
theorem run_sequence {P : State → Prop} {last : Nat} {result : ResultCode × Cause × Bytes} {rng : Bytes}
    (hturn : ∀ s, P s → LeftAlone s ∧ s.upc.toNat ≤ last ∧ ∃ t, engineTurn s = .next t ∧
      ((P t ∧ t.upc.toNat = s.upc.toNat + 1) ∨ EndedWith result rng t)) :
    ∀ (n : Nat) (s : State), P s → last < s.upc.toNat + n →
      ∃ t, Host.Core.run Sys2Proof.core n s = .next t ∧ EndedWith result rng t
  | 0, s, hs, hn => by
    obtain ⟨-, hle, -⟩ := hturn s hs
    omega
  | n + 1, s, hs, hn => by
    obtain ⟨halone, -, t, ht, hcase⟩ := hturn s hs
    rw [run_succ ((step_of_leftAlone halone).trans ht)]
    rcases hcase with ⟨hnext, hupc⟩ | hend
    · exact run_sequence hturn n t hnext (by omega)
    · exact ⟨t, run_of_idle hend.leftAlone hend.busy n, hend⟩

/-- R201: a command written to a quiet engine, its input within the capacity, starts its sequence in the first of the
twelve steps. -/
theorem runCommand_eq {s : State} (h : Quiet s) {v : Word32} {r : CmdReg} {entry : BitVec 5} {cap : Nat}
    (hcmd : Command s.cfg v r entry cap) (hlen : s.ilen.toNat ≤ cap) :
    runCommand v s =
      Host.Core.run Sys2Proof.core 11 (startCommand r entry (beginCommand { s with env := [], reply := none })) := by
  have hstep := step_of_command (s := writingCommand v s) ⟨h.pending, rfl⟩
  have haccept := (acceptCommand_of_command (s := { s with env := [], reply := none }) h.fatal h.busy hcmd).1 hlen
  exact run_succ (hstep.trans (congrArg _ haccept)) 11

/-! ### `ENCODE` (R208) -/

/-- R208: what the buffers and the random source hold at each address of `ENCODE`, on the input `x` with the draw `seed`
and the bytes `rest` behind it. -/
def EncodeValues (x seed rest : Bytes) (s : State) : Prop :=
  let b := s.bufs
  let u := s.upc.toNat
  b.inp = x ∧ seed.length = 32 ∧
    (u ≤ 0x00 → s.rng = seed ++ rest) ∧ (0x01 ≤ u → s.rng = rest ∧ b.seed = seed) ∧
    (0x02 ≤ u → b.key = seed) ∧
    (0x03 ≤ u → b.ct = encryptBytes s.cfg seed x) ∧
    (0x04 ≤ u → b.pt = x) ∧
    (0x05 ≤ u → b.tag = sha1 x) ∧
    (0x06 ≤ u → b.tagHex = hexEnc s.cfg.hexUpper (sha1 x)) ∧
    (0x07 ≤ u → b.ctHex = hexEnc s.cfg.hexUpper (encryptBytes s.cfg seed x)) ∧
    (0x08 ≤ u → b.keyHex = hexEnc s.cfg.hexUpper seed) ∧
    (0x09 ≤ u → b.blob = encodeBlob s.cfg x seed) ∧
    (0x0A ≤ u → b.out = encodePacket s.cfg x seed)

/-- R208: each step of `ENCODE` gives the buffer it writes the value of the closed form. -/
theorem encodeValues_of_step {x seed rest : Bytes} {s t : State} {bufs : Buffers} {rng : Bytes}
    (h : EncodeValues x seed rest s) (hstep : EncodeStep s s.upc bufs rng) (hm : MovesOn s bufs rng t) :
    EncodeValues x seed rest t := by
  unfold EncodeValues at h ⊢
  rw [hm.bufs, hm.cfg, hm.upc, hm.rng]
  clear hm
  generalize s.upc = u at h hstep
  cases hstep <;>
    simp only [BitVec.reduceAdd, BitVec.reduceToNat, Nat.reduceLeDiff, forall_const, IsEmpty.forall_iff, true_and,
      and_true] at h ⊢
  case newseed =>
    obtain ⟨hx, hseed, hrng⟩ := h
    rw [hrng, List.drop_left' hseed, List.take_left' hseed]
    exact ⟨hx, hseed, rfl, rfl⟩
  case derivekey =>
    obtain ⟨hx, hseed, hrng, hdrawn⟩ := h
    rw [hdrawn, List.take_of_length_le hseed.le]
    exact ⟨hx, hseed, ⟨hrng, rfl⟩, rfl⟩
  case encrypt | decrypt | digest | hexTag | hexCt | hexSeed => grind
  case join => grind [encodeBlob]
  case b64enc => grind [encodePacket]

/-- R208: an `ENCODE` under way, with nothing but the engine's own turns to come. -/
structure EncodeRun (c : Config) (x seed rest : Bytes) (s : State) : Prop where
  leftAlone : LeftAlone s
  busy : s.busy = true
  rom : s.rom = sequenceRom
  cfg : s.cfg = c
  shape : EncodeShape s
  values : EncodeValues x seed rest s

/-- R208: every turn of an `ENCODE` whose draw stands ready carries it one address further, or ends it with its
packet. -/
theorem encodeRun_turn {c : Config} {x seed rest : Bytes} {s : State} (h : EncodeRun c x seed rest s) :
    LeftAlone s ∧ s.upc.toNat ≤ 0x0A ∧ ∃ t, engineTurn s = .next t ∧
      ((EncodeRun c x seed rest t ∧ t.upc.toNat = s.upc.toNat + 1) ∨
        EndedWith (.ok, .none, encodePacket c x seed) rest t) := by
  have hlast := h.shape.1
  refine ⟨h.leftAlone, hlast, ?_⟩
  rcases encodeTurn h.busy h.rom h.shape with ⟨hu, hshort, -⟩ | ⟨hstep, t, ht, hm⟩ | ⟨hu, ht⟩
  · have hvalues := h.values
    simp only [EncodeValues, hu, BitVec.reduceToNat, le_refl, forall_const] at hvalues
    obtain ⟨-, hseed, hrng, -⟩ := hvalues
    rw [hrng, List.length_append, hseed] at hshort
    omega
  · exact ⟨t, ht, .inl ⟨⟨leftAlone_of_movesOn h.leftAlone hm, hm.busy.trans h.busy, hm.rom.trans h.rom,
      hm.cfg.trans h.cfg, encodeShape_of_step h.shape hstep hm, encodeValues_of_step h.values hstep hm⟩,
      toNat_upc_of_movesOn hm (by omega)⟩⟩
  · obtain ⟨-, -, -, hrng, -, -, -, -, -, -, -, -, hout⟩ := h.values
    have hend := endedWith_of_completedWith h.leftAlone (complete_completedWith .ok .none s) rfl
    rw [if_pos rfl, hout (by simp [hu]), (hrng (by simp [hu])).1, h.cfg] at hend
    exact ⟨_, ht, .inr hend⟩

/-- Settles O54: the run starts at the entry address, where only the input and the draw have to stand ready. -/
theorem encodeClosedForm : Obligations.EncodeClosedForm := by
  intro s hquiet _ hrom hlen hready
  have hrun : EncodeRun s.cfg (windowPrefix s.inw s.ilen.toNat) (s.rng.take 32) (s.rng.drop 32)
      (startCommand .encode 0x00#5 (beginCommand { s with env := [], reply := none })) :=
    ⟨⟨hquiet.pending, rfl⟩, rfl, hrom, rfl, by simpa [EncodeShape] using hlen, by simpa [EncodeValues] using hready⟩
  obtain ⟨t, ht, hend⟩ := run_sequence (fun _ => encodeRun_turn) 11 _ hrun (by simp)
  obtain ⟨hcode, hcause, hout⟩ := hend.fields
  rw [← runCommand_eq hquiet .encode hlen] at ht
  exact ⟨t, ht, hcode, hcause, hout, hend.done, hend.busy, hend.clear, hend.rng⟩

/-! ### `DECODE` (R209) -/

/-- R209: what the buffers hold at each address of `DECODE`: each layer of the input, opened without a failure. -/
def DecodeValues (s : State) : Prop :=
  let b := s.bufs
  let u := s.upc.toNat
  (0x11 ≤ u → b64Dec b.inp = .ok b.blob) ∧
    (0x12 ≤ u → ¬ b.blob.length < minBlob ∧ b.tagHex = tagField b.blob ∧ b.ctHex = ctField b.blob ∧
      b.keyHex = keyField b.blob) ∧
    (0x13 ≤ u → hexDec s.cfg.hexUpper (tagField b.blob) = .ok b.tag) ∧
    (0x14 ≤ u → hexDec s.cfg.hexUpper (keyField b.blob) = .ok b.seed) ∧
    (0x15 ≤ u → hexDec s.cfg.hexUpper (ctField b.blob) = .ok b.ct) ∧
    (0x16 ≤ u → b.key = b.seed) ∧
    (0x17 ≤ u → decryptBytes s.cfg b.seed b.ct = .ok b.pt) ∧
    (0x18 ≤ u → b.xtag = sha1 b.pt) ∧
    (0x19 ≤ u → sha1 b.pt = b.tag) ∧
    (0x1A ≤ u → b.out = b.pt)

/-- R209: each step of `DECODE` that does not fail opens one layer more. -/
theorem decodeValues_of_step {s t : State} {bufs : Buffers} (h : DecodeValues s) (hsh : DecodeShape s)
    (hstep : DecodeStep s s.upc bufs) (hm : MovesOn s bufs s.rng t) : DecodeValues t := by
  obtain ⟨-, -, -, -, -, -, hseed, -⟩ := hsh
  unfold DecodeValues at h ⊢
  rw [hm.bufs, hm.cfg, hm.upc]
  clear hm
  generalize s.upc = u at h hseed hstep
  cases hstep <;>
    simp only [BitVec.reduceAdd, BitVec.reduceToNat, Nat.reduceLeDiff, forall_const, IsEmpty.forall_iff, and_true]
      at h hseed ⊢
  case b64dec hx => exact hx
  case split hlen => exact ⟨h, Nat.not_lt.mpr hlen⟩
  case hexTag hv | hexSeed hv | hexCt hv | decrypt hv => grind
  case derivekey => grind [List.take_of_length_le]
  case digest | tagcmp | move => grind

/-- R209: the line of the table that the failure of a step stands for is the first that applies. -/
theorem decodeResult_of_failure {s : State} {code : ResultCode} {cause : Cause} (h : DecodeValues s)
    (hfail : DecodeFailure s s.upc code cause) : decodeResult s.cfg s.bufs.inp = (code, cause, []) := by
  unfold DecodeValues at h
  generalize s.upc = u at h hfail
  cases hfail <;>
    simp only [BitVec.reduceToNat, Nat.reduceLeDiff, forall_const, IsEmpty.forall_iff, and_true] at h
  case base64 hf => simp only [decodeResult, hf]
  case short hlen => simp only [decodeResult, h, if_pos (show s.bufs.blob.length < minBlob from hlen)]
  case hexTag hf =>
    obtain ⟨hblob, hlen, htagHex, -⟩ := h
    rw [htagHex] at hf
    simp only [decodeResult, hblob, if_neg hlen, hf]
  case hexSeed hf =>
    obtain ⟨hblob, ⟨hlen, -, -, hkeyHex⟩, htag⟩ := h
    rw [hkeyHex] at hf
    simp only [decodeResult, hblob, if_neg hlen, htag, hf]
  case hexCt hf =>
    obtain ⟨hblob, ⟨hlen, -, hctHex, -⟩, htag, hseed⟩ := h
    rw [hctHex] at hf
    simp only [decodeResult, hblob, if_neg hlen, htag, hseed, hf]
  case cipher hf =>
    obtain ⟨hblob, ⟨hlen, -⟩, htag, hseed, hct, hkey⟩ := h
    rw [hkey] at hf
    simp only [decodeResult, hblob, if_neg hlen, htag, hseed, hct, hf]
  case tag hne =>
    obtain ⟨hblob, ⟨hlen, -⟩, htag, hseed, hct, -, hpt, hxtag⟩ := h
    rw [hxtag] at hne
    simp only [decodeResult, hblob, if_neg hlen, htag, hseed, hct, hpt, if_neg hne.symm]

/-- R209: at `DONE` the last line of the table applies. -/
theorem decodeResult_of_done {s : State} (h : DecodeValues s) (hu : s.upc = 0x1A#5) :
    decodeResult s.cfg s.bufs.inp = (.ok, .none, s.bufs.out) := by
  simp only [DecodeValues, hu, BitVec.reduceToNat, Nat.reduceLeDiff, forall_const] at h
  obtain ⟨hblob, ⟨hlen, -⟩, htag, hseed, hct, -, hpt, -, heq, hout⟩ := h
  simp only [decodeResult, hblob, if_neg hlen, htag, hseed, hct, hpt, if_pos heq, hout]

/-- R209: a `DECODE` under way on the input `x`, with nothing but the engine's own turns to come. -/
structure DecodeRun (c : Config) (x rng : Bytes) (s : State) : Prop where
  leftAlone : LeftAlone s
  busy : s.busy = true
  rom : s.rom = sequenceRom
  cmdreg : s.cmdreg = .decode
  cfg : s.cfg = c
  inp : s.bufs.inp = x
  rng : s.rng = rng
  shape : DecodeShape s
  values : DecodeValues s

/-- R209: every turn of a `DECODE` carries it one address further, or ends it with the outcome of the table. -/
theorem decodeRun_turn {c : Config} {x rng : Bytes} {s : State} (h : DecodeRun c x rng s) :
    LeftAlone s ∧ s.upc.toNat ≤ 0x1A ∧ ∃ t, engineTurn s = .next t ∧
      ((DecodeRun c x rng t ∧ t.upc.toNat = s.upc.toNat + 1) ∨ EndedWith (decodeResult c x) rng t) := by
  have hlast := h.shape.2.1
  refine ⟨h.leftAlone, hlast, ?_⟩
  rw [← h.cfg, ← h.inp, ← h.rng]
  rcases decodeTurn h.busy h.rom h.cmdreg h.shape with ⟨hstep, t, ht, hm⟩ | ⟨hfail, t, ht, hc, hs⟩ | ⟨hu, ht⟩
  · exact ⟨t, ht, .inl ⟨⟨leftAlone_of_movesOn h.leftAlone hm, hm.busy.trans h.busy, hm.rom.trans h.rom,
      hm.cmdreg.trans h.cmdreg, hm.cfg, by rw [hm.bufs, hstep.inp_eq], hm.rng, decodeShape_of_step h.shape hstep hm,
      decodeValues_of_step h.values h.shape hstep hm⟩, toNat_upc_of_movesOn hm hlast⟩⟩
  · rw [decodeResult_of_failure h.values hfail]
    exact ⟨t, ht, .inr (endedWith_of_completedWith h.leftAlone hc hs)⟩
  · rw [decodeResult_of_done h.values hu]
    exact ⟨_, ht, .inr (endedWith_of_completedWith h.leftAlone (complete_completedWith .ok .none s) rfl)⟩

/-- R209: the whole command, with the record of how it ended. -/
theorem runCommand_decode {s : State} (hquiet : Quiet s) (hrom : s.rom = sequenceRom)
    (hlen : s.ilen.toNat ≤ maxPkt s.cfg) :
    ∃ t, runCommand 0x00000002#32 s = .next t ∧
      EndedWith (decodeResult s.cfg (windowPrefix s.inw s.ilen.toNat)) s.rng t := by
  have hrun : DecodeRun s.cfg (windowPrefix s.inw s.ilen.toNat) s.rng
      (startCommand .decode 0x10#5 (beginCommand { s with env := [], reply := none })) :=
    ⟨⟨hquiet.pending, rfl⟩, rfl, hrom, rfl, rfl, rfl, rfl, by simpa [DecodeShape] using hlen, by simp [DecodeValues]⟩
  rw [runCommand_eq hquiet .decode hlen]
  exact run_sequence (fun _ => decodeRun_turn) 11 _ hrun (by simp)

/-- Settles O55: the run starts at the entry address, where no layer has been opened yet. -/
theorem decodeClosedForm : Obligations.DecodeClosedForm := by
  intro s hquiet _ hrom hlen
  obtain ⟨t, ht, hend⟩ := runCommand_decode hquiet hrom hlen
  exact ⟨t, ht, hend.result, hend.done, hend.busy, hend.clear, hend.rng⟩

/-! ### Both commands (R218, R220) -/

/-- R218, R10: the packet of a plaintext within `MAX_PT` is within `MAX_PKT`. -/
theorem encodePacket_length_le {c : Config} {plain seed : Bytes} (hp : plain.length ≤ c.maxPt) (hs : seed.length = 32) :
    (encodePacket c plain seed).length ≤ maxPkt c := by
  obtain ⟨-, -, -, hout⟩ := encode_sizes hp rfl rfl
  rw [encodePacket, b64Enc_length, encodeBlob, joinFields_length, hexEnc_length, hexEnc_length, hexEnc_length,
    sha1_length, encryptBytes_length, hs]
  omega

/-- Settles O56: the packet is accepted as an input, and the table gives its plaintext. -/
theorem commandsRoundTrip : Obligations.CommandsRoundTrip := by
  intro s hquiet hwf hrom hlen hready
  obtain ⟨t, ht, -, -, hout, -⟩ := encodeClosedForm s hquiet hwf hrom hlen hready
  have hseed : (s.rng.take 32).length = 32 := List.length_take_of_le hready
  have hfits : t.bufs.out.length ≤ maxPkt s.cfg := by
    rw [hout]
    exact encodePacket_length_le ((windowPrefix_length _ _).trans_le hlen) hseed
  refine ⟨t, ht, hfits, fun u hu hcfg hurom hin => ?_⟩
  have hulen : u.ilen.toNat ≤ maxPkt u.cfg := by rw [hcfg, ← windowPrefix_length u.inw u.ilen.toNat, hin]; exact hfits
  obtain ⟨v, hv, hend⟩ := runCommand_decode hu hurom hulen
  rw [hin, hcfg, hout, decodeResult_encodePacket _ _ hseed] at hend
  exact ⟨v, hv, hend.fields⟩

/-- R10: `MAX_PKT` leaves room for the packet of the empty plaintext. -/
theorem le_maxPkt (c : Config) : 184 ≤ maxPkt c := by
  unfold maxPkt maxBlob maxCt; omega

/-- R209, R220: a base64 text of a blob shorter than its tag and key is malformed. -/
theorem decodeResult_of_short (c : Config) {x : Bytes} (h : x.length < 104) :
    decodeResult c (b64Enc x) = (.malformed, .blobShort, []) := by
  rw [decodeResult, b64Dec_b64Enc]
  exact if_pos h

/-- Settles O57: each text is within `MAX_PKT`, and the table gives its outcome. -/
theorem malformedInputs : Obligations.MalformedInputs := by
  intro s hquiet _ hrom
  have hcap := le_maxPkt s.cfg
  have hdecode {text : Bytes} {cause : Cause} (hin : windowPrefix s.inw s.ilen.toNat = text) (hlen : text.length ≤ 184)
      (hresult : decodeResult s.cfg text = (.malformed, cause, [])) :
      ∃ t, runCommand 0x00000002#32 s = .next t ∧ t.resultCode = .malformed ∧ t.resultCause = cause ∧
        t.bufs.out = [] := by
    have hilen : s.ilen.toNat = text.length := by rw [← hin, windowPrefix_length]
    obtain ⟨t, ht, hend⟩ := runCommand_decode hquiet hrom (by omega)
    rw [hin, hresult] at hend
    exact ⟨t, ht, hend.fields⟩
  refine ⟨fun hilen => ?_, fun hin => ?_, fun x hx hin => ?_⟩
  · have hin : windowPrefix s.inw s.ilen.toNat = b64Enc [] := by rw [hilen]; rfl
    exact hdecode hin (by simp [b64Enc]) (decodeResult_of_short s.cfg (by simp))
  · exact hdecode hin (by decide) rfl
  · exact hdecode hin (by rw [b64Enc_length]; omega) (decodeResult_of_short s.cfg hx)

end Sys2Proof.Machine
end

section
/-! PROOF. The reset event, the check of initialisation, and an engine that waits (70_reset_and_hazards.md rules R260 to
R262; 10_state.md rules R39, R40; 60_exceptions.md rules R240, R256). Each agent's step is given its equation once; a
dead engine is followed agent by agent, and `Inv` says the rest of it. -/

namespace Sys2Proof.Machine

/-! ### The step of each agent but the host -/

/-- R262: while the check is pending, it is the step. -/
theorem step_of_pending {s : State} (h : s.initPending = true) : step s = .next (initialise s) := by
  rw [step, turn_of_pending h]

theorem turn_of_reset {s : State} (hp : s.initPending = false) (he : s.env.head? = some .reset) : turn s = .reset := by
  obtain ⟨rest, henv⟩ := List.head?_eq_some_iff.1 he
  simp [turn, hp, henv]

/-- R260: a step by the reset input. -/
theorem step_of_reset {s : State} (hp : s.initPending = false) (he : s.env.head? = some .reset) :
    step s = .next (resetEngine { s with env := s.env.tail }) := by
  rw [step, turn_of_reset hp he, takeEvent_of_not_pending hp]

/-- R111: a step by the random source. -/
theorem step_of_deliver {s : State} {bytes : Bytes} {rest : List Event} (hp : s.initPending = false)
    (he : s.env = .deliver bytes :: rest) : step s = .next { s with env := rest, rng := s.rng ++ bytes } := by
  simp [step, turn, takeEvent, hp, he]

/-- R262: a step in which the sampled signals change. -/
theorem step_of_signals {s : State} {r c d : Bool} {rest : List Event} (hp : s.initPending = false)
    (he : s.env = .signals r c d :: rest) :
    step s = .next { s with env := rest, rngOk := r, cipherOk := c, digestOk := d } := by
  simp [step, turn, takeEvent, hp, he]

/-! ### Waiting (R256, R260) -/

/-- Settles O10: the sequencer's turn does nothing while `BUSY` is 0. -/
theorem idleEngineWaits : Obligations.IdleEngineWaits := fun _ hnext hb =>
  (step_of_sequencerNext hnext).trans (engineTurn_of_idle hb)

/-! ### Initialisation (R262) -/

/-- R262: `FATAL` is 0 after the check exactly if all three signals were 1. -/
theorem initialise_fatal_eq_false_iff (s : State) :
    (initialise s).fatal = false ↔ s.rngOk = true ∧ s.cipherOk = true ∧ s.digestOk = true := by
  simp [and_assoc]

/-- R31, R262: with the other flags at 0, `STATUS` after the check shows `FATAL` alone. -/
theorem statusWord_initialise {s : State} (hb : s.busy = false) (hd : s.done = false) (ho : s.ovr = false) :
    statusWord (initialise s) = if s.rngOk && s.cipherOk && s.digestOk then 0x00000000#32 else 0x00000004#32 := by
  apply BitVec.eq_of_toNat_eq
  rw [statusWord_toNat, initialise_busy, initialise_done, initialise_fatal, initialise_ovr, hb, hd, ho]
  cases s.rngOk && s.cipherOk && s.digestOk <;> rfl

/-- Settles O11: the step is `initialise`, which writes `FATAL` and nothing else of the engine. -/
theorem initialisationCheck : Obligations.InitialisationCheck := by
  intro s hp
  refine ⟨initialise s, step_of_pending hp, rfl, initialise_fatal_eq_false_iff s, fun hreset => ?_⟩
  obtain ⟨-, -, -, -, -, -, -, hb, hd, -, ho, -⟩ := hreset
  exact statusWord_initialise hb hd ho

/-! ### The reset event (R260, R261) -/

/-- Settles O13: the step is `resetEngine`, which reaches the reset values from any state. -/
theorem resetEvent : Obligations.ResetEvent := fun _ hp he =>
  ⟨_, step_of_reset hp he, resetValues_resetEngine _, rfl, rfl, rfl, rfl, rfl, rfl, rfl, rfl⟩

/-! ### The dead state (R240, R256) -/

/-- R59, R256: what a step may do to a dead engine's flags: `FATAL` stays, and `OVR` may be cleared but not set. What
else holds of a dead engine is in `Inv`. -/
def StaysDead (s t : State) : Prop := t.fatal = true ∧ (t.ovr = true → s.ovr = true)

theorem staysDead_of_eq {s t : State} (h : s.fatal = true) (hf : t.fatal = s.fatal) (ho : t.ovr = s.ovr) :
    StaysDead s t :=
  ⟨hf.trans h, fun ht => ho.symm.trans ht⟩

/-- R59: a dead engine ignores every guarded write, without setting `OVR`; a write to `STATUS` can clear it. -/
theorem staysDead_hostWrite {s : State} (h : s.fatal = true) (space : Space) (k width : Nat) (v : Word32) :
    StaysDead s (hostWrite space k width v s) := by
  rcases hostWrite_cases space k width v s with
    he | ⟨hf, -⟩ | ⟨hf, -⟩ | ⟨hf, -⟩ | ⟨b, he⟩ | he
  · rw [he]
    exact staysDead_of_eq h rfl rfl
  · exact absurd h (by simp [hf])
  · exact absurd h (by simp [hf])
  · exact absurd h (by simp [hf])
  · rw [he]
    exact staysDead_of_eq h rfl rfl
  · rw [he, writeStatus_eq]
    exact ⟨h, fun ho => (Bool.and_eq_true_iff.1 ho).1⟩

theorem acceptCommand_of_fatal (v : Word32) {s : State} (h : s.fatal = true) : acceptCommand v s = s := if_pos h

theorem staysDead_hostTurn {s t : State} {a : HostAccess} (h : s.fatal = true) (ht : hostTurn a s = .next t) :
    StaysDead s t := by
  rcases hostTurn_cases ht with ⟨v, rfl⟩ | ⟨r, rfl⟩ | ⟨space, k, width, v, rfl⟩
  · rw [acceptCommand_of_fatal (s := { s with reply := none }) v h]
    exact staysDead_of_eq h rfl rfl
  · exact staysDead_of_eq h rfl rfl
  · exact staysDead_hostWrite h space k width v

/-- R59, R256: no agent but the reset input ends the dead state or sets `OVR` in it. -/
theorem staysDead_step {s t : State} (hp : s.initPending = false) (hb : s.busy = false) (h : s.fatal = true)
    (hstep : step s = .next t) (hreset : s.env.head? ≠ some .reset) : StaysDead s t := by
  have waits (hnext : SequencerNext s) : StaysDead s t := by
    cases (idleEngineWaits s hnext hb).symm.trans hstep
    exact staysDead_of_eq h rfl rfl
  cases henv : s.env with
  | nil => exact waits ⟨hp, .inl henv⟩
  | cons e rest =>
    cases e with
    | engine => exact waits ⟨hp, .inr (by rw [henv, List.head?_cons])⟩
    | access a =>
      have hturn : hostTurn a { s with env := rest } = .next t := (step_of_hostNext ⟨hp, henv⟩).symm.trans hstep
      exact staysDead_hostTurn (s := { s with env := rest }) h hturn
    | reset => exact absurd (by rw [henv, List.head?_cons]) hreset
    | deliver bytes =>
      cases (step_of_deliver hp henv).symm.trans hstep
      exact staysDead_of_eq h rfl rfl
    | signals r c d =>
      cases (step_of_signals hp henv).symm.trans hstep
      exact staysDead_of_eq h rfl rfl

/-- R231: no cause is reported without a result. -/
theorem legalResult_none {cause : Cause} (h : legalResult .none cause = true) : cause = .none := by
  cases cause with
  | none => rfl
  | _ => exact nomatch h

/-- Settles O46: `FATAL` stays, so that the invariant after the step says what a dead engine holds. -/
theorem deadUntilReset : Obligations.DeadUntilReset := by
  intro s t hinv hfatal hstep hreset
  have hpending : s.initPending = false :=
    Bool.eq_false_iff.mpr fun hp => absurd hfatal (by simp [(hinv.pending hp).2.2.1])
  obtain ⟨hbusy, -⟩ := hinv.dead hfatal
  obtain ⟨hdead, hovr⟩ := staysDead_step hpending hbusy hfatal hstep hreset
  have hinv' : Inv t := engineInvKept s t hinv hstep
  obtain ⟨hbusy', hdone, hcode, hilen, hinw, hout⟩ := hinv'.dead hdead
  have hcause : t.resultCause = .none := legalResult_none (hcode ▸ hinv'.result)
  have hirq : irq t = false := by rw [irq, hdone, Bool.false_and]
  have hread (k : Nat) : Memory.read t.inw k = 0 := by rw [hinw]; rfl
  exact ⟨hdead, hbusy', hdone, hcode, hcause, hirq, hovr, hilen, hread, hout⟩

end Sys2Proof.Machine
end

section
/-! PROOF. The sequencer faults of the unit operations (60_exceptions.md rule R238; 10_state.md rules R20, R27; R150): a
broken length precondition, a result above its buffer's capacity, a step at the last address. What an operation does
beside its store (working registers, the source's bytes, the outer fields of `SPLIT`) bears on no fault. -/

namespace Sys2Proof.Machine

/-! ### Broken preconditions -/

theorem faultsWith_of_exec {cause : Cause} {i : Instr} {s : State} (h : exec i s = .next (seqFault cause s)) :
    FaultsWith cause i s :=
  ⟨_, h, seqFault_completedWith cause s⟩

/-- Settles O33: each precondition is the guard `whenHolds` of its operation. -/
theorem preconditionFaults : Obligations.PreconditionFaults := by
  intro s dst src
  refine ⟨fun hwf hkey => ?_, fun hwf hne hmod hkey => ?_, fun hseed => ?_, fun hlen => ?_, fun hlen => ?_⟩ <;>
    apply faultsWith_of_exec
  · rw [exec_encrypt, execEncrypt, whenLegal_of_wf hwf, keyLen, whenHolds_of_false (decide_eq_false hkey)]
  · rw [exec_decrypt, execDecrypt, whenLegal_of_wf hwf, if_pos ((ctLengthOk_iff _).2 ⟨hne, hmod⟩), keyLen,
      whenHolds_of_false (decide_eq_false hkey)]
  · rw [exec_derivekey, execDerivekey, keyLen, whenHolds_of_false (decide_eq_false (Nat.not_le_of_lt hseed))]
  · rw [exec_join, execJoin, tagHexLen, keyHexLen, whenHolds_of_false (decide_eq_false (not_and_or.2 hlen))]
  · rw [exec_tagcmp, execTagcmp, tagLen, whenHolds_of_false (decide_eq_false (not_and_or.2 hlen))]

/-! ### Results that do not fit -/

/-- R238: an operation that ends in a store which does not fit is a sequencer fault, whatever it changed beside it. -/
theorem faultsWith_of_store {i : Instr} {dst : Buf} {v : Bytes} {s : State} {bufs : Buffers} {cipher : CipherRegs}
    {digest : DigestRegs} {rng : Bytes}
    (hexec : exec i s = .next (store dst v { s with bufs := bufs, cipher := cipher, digest := digest, rng := rng }))
    (h : ¬ Fits dst v s) : FaultsWith .stepPrecond i s := by
  refine ⟨_, hexec, ?_⟩
  rcases store_cases dst v { s with bufs := bufs, cipher := cipher, digest := digest, rng := rng } with
    ⟨hfits, -⟩ | ⟨-, hstore⟩
  · exact absurd hfits h
  · rw [hstore]
    exact seqFault_completedWith .stepPrecond _

/-- R27: at the last address nothing fits. -/
theorem not_fits_of_upc (dst : Buf) (v : Bytes) {s : State} (hu : s.upc = 31#5) : ¬ Fits dst v s := fun h => h.2 hu

theorem exec_digest_of_wf {dst src : Buf} {s : State} (hwf : (Instr.digest dst src).wf = true) :
    exec (.digest dst src) s =
      .next (store dst (sha1 (readBuf s.bufs src)) { s with digest := digestRegsAfter (readBuf s.bufs src) }) :=
  congrArg _ (whenLegal_of_wf hwf)

/-- R27, R238: `TAGCMP` writes no buffer, so only the wrap of `UPC` can stop it once the tags are equal. -/
theorem tagcmp_faults_of_upc {s : State} (hx : s.bufs.xtag.length = 20) (heq : s.bufs.tag = s.bufs.xtag)
    (hu : s.upc = 31#5) : FaultsWith .stepPrecond .tagcmp s := by
  refine ⟨_, exec_tagcmp_of_lengths hx (heq ▸ hx), ?_⟩
  rw [tagcmpStep_of_eq heq, advance, if_pos hu]
  exact seqFault_completedWith .stepPrecond { s with diff := 0 }

/-- Settles O34: every operation but `TAGCMP` ends in a store, which faults when its result does not fit. -/
theorem capacityFaults : Obligations.CapacityFaults := by
  intro s dst src
  refine ⟨?move, ?hexenc, ?b64enc, ?digest, ?encrypt, ?decrypt, ?hexdec, ?b64dec, ?newseed, ?derivekey, ?join, ?split,
    tagcmp_faults_of_upc⟩
  case move => exact fun hwf => faultsWith_of_store (exec_move_of_wf hwf)
  case hexenc => exact fun hwf => faultsWith_of_store (exec_hexenc_of_wf hwf)
  case b64enc => exact fun hwf => faultsWith_of_store (exec_b64enc_of_wf hwf)
  case digest => exact fun hwf hu => faultsWith_of_store (exec_digest_of_wf hwf) (not_fits_of_upc _ _ hu)
  case encrypt =>
    intro hwf hkey
    obtain ⟨cipher, hexec⟩ := exec_encrypt_of_key hwf hkey
    exact faultsWith_of_store hexec
  case decrypt =>
    intro m hwf hkey hm
    obtain ⟨cipher, hexec⟩ := exec_decrypt_of_lengths hwf (ctLengthOk_of_decryptBytes_ok hm) hkey
    rw [hm, storeResult_ok] at hexec
    exact faultsWith_of_store hexec
  case hexdec =>
    intro b hwf hb
    have hexec := exec_hexdec_of_wf (s := s) hwf
    rw [hb, storeResult_ok] at hexec
    exact faultsWith_of_store hexec
  case b64dec =>
    intro b hwf hb
    have hexec := exec_b64dec_of_wf (s := s) hwf
    rw [hb, storeResult_ok] at hexec
    exact faultsWith_of_store hexec
  case newseed =>
    exact fun hready hu => faultsWith_of_store (exec_newseed_of_ready hready) (not_fits_of_upc _ _ hu)
  case derivekey =>
    exact fun hseed hu => faultsWith_of_store (exec_derivekey_of_length hseed) (not_fits_of_upc _ _ hu)
  case join => exact fun ht hk => faultsWith_of_store (exec_join_of_lengths ht hk)
  case split =>
    intro hlen
    have hexec := exec_split_of_length hlen
    rw [splitStep_eq_store] at hexec
    exact faultsWith_of_store hexec

end Sys2Proof.Machine
end
